-- ==== Sys2Proof/Word.lean ====
section
/-! DEFINITION. The words of PARSER-BLOCK: bytes, 64-bit command and response words, and the narrow fields. -/
namespace Sys2Proof

/-- One byte (R8: "A byte is 8 bits"). -/
abbrev Byte := BitVec 8

/-- A command word or a response word (R71, R74: 64 bits, a value and not a byte sequence). -/
abbrev Word64 := BitVec 64

/-- A 13-bit substream identifier (R6 PID_BITS, R83). -/
abbrev Pid := BitVec 13

/-- A 4-bit continuity counter, modulus 16 (R6 CC_BITS, R83). -/
abbrev Cc := BitVec 4

/-- A 16-bit RTP sequence number, modulus 65536 (R6 SEQ_BITS, R79). -/
abbrev SeqNo := BitVec 16

end Sys2Proof
end

