-- ==== Sys2Proof/Config.lean ====
section
/-! DEFINITION. What is fixed when the block is built (R6), and the free values the spec leaves open (R9 `draw()`). That a
free value depends on the number of the draw alone, and on nothing else of the state, is a DESIGN CHOICE: log entries 5
and 6. -/
namespace Sys2Proof

/-- PKT_COUNT_MODE (R6, R180): what the packets-received counter counts. -/
inductive PktCountMode where
  | perUnit
  | perTs
  deriving DecidableEq, Repr

/-- ARB_GRAN (R6, R59): which receiver steps are atomic against consumer commands. -/
inductive ArbGran where
  | micro
  | unit
  deriving DecidableEq, Repr

/-- The *config* parameters of R6: fixed for one block, and held in the state as data that no step changes, so
that a claim about every state is a claim about every block. -/
structure Config where
  /-- N_TS, TS packets per unit (legal: at least 1). -/
  nTs : Nat
  /-- CNT_W, the width in bits of each statistics counter. -/
  cntW : Nat
  /-- PKT_COUNT_MODE. -/
  pktCountMode : PktCountMode
  /-- ARB_GRAN. -/
  arbGran : ArbGran
  /-- N_CONS, the number of consumer agents (legal: at least 1). -/
  nCons : Nat
  deriving DecidableEq, Repr

/-- TS_PKT (R6): bytes in one TS packet. -/
def Config.tsPkt : Nat := 188

/-- RTP_HDR (R6): bytes in the fixed RTP header. -/
def Config.rtpHdr : Nat := 12

/-- NULL_PID (R6, R84). PRESUMED by the spec itself (general knowledge, 93 item G2); log entry 15. -/
def Config.nullPid : Pid := 0x1FFF#13

/-- CT_SIZE (R6): entries of the ContinuityTable, 2 to the power PID_BITS. -/
def Config.ctSize : Nat := 8192

/-- U (R6): the unit size in bytes, `TS_PKT * N_TS`. -/
def Config.unitSize (cfg : Config) : Nat := Config.tsPkt * cfg.nTs

/-- L_RTP (R6): the length of an RTP-framed datagram, `U + RTP_HDR`. -/
def Config.lRtp (cfg : Config) : Nat := cfg.unitSize + Config.rtpHdr

/-- The modulus of the statistics counters, `2^CNT_W` (R9 `inc`). -/
def Config.cntMod (cfg : Config) : Nat := 2 ^ cfg.cntW

/-- The legal parameter values: N_TS and N_CONS at least 1 (R6). R6 gives CNT_W no range. That it is at most 64 is
DEDUCED, because GETSTATS widens a counter to 64 bits (R76); that it is at least 1 is a DESIGN CHOICE. Log entry 3. -/
abbrev Config.wf (cfg : Config) : Prop :=
  1 ≤ cfg.nTs ∧ 1 ≤ cfg.cntW ∧ cfg.cntW ≤ 64 ∧ 1 ≤ cfg.nCons

/-- Free: how many consumers there are beside the first. R6 and D31 leave N_CONS open ("any N_CONS ≥ 1"). Log entry 3. -/
opaque Config.otherConsumers : Nat

/-- The parameter values of this spec (R6): N_TS = 7, CNT_W = 32, PER_UNIT, MICRO, and N_CONS any number ≥ 1. -/
def Config.spec : Config where
  nTs := 7
  cntW := 32
  pktCountMode := .perUnit
  arbGran := .micro
  nCons := Config.otherConsumers + 1

/-- Free: the byte a BREAD outside the returned span gives (R52 `draw()`), for the n-th draw. That it depends
on nothing but n is a DESIGN CHOICE. Log entry 5. -/
opaque Config.freeByte : Nat → Byte

/-- Free: RX_KIND after OPEN (R38 "unspecified"), for the n-th draw; true stands for RTP. Log entry 6. -/
opaque Config.freeKind : Nat → Bool

/-- Free: RX_SEQ after OPEN (R38 "unspecified"), for the n-th draw. Log entry 6. -/
opaque Config.freeSeq : Nat → SeqNo

/-- Free: byte k of RX_UNIT after OPEN (R38 "unspecified"), for the n-th draw. Log entry 6. -/
opaque Config.freeUnitByte : Nat → Nat → Byte

/-- Free: RX_IDX after OPEN (R38 "unspecified"), for the n-th draw; OPEN reduces it into `0 .. N_TS` (R35). Log entry 6. -/
opaque Config.freeIdx : Nat → Nat

end Sys2Proof
end

