-- ==== Sys2Proof/Machine/State.lean ====
section
/-! DEFINITION. The state of PARSER-BLOCK (10_state.md S0 to S15), the parties around it as plain data (45_lifecycle.md
R235), and the reasons a step can stop. -/
namespace Sys2Proof.Machine

/-- RXS, the receiver state (R34). -/
inductive Rxs where
  | starting
  | listening
  | terminating
  | stopped
  | dead
  deriving DecidableEq, Repr

/-- PHASE, the next micro-operation while `RXS = LISTENING` (R35). -/
inductive Phase where
  | wait
  | seq
  | cc
  | pktcnt
  | push
  | termchk
  deriving DecidableEq, Repr

/-- RX_KIND, the class of the datagram being processed (R35). -/
inductive RxKind where
  | bare
  | rtp
  deriving DecidableEq, Repr

/-- BUF, the ring's byte store (R28, R50): pairs of byte address and byte, addresses strictly rising. An address that is
not listed holds no byte: nothing has been pushed there since OPEN (R38 "every byte `draw()`"; log entry 4). -/
abbrev Memory := List Host.Cell

/-- The canonical form of BUF: addresses strictly rising. No listed byte can equal what an unlisted address reads as,
since that is no byte at all. -/
abbrev Memory.wf (m : Memory) : Prop := m.Pairwise (fun x y => x.1 < y.1)

/-- CT, the ContinuityTable (R31): pairs of entry number and last-seen counter, entries strictly rising. An entry that
is not listed is unknown. -/
abbrev ContinuityTable := List (Nat × Cc)

/-- The canonical form of CT: entry numbers strictly rising and below 8192 (R31). -/
abbrev ContinuityTable.wf (t : ContinuityTable) : Prop :=
  t.Pairwise (fun x y => x.1 < y.1) ∧ ∀ e ∈ t, e.1 < Config.ctSize

/-- What OPEN creates and CLOSE destroys (R12 *instance*): every state element of 10_state.md but INST. -/
structure Instance where
  /-- S1 C, the physical byte size of the ring (R24). -/
  c : Nat
  /-- S2 HEAD, the next write offset (R25). -/
  head : Nat
  /-- S3 TAIL, the next read offset (R26). -/
  tail : Nat
  /-- S4 PEND, bytes returned to a consumer but not yet released (R27). -/
  pend : Nat
  /-- S5 BUF (R28). -/
  buf : Memory
  /-- S6 CT (R31). -/
  ct : ContinuityTable
  /-- S7 SEQ, the last sequence number; none is "not yet established" (R32). -/
  seq : Option SeqNo
  /-- S8 PKT, packets received (R33). -/
  pkt : Nat
  /-- S9 TERR, transport-flagged errors (R33). -/
  terr : Nat
  /-- S10 NERR, network (sequence) errors (R33). -/
  nerr : Nat
  /-- S11 CERR, continuity errors (R33). -/
  cerr : Nat
  /-- S12 OVF, overflow drops (R33). -/
  ovf : Nat
  /-- S13 RXS (R34). -/
  rxs : Rxs
  /-- S14 PHASE (R35). -/
  phase : Phase
  /-- RX_KIND (R35). -/
  rxKind : RxKind
  /-- RX_SEQ (R35). -/
  rxSeq : SeqNo
  /-- RX_UNIT, U bytes (R35). -/
  rxUnit : List Byte
  /-- RX_IDX, the next TS packet to examine, `0 .. N_TS` (R35). -/
  rxIdx : Nat
  /-- S15 TERM, the terminate flag (R36). -/
  term : Bool
  deriving DecidableEq, Repr

/-- An ingress event (R77). -/
inductive Event where
  /-- `DGRAM(L, d)`. -/
  | dgram (l : BitVec 16) (d : List Byte)
  /-- A hard receive failure. -/
  | rxerr
  /-- A bounded-timeout receive that returned no datagram. -/
  | idle
  deriving DecidableEq, Repr

/-- One choice of the arbiter or of an outside party (R58, R235), held as data so that a claim about every state is a
claim about every order. Log entry 1. -/
inductive Request where
  /-- Consumer c hands over a command word and the arbiter serves it (R200). -/
  | command (c : Nat) (w : Word64)
  /-- The arbiter serves step 2 of consumer c's outstanding CLOSE (R58, R233). -/
  | resume (c : Nat)
  /-- Consumer c reads byte offset a through the buffer read port (R204). -/
  | bread (c : Nat) (a : BitVec 32)
  /-- The environment offers event e at the ingress port (R185). -/
  | offer (e : Event)
  /-- The arbiter serves the receiver engine (R58). -/
  | engine
  deriving DecidableEq, Repr

/-- What a consumer got back, tagged with the consumer (R236). -/
inductive Reply where
  /-- The response words of a command (R74 to R76). -/
  | words (c : Nat) (ws : List Word64)
  /-- The byte of a BREAD (R204). -/
  | byte (c : Nat) (b : Byte)
  deriving DecidableEq, Repr

/-- The state. `inst` is the block's whole state as 10_state.md gives it. `cfg` is the block's parameters. The other
fields are the model's own (log entry 1): what the outside parties and the arbiter do, and the counter of free values. -/
structure State where
  /-- The parameters of R6; no step changes them. -/
  cfg : Config
  /-- S0 INST with S1 to S15: none is CLOSED, when "a model holds none of them" (R21). -/
  inst : Option Instance
  /-- The consumers whose CLOSE has done step 1 on the instance there is and is unanswered (R233's hold). -/
  closing : List Nat
  /-- The consumers whose CLOSE is unanswered and whose instance another CLOSE has closed (R233 corner (d); log entry 7). -/
  overtaken : List Nat
  /-- The event now offered at the ingress port, if any (R77, R185; log entries 1 and 18). -/
  offer : Option Event
  /-- The choices still to be served, next one first (R58). -/
  sched : List Request
  /-- The consumer whose request is being served: the tag a response goes back to (R260). -/
  served : Nat
  /-- The responses delivered so far, latest first (R236). -/
  out : List Reply
  /-- How many free values have been drawn (R9 `draw()`); a drawn value depends on it alone (log entries 5 and 6). -/
  draws : Nat
  deriving DecidableEq, Repr

/-- Why the machine stops with a fault. -/
inductive Fault where
  /-- A receiver micro-operation was executed in a state that does not select it: INST = CLOSED, or another RXS or PHASE
  (R21 "every rule that reads one is not enabled", R170 "The engine has no other step"). Raised by the meanings of the
  engine, datagram and TS rows; `step` never raises it. Safe. -/
  | notEnabled
  /-- CC_CHECK found no packet number RX_IDX in RX_UNIT: RX_IDX is outside `0 .. N_TS - 1` or RX_UNIT is not U bytes,
  which no reachable state has (R35, R81). Raised by CC_CHECK. Safe. -/
  | noPacket
  deriving DecidableEq, Repr

/-- Why the machine gives a step no meaning. -/
inductive Refusal where
  /-- An instruction that has no meaning in this model yet. Raised by no arm. Safe. -/
  | notModelled (mnemonic : String)
  /-- BREAD with `a >= C`, or with INST = CLOSED (R53, R204 `refuse(BREAD_OUT_OF_RANGE)`). Raised by BREAD. Safe. -/
  | breadOutOfRange
  /-- A command word from a consumer whose previous one is unanswered, which "has no move in the model" (R200, R235).
  Raised by the command port. Safe. -/
  | previousUnanswered
  /-- A request from a consumer number that is not below N_CONS: there is no such consumer (R6). Raised by the command
  port and the read port. Safe. -/
  | noSuchConsumer
  /-- A datagram whose bytes are not as many as its length: there is no such event (R77). Raised by the
  ingress port and by CLASSIFY. Safe. -/
  | noSuchEvent
  deriving DecidableEq, Repr

/-- Power-on (R280, R38): INST = CLOSED and nothing else exists; the parameters are this spec's (R6); nothing is offered,
scheduled, outstanding or answered (log entry 2). -/
def State.reset : State where
  cfg := Config.spec
  inst := none
  closing := []
  overtaken := []
  offer := none
  sched := []
  served := 0
  out := []
  draws := 0

end Sys2Proof.Machine
end

