-- ==== Sys2Proof/Machine/Flags.lean ====
section
/-! DEFINITION. The block's only status outputs (R37): the fields of a response (R74 to R76) and the statistics
counters (R9 `inc`, R33). -/
namespace Sys2Proof.Machine

/-- STATUS of a response (R74). -/
inductive Status where
  | ok
  | illegal
  | badState
  | capFail
  deriving DecidableEq, Repr

/-- The encoding of STATUS (R74). -/
def statusCode : Status → BitVec 4
  | .ok => 0#4
  | .illegal => 1#4
  | .badState => 2#4
  | .capFail => 3#4

/-- Response word 0 (R74): STATUS in 3:0, the command's OPC in 7:4, VALID in 8, zeros above. -/
def responseWord (st : Status) (opc : BitVec 4) (valid : Bool) : Word64 :=
  0#55 ++ BitVec.ofBool valid ++ opc ++ statusCode st

/-- Response word 1 of RECV (R75): OFFSET in 31:0, SIZE in 63:32. -/
def spanWord (offset size : Nat) : Word64 := BitVec.ofNat 32 size ++ BitVec.ofNat 32 offset

/-- Response words 1 to 5 of GETSTATS (R76). -/
def statsWords (n : Instance) : List Word64 :=
  [BitVec.ofNat 64 n.pkt, BitVec.ofNat 64 n.terr, BitVec.ofNat 64 n.nerr, BitVec.ofNat 64 n.cerr, BitVec.ofNat 64 n.ovf]

/-- A counter moved on by k events, modulo `2^CNT_W` (R9, R33). -/
def addCount (cfg : Config) (k x : Nat) : Nat := (x + k) % cfg.cntMod

/-- `inc` (R9). -/
def inc (cfg : Config) (x : Nat) : Nat := addCount cfg 1 x

end Sys2Proof.Machine
end

