-- ==== Sys2Proof/Syntax.lean ====
section
/-! DEFINITION. The operations of PARSER-BLOCK: one constructor of `Instr` per row of spec/opcode_table.json. -/
namespace Sys2Proof

/-- The 4-byte TS packet header (R82), field by field, most significant first. -/
structure TsHeader where
  /-- sync byte, `W[31:24]`; not read by the block (R85). -/
  sync : BitVec 8
  /-- transport_error_indicator, `W[23]`. -/
  tei : BitVec 1
  /-- payload_unit_start_indicator, `W[22]`; not read. -/
  pusi : BitVec 1
  /-- transport_priority, `W[21]`; not read. -/
  tp : BitVec 1
  /-- substream identifier, `W[20:8]`. -/
  pid : Pid
  /-- transport_scrambling_control, `W[7:6]`; not read. -/
  tsc : BitVec 2
  /-- adaptation_field_control, `W[5:4]`; not read. -/
  afc : BitVec 2
  /-- continuity_counter, `W[3:0]`. -/
  cc : Cc
  deriving DecidableEq, Repr

/-- The fixed 12-byte RTP header (R79), in the order of its bytes `d[0] .. d[11]`. -/
structure RtpHeader where
  /-- `d[0], d[1]`: flag and type bytes; not read (R80). -/
  flagType : BitVec 16
  /-- `be16(d[2], d[3])`: the sequence number. -/
  seq : SeqNo
  /-- `d[4] .. d[7]`: timestamp; not read. -/
  timestamp : BitVec 32
  /-- `d[8] .. d[11]`: SSRC; not read. -/
  ssrc : BitVec 32
  deriving DecidableEq, Repr

/-- Every operation of spec/opcode_table.json. The command rows carry their operand fields (R71), the ingress rows
the event's length and bytes (R77), the TS rows the packet header (R82), the engine rows the selector bits their
mask leaves free (R91). -/
inductive Instr where
  /-- RECV, `ARG = MAX_SIZE` (R201). -/
  | recv (arg : BitVec 32)
  /-- FLUSH (R202). -/
  | flush
  /-- GETSTATS (R203). -/
  | getstats
  /-- OPEN, `ARG = CAP` (R230). -/
  | openCmd (arg : BitVec 32)
  /-- CLOSE (R233). -/
  | close
  /-- Reserved opcodes (R72, R205, R207), with the word's RSV and ARG fields. -/
  | illegalOpc0 (rsv : BitVec 28) (arg : BitVec 32)
  | illegalOpc4 (rsv : BitVec 28) (arg : BitVec 32)
  | illegalOpc5 (rsv : BitVec 28) (arg : BitVec 32)
  | illegalOpc6 (rsv : BitVec 28) (arg : BitVec 32)
  | illegalOpc7 (rsv : BitVec 28) (arg : BitVec 32)
  | illegalOpcA (rsv : BitVec 28) (arg : BitVec 32)
  | illegalOpcB (rsv : BitVec 28) (arg : BitVec 32)
  | illegalOpcC (rsv : BitVec 28) (arg : BitVec 32)
  | illegalOpcD (rsv : BitVec 28) (arg : BitVec 32)
  | illegalOpcE (rsv : BitVec 28) (arg : BitVec 32)
  | illegalOpcF (rsv : BitVec 28) (arg : BitVec 32)
  /-- A word of a defined opcode with RSV ≠ 0, or with ARG ≠ 0 where ARG must be 0 (R73). -/
  | illegalRsv (opc : BitVec 4) (rsv : BitVec 28) (arg : BitVec 32)
  /-- BREAD of byte offset a (R204). -/
  | bread (a : BitVec 32)
  /-- DGRAM with L = 0 (R178). -/
  | dgFatalL0
  /-- RXERR (R178), with the descriptor's L bits, which the row does not match on. -/
  | dgFatalRxerr (l : BitVec 16)
  /-- IDLE (R173), with the descriptor's L bits, which the row does not match on. -/
  | idle (l : BitVec 16)
  /-- DGRAM with L = L_RTP: the RTP header and the unit behind it (R175). -/
  | dgRtp (h : RtpHeader) (payload : List Byte)
  /-- DGRAM with L = U: the unit (R176). -/
  | dgBare (payload : List Byte)
  /-- DGRAM of any other positive length (R177). -/
  | dgOther (l : BitVec 16) (d : List Byte)
  /-- CC_CHECK of a packet with `pid = NULL_PID` (R131). -/
  | tsNull (h : TsHeader)
  /-- CC_CHECK of a packet with TEI set (R132). -/
  | tsTei (h : TsHeader)
  /-- CC_CHECK of any other packet (R133 to R136). -/
  | tsData (h : TsHeader)
  /-- START (R171), selected whatever PHASE holds. -/
  | start (phase : BitVec 3)
  /-- CLASSIFY (R174). -/
  | classify
  /-- SEQ_CHECK (R150). -/
  | seqCheck
  /-- CC_CHECK (R130). -/
  | ccCheck
  /-- PKT_COUNT (R180). -/
  | pktCount
  /-- PUSH (R101). -/
  | push
  /-- TERM_CHECK (R181). -/
  | termCheck
  /-- EXIT (R182), selected whatever PHASE holds. -/
  | exit (phase : BitVec 3)
  deriving DecidableEq, Repr

/-- An encoded object (R70, R91): what a port hands over, in the formats of spec/opcode_table.json. -/
inductive Frame where
  /-- A command word (CMD64, R71). -/
  | cmd64 (w : Word64)
  /-- A request on the buffer read port (BREAD32, R204). -/
  | bread32 (a : BitVec 32)
  /-- An ingress descriptor (INGRESS18, R91) with the datagram bytes that come with it (R77). -/
  | ingress18 (w : BitVec 18) (d : List Byte)
  /-- A TS packet header value W (TSHDR32, R82). -/
  | tshdr32 (w : BitVec 32)
  /-- An engine-step selector (STEP6, R91). -/
  | step6 (w : BitVec 6)
  deriving DecidableEq, Repr

end Sys2Proof
end

