-- ==== Sys2Proof/WellFormed.lean ====
section
/-! DEFINITION. Which operations are well formed: the conditions the rows' priorities put on their operands. -/
namespace Sys2Proof

/-- The opcodes that R72 defines: RECV, FLUSH, GETSTATS, OPEN, CLOSE. -/
def definedOpc (opc : BitVec 4) : Bool :=
  opc == 0x1#4 || opc == 0x2#4 || opc == 0x3#4 || opc == 0x8#4 || opc == 0x9#4

/-- The opcodes whose ARG must be 0 (R72, R73): FLUSH, GETSTATS, CLOSE. -/
def argMustBeZero (opc : BitVec 4) : Bool :=
  opc == 0x2#4 || opc == 0x3#4 || opc == 0x9#4

/-- The operands an operation may carry, given the block's parameters: a row of lower priority never holds what a
row above it matches (R73, R78, R86), and a datagram's length is that of its class (R78). -/
def Instr.wf (cfg : Config) : Instr → Bool
  | .illegalRsv opc rsv arg => definedOpc opc && (rsv != 0#28 || (argMustBeZero opc && arg != 0#32))
  | .dgRtp _ payload => payload.length == cfg.unitSize && decide (cfg.lRtp < 2 ^ 16)
  | .dgBare payload => payload.length == cfg.unitSize && decide (cfg.unitSize < 2 ^ 16) && decide (0 < cfg.unitSize)
  | .dgOther l d =>
    d.length == l.toNat && l != 0#16 && l.toNat != cfg.unitSize && l.toNat != cfg.lRtp
  | .tsNull h => h.pid == Config.nullPid
  | .tsTei h => h.pid != Config.nullPid && h.tei == 1#1
  | .tsData h => h.pid != Config.nullPid && h.tei == 0#1
  | .recv _ | .flush | .getstats | .openCmd _ | .close => true
  | .illegalOpc0 _ _ | .illegalOpc4 _ _ | .illegalOpc5 _ _ | .illegalOpc6 _ _ | .illegalOpc7 _ _ => true
  | .illegalOpcA _ _ | .illegalOpcB _ _ | .illegalOpcC _ _ | .illegalOpcD _ _ | .illegalOpcE _ _ => true
  | .illegalOpcF _ _ | .bread _ | .dgFatalL0 | .dgFatalRxerr _ | .idle _ => true
  | .start _ | .classify | .seqCheck | .ccCheck | .pktCount | .push | .termCheck | .exit _ => true

end Sys2Proof
end

