-- ==== Sys2Proof/Decode.lean ====
section
/-! DEFINITION. The decoder (total on every frame, rejecting by name), the encoder beside it, and the reading of the
opcode table's words. -/
namespace Sys2Proof

/-- Why a frame is no operation. -/
inductive DecodeError where
  /-- Ingress KIND 3, "never used" (R91). -/
  | ingressKindUnused
  /-- The datagram's bytes are not as many as its length L (R77); no such event exists. -/
  | datagramLengthMismatch
  /-- An RXERR or IDLE event that carries bytes (R77); no such event exists. -/
  | dataWithoutDatagram
  /-- `RXS = STOPPED`: the engine has no step (R170). -/
  | engineStopped
  /-- `RXS = DEAD`: the engine has no step (R170). -/
  | engineDead
  /-- RXS 5 to 7, never reached (R34). -/
  | rxsNeverReached
  /-- `RXS = LISTENING` with PHASE 6 or 7, never reached (R35). -/
  | phaseNeverReached
  deriving DecidableEq, Repr

/-! ### Field helpers -/

/-- Two bytes as a 16-bit value, most significant byte first (R8 `be16`, R79). -/
def be16 (x y : Byte) : BitVec 16 := x ++ y

/-- Four bytes as a 32-bit value, most significant byte first (R79, R82). -/
def be32 (a b c d : Byte) : BitVec 32 := a ++ b ++ c ++ d

/-- The bytes of a 16-bit value, most significant first. -/
def bytes16 (v : BitVec 16) : List Byte := [v.extractLsb' 8 8, v.extractLsb' 0 8]

/-- The bytes of a 32-bit value, most significant first. -/
def bytes32 (v : BitVec 32) : List Byte :=
  [v.extractLsb' 24 8, v.extractLsb' 16 8, v.extractLsb' 8 8, v.extractLsb' 0 8]

/-- Whether a list has exactly n elements, told without computing its length. -/
def lengthIs {α : Type} : List α → Nat → Bool
  | [], 0 => true
  | _ :: xs, n + 1 => lengthIs xs n
  | [], _ + 1 => false
  | _ :: _, 0 => false

/-- The fields of a TS header value W (R82, R83). -/
def TsHeader.ofWord (w : BitVec 32) : TsHeader where
  sync := w.extractLsb' 24 8
  tei := w.extractLsb' 23 1
  pusi := w.extractLsb' 22 1
  tp := w.extractLsb' 21 1
  pid := w.extractLsb' 8 13
  tsc := w.extractLsb' 6 2
  afc := w.extractLsb' 4 2
  cc := w.extractLsb' 0 4

/-- The header value W of its fields (R82). -/
def TsHeader.toWord (h : TsHeader) : BitVec 32 :=
  h.sync ++ h.tei ++ h.pusi ++ h.tp ++ h.pid ++ h.tsc ++ h.afc ++ h.cc

/-- The fields of the RTP header in `d[0] .. d[11]` (R79). A list shorter than 12 bytes has no header. -/
def RtpHeader.ofBytes : List Byte → Option RtpHeader
  | d0 :: d1 :: d2 :: d3 :: d4 :: d5 :: d6 :: d7 :: d8 :: d9 :: d10 :: d11 :: _ =>
    some { flagType := be16 d0 d1, seq := be16 d2 d3, timestamp := be32 d4 d5 d6 d7, ssrc := be32 d8 d9 d10 d11 }
  | _ => none

/-- The 12 header bytes of its fields (R79). -/
def RtpHeader.toBytes (h : RtpHeader) : List Byte :=
  bytes16 h.flagType ++ bytes16 h.seq ++ bytes32 h.timestamp ++ bytes32 h.ssrc

/-- The classes of R86. -/
inductive TsClass where
  | null
  | tei
  | data
  deriving DecidableEq, Repr

/-- The class of a TS packet, tested in the order of R86: the null identifier first. -/
def tsClass (h : TsHeader) : TsClass :=
  if h.pid = Config.nullPid then .null else if h.tei = 1#1 then .tei else .data

/-- The classes of R78. -/
inductive DgClass where
  | fatal
  | rtp
  | bare
  | other
  deriving DecidableEq, Repr

/-- The class of a datagram, by its exact length L and by nothing else (R78, in the order of R91). -/
def dgClass (cfg : Config) (l : Nat) : DgClass :=
  if l = 0 then .fatal else if l = cfg.lRtp then .rtp else if l = cfg.unitSize then .bare else .other

/-! ### Decoding, format by format -/

/-- A command word (R71 to R73): the rows of the opcode table in their order. Every word is a row. -/
def decodeCmd (w : Word64) : Instr :=
  let opc := w.extractLsb' 0 4
  let rsv := w.extractLsb' 4 28
  let arg := w.extractLsb' 32 32
  if opc = 0x0#4 then .illegalOpc0 rsv arg
  else if opc = 0x4#4 then .illegalOpc4 rsv arg
  else if opc = 0x5#4 then .illegalOpc5 rsv arg
  else if opc = 0x6#4 then .illegalOpc6 rsv arg
  else if opc = 0x7#4 then .illegalOpc7 rsv arg
  else if opc = 0xA#4 then .illegalOpcA rsv arg
  else if opc = 0xB#4 then .illegalOpcB rsv arg
  else if opc = 0xC#4 then .illegalOpcC rsv arg
  else if opc = 0xD#4 then .illegalOpcD rsv arg
  else if opc = 0xE#4 then .illegalOpcE rsv arg
  else if opc = 0xF#4 then .illegalOpcF rsv arg
  else if rsv ≠ 0#28 then .illegalRsv opc rsv arg
  else if opc = 0x1#4 then .recv arg
  else if opc = 0x8#4 then .openCmd arg
  else if arg ≠ 0#32 then .illegalRsv opc rsv arg
  else if opc = 0x2#4 then .flush
  else if opc = 0x3#4 then .getstats
  else .close

/-- A TS packet header value (R82, R86). Every header is a row. -/
def decodeTs (w : BitVec 32) : Instr :=
  let h := TsHeader.ofWord w
  match tsClass h with
  | .null => .tsNull h
  | .tei => .tsTei h
  | .data => .tsData h

/-- An ingress event: the descriptor of R91 and the bytes that come with it (R77, R78, R79). -/
def decodeIngress (cfg : Config) (w : BitVec 18) (d : List Byte) : Except DecodeError Instr :=
  let kind := w.extractLsb' 16 2
  let l := w.extractLsb' 0 16
  if kind = 0#2 then
    if lengthIs d l.toNat then
      match dgClass cfg l.toNat with
      | .fatal => .ok .dgFatalL0
      | .rtp =>
        match RtpHeader.ofBytes d with
        | some h => .ok (.dgRtp h (d.drop Config.rtpHdr))
        | none => .error .datagramLengthMismatch
      | .bare => .ok (.dgBare d)
      | .other => .ok (.dgOther l d)
    else .error .datagramLengthMismatch
  else if kind = 1#2 then
    if d.isEmpty then .ok (.dgFatalRxerr l) else .error .dataWithoutDatagram
  else if kind = 2#2 then
    if d.isEmpty then .ok (.idle l) else .error .dataWithoutDatagram
  else .error .ingressKindUnused

/-- An engine-step selector (R91): bits 5:3 are RXS, bits 2:0 are PHASE. -/
def decodeStep (w : BitVec 6) : Except DecodeError Instr :=
  let rxs := w.extractLsb' 3 3
  let phase := w.extractLsb' 0 3
  if rxs = 0#3 then .ok (.start phase)
  else if rxs = 1#3 then
    if phase = 0#3 then .ok .classify
    else if phase = 1#3 then .ok .seqCheck
    else if phase = 2#3 then .ok .ccCheck
    else if phase = 3#3 then .ok .pktCount
    else if phase = 4#3 then .ok .push
    else if phase = 5#3 then .ok .termCheck
    else .error .phaseNeverReached
  else if rxs = 2#3 then .ok (.exit phase)
  else if rxs = 3#3 then .error .engineStopped
  else if rxs = 4#3 then .error .engineDead
  else .error .rxsNeverReached

/-- The decoder: total on every frame. -/
def decode (cfg : Config) : Frame → Except DecodeError Instr
  | .cmd64 w => .ok (decodeCmd w)
  | .bread32 a => .ok (.bread a)
  | .ingress18 w d => decodeIngress cfg w d
  | .tshdr32 w => .ok (decodeTs w)
  | .step6 w => decodeStep w

/-! ### Encoding, from the same tables -/

/-- The command word of its fields (R71). -/
def cmdWord (opc : BitVec 4) (rsv : BitVec 28) (arg : BitVec 32) : Word64 := arg ++ rsv ++ opc

/-- The ingress descriptor of its fields (R91). -/
def ingressWord (kind : BitVec 2) (l : BitVec 16) : BitVec 18 := kind ++ l

/-- The engine-step selector of its fields (R91). -/
def stepWord (rxs phase : BitVec 3) : BitVec 6 := rxs ++ phase

/-- The frame of a well-formed operation. -/
def encode : Instr → Frame
  | .recv arg => .cmd64 (cmdWord 0x1#4 0#28 arg)
  | .flush => .cmd64 (cmdWord 0x2#4 0#28 0#32)
  | .getstats => .cmd64 (cmdWord 0x3#4 0#28 0#32)
  | .openCmd arg => .cmd64 (cmdWord 0x8#4 0#28 arg)
  | .close => .cmd64 (cmdWord 0x9#4 0#28 0#32)
  | .illegalOpc0 rsv arg => .cmd64 (cmdWord 0x0#4 rsv arg)
  | .illegalOpc4 rsv arg => .cmd64 (cmdWord 0x4#4 rsv arg)
  | .illegalOpc5 rsv arg => .cmd64 (cmdWord 0x5#4 rsv arg)
  | .illegalOpc6 rsv arg => .cmd64 (cmdWord 0x6#4 rsv arg)
  | .illegalOpc7 rsv arg => .cmd64 (cmdWord 0x7#4 rsv arg)
  | .illegalOpcA rsv arg => .cmd64 (cmdWord 0xA#4 rsv arg)
  | .illegalOpcB rsv arg => .cmd64 (cmdWord 0xB#4 rsv arg)
  | .illegalOpcC rsv arg => .cmd64 (cmdWord 0xC#4 rsv arg)
  | .illegalOpcD rsv arg => .cmd64 (cmdWord 0xD#4 rsv arg)
  | .illegalOpcE rsv arg => .cmd64 (cmdWord 0xE#4 rsv arg)
  | .illegalOpcF rsv arg => .cmd64 (cmdWord 0xF#4 rsv arg)
  | .illegalRsv opc rsv arg => .cmd64 (cmdWord opc rsv arg)
  | .bread a => .bread32 a
  | .dgFatalL0 => .ingress18 (ingressWord 0#2 0#16) []
  | .dgFatalRxerr l => .ingress18 (ingressWord 1#2 l) []
  | .idle l => .ingress18 (ingressWord 2#2 l) []
  | .dgRtp h payload =>
    .ingress18 (ingressWord 0#2 (BitVec.ofNat 16 (payload.length + Config.rtpHdr))) (h.toBytes ++ payload)
  | .dgBare payload => .ingress18 (ingressWord 0#2 (BitVec.ofNat 16 payload.length)) payload
  | .dgOther l d => .ingress18 (ingressWord 0#2 l) d
  | .tsNull h => .tshdr32 h.toWord
  | .tsTei h => .tshdr32 h.toWord
  | .tsData h => .tshdr32 h.toWord
  | .start phase => .step6 (stepWord 0#3 phase)
  | .classify => .step6 (stepWord 1#3 0#3)
  | .seqCheck => .step6 (stepWord 1#3 1#3)
  | .ccCheck => .step6 (stepWord 1#3 2#3)
  | .pktCount => .step6 (stepWord 1#3 3#3)
  | .push => .step6 (stepWord 1#3 4#3)
  | .termCheck => .step6 (stepWord 1#3 5#3)
  | .exit phase => .step6 (stepWord 2#3 phase)

/-! ### The opcode table's words -/

/-- The frame a word of spec/opcode_table.json stands for, told from its width in whole bytes, every bit above the
width 0 and the datagram bytes 0. The table's formats are 64 bits (CMD64), 32 (BREAD32, TSHDR32), 18 (INGRESS18) and
6 (STEP6); a row whose fixed bits end lower may be given by a shorter word, so a width can stand for two formats.
DESIGN CHOICE (log entry 13), by width: 64 is a command word. 32 is a command word if it is one of a defined opcode
with RSV = 0, else a header whose null identifier or TEI bit is set, else a BREAD offset. 24 is an ingress
descriptor if it fits 18 bits and KIND is used, else a TS header. 8 is an engine selector if the block can have it
(R170: RXS = STARTING only with PHASE = WAIT), else a command word. -/
def tableFrame (nbits w : Nat) : Frame :=
  let cmd := Frame.cmd64 (BitVec.ofNat 64 w)
  let ts := Frame.tshdr32 (BitVec.ofNat 32 w)
  let step := Frame.step6 (BitVec.ofNat 6 w)
  if nbits ≤ 8 then
    if w = 0 ∨ (8 ≤ w ∧ w ≤ 13) ∨ (16 ≤ w ∧ w ≤ 23) then step else cmd
  else if nbits ≤ 24 then
    if w < 0x30000 then .ingress18 (BitVec.ofNat 18 w) (List.replicate (if w < 0x10000 then w else 0) 0#8) else ts
  else if nbits ≤ 32 then
    if definedOpc (BitVec.ofNat 4 w) ∧ w < 16 then cmd
    else if tsClass (TsHeader.ofWord (BitVec.ofNat 32 w)) = .data then .bread32 (BitVec.ofNat 32 w)
    else ts
  else cmd

/-- The operation the decoder reads from a word of spec/opcode_table.json, at this spec's parameter values. -/
def decodeTableWord (nbits w : Nat) : Option Instr :=
  match decode Config.spec (tableFrame nbits w) with
  | .ok i => some i
  | .error _ => none

end Sys2Proof
end

