-- ==== Sys2Proof/Machine/Operands.lean ====
section
/-! DEFINITION. Operand forms: what a command's ARG, a datagram, an engine selector and a packet header stand for
(30_encoding.md R79 to R91). -/
namespace Sys2Proof.Machine

/-- The RECV request rounded down to a whole unit, `floor(MAX_SIZE / U) * U` (R88). -/
def wholeUnits (cfg : Config) (maxLen : Nat) : Nat := maxLen / cfg.unitSize * cfg.unitSize

/-- A legal capacity: a multiple of U with `CAP + U <= 2^32` (R231). -/
abbrev capLegal (cfg : Config) (cap : Nat) : Prop :=
  cap % cfg.unitSize = 0 ∧ cap + cfg.unitSize ≤ 2 ^ 32

/-- The header value W of TS packet i of a unit (R81, R82); none where the unit has no such packet. -/
def tsWordAt (unit : List Byte) (i : Nat) : Option (BitVec 32) :=
  match unit.drop (Config.tsPkt * i) with
  | h0 :: h1 :: h2 :: h3 :: _ => some (be32 h0 h1 h2 h3)
  | _ => none

/-- The encoding of RXS (R34). -/
def rxsCode : Rxs → BitVec 3
  | .starting => 0#3
  | .listening => 1#3
  | .terminating => 2#3
  | .stopped => 3#3
  | .dead => 4#3

/-- The encoding of PHASE (R35). -/
def phaseCode : Phase → BitVec 3
  | .wait => 0#3
  | .seq => 1#3
  | .cc => 2#3
  | .pktcnt => 3#3
  | .push => 4#3
  | .termchk => 5#3

/-- The RXS of an encoding (R34); 5 to 7 are none. -/
def rxsOf (w : BitVec 3) : Option Rxs :=
  if w = 0#3 then some .starting
  else if w = 1#3 then some .listening
  else if w = 2#3 then some .terminating
  else if w = 3#3 then some .stopped
  else if w = 4#3 then some .dead
  else none

/-- The PHASE of an encoding (R35); 6 and 7 are none. -/
def phaseOf (w : BitVec 3) : Option Phase :=
  if w = 0#3 then some .wait
  else if w = 1#3 then some .seq
  else if w = 2#3 then some .cc
  else if w = 3#3 then some .pktcnt
  else if w = 4#3 then some .push
  else if w = 5#3 then some .termchk
  else none

/-- The engine-step selector an instance shows (R91). -/
def stepSelector (n : Instance) : BitVec 6 := stepWord (rxsCode n.rxs) (phaseCode n.phase)

/-- The frame of an ingress event (R77, R91). -/
def eventFrame : Event → Frame
  | .dgram l d => .ingress18 (ingressWord 0#2 l) d
  | .rxerr => .ingress18 (ingressWord 1#2 0#16) []
  | .idle => .ingress18 (ingressWord 2#2 0#16) []

/-- The events there are: a datagram of length L has L bytes (R77). -/
def eventWf : Event → Bool
  | .dgram l d => lengthIs d l.toNat
  | .rxerr => true
  | .idle => true

/-- The event of an ingress frame (R77, R91); a frame of the unused KIND is none. -/
def frameEvent (w : BitVec 18) (d : List Byte) : Option Event :=
  let kind := w.extractLsb' 16 2
  if kind = 0#2 then some (.dgram (w.extractLsb' 0 16) d)
  else if kind = 1#2 then some .rxerr
  else if kind = 2#2 then some .idle
  else none

/-- The encoding of a ContinuityTable entry: V in bit 4, the counter in bits 3:0 (R31). The CC bits of an unknown entry,
which the spec says are ignored, are 0: DESIGN CHOICE, log entry 19. -/
def ctEntryCode : Option Cc → BitVec 5
  | none => 0#5
  | some c => 1#1 ++ c

/-- The encoding of SEQ: SV in bit 16, the number in bits 15:0 (R32). The number's bits where SV = 0, to which the spec
gives no value, are 0: DESIGN CHOICE, log entry 19. -/
def seqCode : Option SeqNo → BitVec 17
  | none => 0#17
  | some v => 1#1 ++ v

end Sys2Proof.Machine
end

