-- ==== Sys2Proof/Machine/Ops.lean ====
section
/-! DEFINITION. The named operations over the state: BUF, the ContinuityTable, the ring cursors, answering a command,
running an engine step, creating an instance. The block has no exceptions (R254): every abnormal command is answered by
`answer`, and that is the whole of "taking" one. -/
namespace Sys2Proof.Machine

/-! ### BUF (R50, R55) -/

/-- What an address of BUF that nothing has been pushed to holds: no byte (log entry 4). -/
def memUnlisted : Option Byte := none

/-- The byte BUF holds at address a. -/
def memRead : Memory → Nat → Option Byte
  | [], _ => memUnlisted
  | (k, b) :: rest, a => if k = a then some b else memRead rest a

/-- The cells of a run of bytes from address a on (R51: byte k at `a + k`). -/
def cellsFrom : Nat → List Byte → Memory
  | _, [] => []
  | a, b :: bs => (a, b) :: cellsFrom (a + 1) bs

/-- `MemWrite(a, n, bytes)` (R9), all bytes at once (R55). -/
def memWrite (m : Memory) (a : Nat) (bs : List Byte) : Memory :=
  m.filter (fun x => x.1 < a) ++ cellsFrom a bs ++ m.filter (fun x => a + bs.length ≤ x.1)

/-! ### The ContinuityTable (R31) -/

/-- `CT[p]`: the last-seen counter, or none for unknown. -/
def ctGet : ContinuityTable → Nat → Option Cc
  | [], _ => none
  | (k, c) :: rest, p => if k = p then some c else ctGet rest p

/-- `CT[p] <- c`. -/
def ctSet : ContinuityTable → Nat → Cc → ContinuityTable
  | [], p, c => [(p, c)]
  | (k, d) :: rest, p, c =>
    if p < k then (p, c) :: (k, d) :: rest
    else if p = k then (p, c) :: rest
    else (k, d) :: ctSet rest p c

/-- `CT[p] <- ⊥`. -/
def ctForget (t : ContinuityTable) (p : Nat) : ContinuityTable := t.filter (fun x => x.1 ≠ p)

/-- CT_CLEAR: every entry unknown (R137). -/
def ctClear : ContinuityTable := []

/-! ### The ring cursors (R30, R111) -/

/-- `(x - y) mod m` on integers, never negative (R8, R111). -/
def subMod (x y m : Nat) : Nat := (((x : Int) - (y : Int)) % (m : Int)).toNat

/-- `avail`, the number of live bytes (R30). -/
def Instance.avail (n : Instance) : Nat := subMod n.head n.tail n.c

/-- Whether address a lies in the returned span (R30). -/
def Instance.inSpan (n : Instance) (a : Nat) : Bool := n.tail ≤ a && a < n.tail + n.pend

/-! ### Answering (R74, R200) -/

/-- Deliver response words to the consumer being served (R9 `respond`). -/
def State.respond (s : State) (ws : List Word64) : State := { s with out := .words s.served ws :: s.out }

/-- Answer a command with a STATUS and word 0 only (R74): what every abnormal command gets (R250), and FLUSH, OPEN and
CLOSE on success. -/
def State.answer (s : State) (st : Status) (opc : BitVec 4) : State := s.respond [responseWord st opc false]

/-- Replace the instance. -/
def State.setInst (s : State) (n : Instance) : State := { s with inst := some n }

/-- Destroy the instance: "every element of 10_state.md but INST ceases to exist" (R233). With it goes the event that its
engine did not take (R183; log entry 18), and every CLOSE held on it is overtaken (R233 corner (d); log entry 7). -/
def State.dropInst (s : State) : State :=
  { s with inst := none, offer := none, closing := [], overtaken := s.closing ++ s.overtaken }

/-- Deliver a byte to the consumer being served (R204). -/
def State.respondByte (s : State) (b : Byte) : State := { s with out := .byte s.served b :: s.out }

/-- Count one free value as drawn (R9 `draw()`). -/
def State.countDraw (s : State) : State := { s with draws := s.draws + 1 }

/-- The illegal command word: answered ILLEGAL with the word's OPC, no state change, in every INST (R205). -/
def answerIllegal (opc : BitVec 4) (s : State) : Host.Outcome State Fault Refusal :=
  .next (s.answer .illegal opc)

/-- A command that needs INST = OPEN: BADSTATE in a closed block (R206), else its effect on the instance. -/
def withOpen (opc : BitVec 4) (s : State) (f : Instance → State) : Host.Outcome State Fault Refusal :=
  match s.inst with
  | none => .next (s.answer .badState opc)
  | some n => .next (f n)

/-! ### Engine steps (R170, R179) -/

/-- A receiver micro-operation: its effect on the instance where its selecting condition holds, else no step. -/
def engineStep (s : State) (sel : Instance → Bool) (f : Instance → Instance) : Host.Outcome State Fault Refusal :=
  match s.inst with
  | none => .fault .notEnabled
  | some n => if sel n then .next (s.setInst (f n)) else .fault .notEnabled

/-- The engine is listening and its next micro-operation is p (R91). -/
def Instance.isAt (p : Phase) (n : Instance) : Bool := n.rxs == .listening && n.phase == p

/-! ### Creating an instance (R38, R230) -/

/-- The instance a successful OPEN creates (R38). The in-flight registers are "unspecified": free values of draw k,
which depend on k alone: DESIGN CHOICE, log entry 6. -/
def freshInstance (cfg : Config) (cap k : Nat) : Instance where
  c := cap + cfg.unitSize
  head := 0
  tail := 0
  pend := 0
  buf := []
  ct := ctClear
  seq := none
  pkt := 0
  terr := 0
  nerr := 0
  cerr := 0
  ovf := 0
  rxs := .starting
  phase := .wait
  rxKind := if Config.freeKind k then .rtp else .bare
  rxSeq := Config.freeSeq k
  rxUnit := (List.range cfg.unitSize).map (Config.freeUnitByte k)
  rxIdx := Config.freeIdx k % (cfg.nTs + 1)
  term := false

end Sys2Proof.Machine
end

