-- ==== Sys2Proof/Machine/Ring.lean ====
section
/-! DEFINITION. The ring primitives of 40_ring_buffer.md: PUSH, CONSUME, RING_FLUSH, and the PUSH micro-operation. -/
namespace Sys2Proof.Machine

/-- PUSH on the instance (R101): write one unit at HEAD, or drop it where the new HEAD would meet TAIL. BUF is unchanged
on a drop (R103). -/
def Instance.pushUnit (cfg : Config) (n : Instance) : Instance :=
  let h2 := (n.head + cfg.unitSize) % n.c
  if h2 = n.tail then
    { n with ovf := inc cfg n.ovf, phase := .termchk }
  else
    { n with buf := memWrite n.buf n.head n.rxUnit, head := h2, phase := .termchk }

/-- The lazy advance that begins every CONSUME (R105): TAIL moves past the span, and PEND is 0. -/
def Instance.commit (n : Instance) : Instance := { n with tail := (n.tail + n.pend) % n.c, pend := 0 }

/-- The size of the next span after the commit (R106): whole units, at most the live bytes, at most to the end of BUF. -/
def Instance.spanSize (cfg : Config) (maxLen : Nat) (n : Instance) : Nat :=
  if n.avail = 0 then 0 else min (wholeUnits cfg maxLen) (min n.avail (n.c - n.tail))

/-- CONSUME on the instance (R104, R107): PEND becomes the returned length, 0 for an EMPTY result. The span it returns
is `TAIL, PEND` of the instance it leaves. -/
def Instance.consume (cfg : Config) (maxLen : Nat) (n : Instance) : Instance :=
  let m := n.commit
  { m with pend := m.spanSize cfg maxLen }

/-- RING_FLUSH on the instance (R108). -/
def Instance.ringFlush (n : Instance) : Instance := { n with tail := n.head, pend := 0 }

/-- PUSH (R101). -/
def execPush (s : State) : Host.Outcome State Fault Refusal :=
  engineStep s (Instance.isAt .push) (Instance.pushUnit s.cfg)

end Sys2Proof.Machine
end

