-- ==== Sys2Proof/Machine/Consumer.lean ====
section
/-! DEFINITION. The consumer commands of 44_consumer.md: RECV, FLUSH, GETSTATS, the illegal words, and BREAD. -/
namespace Sys2Proof.Machine

/-- RECV (R201): CONSUME, answered with the span it left pending. An empty result has VALID, OFFSET and SIZE 0 (R75). -/
def execRecv (arg : BitVec 32) (s : State) : Host.Outcome State Fault Refusal :=
  withOpen 0x1#4 s fun n =>
    let m := n.consume s.cfg arg.toNat
    let reply :=
      if m.pend = 0 then [responseWord .ok 0x1#4 false, spanWord 0 0]
      else [responseWord .ok 0x1#4 true, spanWord m.tail m.pend]
    (s.setInst m).respond reply

/-- The quadruple's reset by FLUSH (R202): the ring, CT, SEQ and the five counters, and nothing else. -/
def Instance.flushAll (n : Instance) : Instance :=
  { n.ringFlush with ct := ctClear, seq := none, pkt := 0, terr := 0, nerr := 0, cerr := 0, ovf := 0 }

/-- FLUSH (R202). -/
def execFlush (s : State) : Host.Outcome State Fault Refusal :=
  withOpen 0x2#4 s fun n => (s.setInst n.flushAll).answer .ok 0x2#4

/-- GETSTATS (R203). -/
def execGetstats (s : State) : Host.Outcome State Fault Refusal :=
  withOpen 0x3#4 s fun n => s.respond (responseWord .ok 0x3#4 false :: statsWords n)

/-- Reserved opcode 0x0 (R205). -/
def execIllegalOpc0 (_rsv : BitVec 28) (_arg : BitVec 32) (s : State) : Host.Outcome State Fault Refusal :=
  answerIllegal 0x0#4 s

/-- Reserved opcode 0x4, the would-be GetLocalPort (R205, R207). -/
def execIllegalOpc4 (_rsv : BitVec 28) (_arg : BitVec 32) (s : State) : Host.Outcome State Fault Refusal :=
  answerIllegal 0x4#4 s

/-- Reserved opcode 0x5 (R205). -/
def execIllegalOpc5 (_rsv : BitVec 28) (_arg : BitVec 32) (s : State) : Host.Outcome State Fault Refusal :=
  answerIllegal 0x5#4 s

/-- Reserved opcode 0x6 (R205). -/
def execIllegalOpc6 (_rsv : BitVec 28) (_arg : BitVec 32) (s : State) : Host.Outcome State Fault Refusal :=
  answerIllegal 0x6#4 s

/-- Reserved opcode 0x7 (R205). -/
def execIllegalOpc7 (_rsv : BitVec 28) (_arg : BitVec 32) (s : State) : Host.Outcome State Fault Refusal :=
  answerIllegal 0x7#4 s

/-- Reserved opcode 0xA (R205). -/
def execIllegalOpcA (_rsv : BitVec 28) (_arg : BitVec 32) (s : State) : Host.Outcome State Fault Refusal :=
  answerIllegal 0xA#4 s

/-- Reserved opcode 0xB (R205). -/
def execIllegalOpcB (_rsv : BitVec 28) (_arg : BitVec 32) (s : State) : Host.Outcome State Fault Refusal :=
  answerIllegal 0xB#4 s

/-- Reserved opcode 0xC (R205). -/
def execIllegalOpcC (_rsv : BitVec 28) (_arg : BitVec 32) (s : State) : Host.Outcome State Fault Refusal :=
  answerIllegal 0xC#4 s

/-- Reserved opcode 0xD (R205). -/
def execIllegalOpcD (_rsv : BitVec 28) (_arg : BitVec 32) (s : State) : Host.Outcome State Fault Refusal :=
  answerIllegal 0xD#4 s

/-- Reserved opcode 0xE (R205). -/
def execIllegalOpcE (_rsv : BitVec 28) (_arg : BitVec 32) (s : State) : Host.Outcome State Fault Refusal :=
  answerIllegal 0xE#4 s

/-- Reserved opcode 0xF (R205). -/
def execIllegalOpcF (_rsv : BitVec 28) (_arg : BitVec 32) (s : State) : Host.Outcome State Fault Refusal :=
  answerIllegal 0xF#4 s

/-- A malformed word of a defined opcode (R73, R205). -/
def execIllegalRsv (opc : BitVec 4) (_rsv : BitVec 28) (_arg : BitVec 32) (s : State) :
    Host.Outcome State Fault Refusal :=
  answerIllegal opc s

/-- BREAD (R204, R52, R53): the byte of the returned span, any byte outside it, no meaning out of range. A byte of the
span that nothing has pushed (no reachable state has one) is as free as R38 leaves it. That the free byte depends on the
count of draws alone, so that states with equal counts draw equal bytes, is a DESIGN CHOICE (R9, R52; log entry 5). -/
def execBread (a : BitVec 32) (s : State) : Host.Outcome State Fault Refusal :=
  match s.inst with
  | none => .refused .breadOutOfRange
  | some n =>
    if a.toNat < n.c then
      match (if n.inSpan a.toNat then memRead n.buf a.toNat else none) with
      | some b => .next (s.respondByte b)
      | none => .next (s.respondByte (Config.freeByte s.draws)).countDraw
    else .refused .breadOutOfRange

end Sys2Proof.Machine
end

