-- ==== Sys2Proof/Machine/Continuity.lean ====
section
/-! DEFINITION. The continuity-counter validator of 41_continuity.md: CC_CHECK and the three packet classes. -/
namespace Sys2Proof.Machine

/-- What every CC_CHECK ends with (R130): the next packet, or PKT_COUNT after the last one. -/
def Instance.nextPacket (cfg : Config) (n : Instance) : Instance :=
  { n with rxIdx := n.rxIdx + 1, phase := if n.rxIdx + 1 = cfg.nTs then .pktcnt else .cc }

/-- A transport-error packet (R132): counted, its entry unknown. -/
def Instance.transportError (cfg : Config) (pid : Pid) (n : Instance) : Instance :=
  { n with terr := inc cfg n.terr, ct := ctForget n.ct pid.toNat }

/-- The continuity check of a data packet (R133 to R136). -/
def Instance.checkContinuity (cfg : Config) (pid : Pid) (c : Cc) (n : Instance) : Instance :=
  match ctGet n.ct pid.toNat with
  | none => { n with ct := ctSet n.ct pid.toNat c }
  | some prev =>
    if c = prev + 1#4 then { n with ct := ctSet n.ct pid.toNat c }
    else if c = prev then n
    else { n with cerr := inc cfg n.cerr, ct := ctSet n.ct pid.toNat c }

/-- CC_CHECK of a null packet (R131): "no state, no counting", then the next packet. -/
def execTsNull (_h : TsHeader) (s : State) : Host.Outcome State Fault Refusal :=
  engineStep s (Instance.isAt .cc) (Instance.nextPacket s.cfg)

/-- CC_CHECK of a packet with TEI set (R132). -/
def execTsTei (h : TsHeader) (s : State) : Host.Outcome State Fault Refusal :=
  engineStep s (Instance.isAt .cc) (fun n => (n.transportError s.cfg h.pid).nextPacket s.cfg)

/-- CC_CHECK of a data packet (R133 to R136). -/
def execTsData (h : TsHeader) (s : State) : Host.Outcome State Fault Refusal :=
  engineStep s (Instance.isAt .cc) (fun n => (n.checkContinuity s.cfg h.pid h.cc).nextPacket s.cfg)

/-- CC_CHECK (R130): the packet RX_IDX of RX_UNIT, handled by its class (R86). -/
def execCcCheck (s : State) : Host.Outcome State Fault Refusal :=
  match s.inst with
  | none => .fault .notEnabled
  | some n =>
    if n.isAt .cc then
      match tsWordAt n.rxUnit n.rxIdx with
      | none => .fault .noPacket
      | some w =>
        let h := TsHeader.ofWord w
        match tsClass h with
        | .null => execTsNull h s
        | .tei => execTsTei h s
        | .data => execTsData h s
    else .fault .notEnabled

end Sys2Proof.Machine
end

