-- ==== Sys2Proof/Machine/Lifecycle.lean ====
section
/-! DEFINITION. The lifecycle commands of 45_lifecycle.md: OPEN and CLOSE. -/
namespace Sys2Proof.Machine

/-- OPEN (R230): BADSTATE if open, CAPFAIL for an illegal capacity (R231), else a fresh instance (R38). -/
def execOpen (arg : BitVec 32) (s : State) : Host.Outcome State Fault Refusal :=
  match s.inst with
  | some _ => .next (s.answer .badState 0x8#4)
  | none =>
    if capLegal s.cfg arg.toNat then
      .next (((s.setInst (freshInstance s.cfg arg.toNat s.draws)).countDraw).answer .ok 0x8#4)
    else .next (s.answer .capFail 0x8#4)

/-- The consumer being served has no CLOSE outstanding any more. -/
def State.endClose (s : State) : State :=
  { s with closing := s.closing.filter (· ≠ s.served), overtaken := s.overtaken.filter (· ≠ s.served) }

/-- Step 1 of CLOSE (R233): BADSTATE if closed, else the terminate flag is set and the consumer waits. -/
def closeBegin (s : State) : Host.Outcome State Fault Refusal :=
  match s.inst with
  | none => .next (s.answer .badState 0x9#4)
  | some n => .next { s.setInst { n with term := true } with closing := s.served :: s.closing }

/-- Step 2 of CLOSE whose instance another CLOSE closed first: BADSTATE (R233 corner (d)), also where an OPEN has made a new
instance since (D36: "A second CLOSE reaching step 2 after the first is answered BADSTATE"; log entry 7). -/
def closeOvertaken (s : State) : Host.Outcome State Fault Refusal := .next (s.endClose.answer .badState 0x9#4)

/-- Step 2 of CLOSE (R233, R234): held until the engine is STOPPED or DEAD; then INST is CLOSED and the answer OK. In a
closed block it is overtaken. -/
def closeEnd (s : State) : Host.Outcome State Fault Refusal :=
  match s.inst with
  | none => closeOvertaken s
  | some n =>
    if n.rxs = .stopped ∨ n.rxs = .dead then .next (s.dropInst.endClose.answer .ok 0x9#4)
    else .next s

/-- CLOSE (R233): step 2 for a consumer whose CLOSE is outstanding, else step 1. -/
def execClose (s : State) : Host.Outcome State Fault Refusal :=
  if s.served ∈ s.overtaken then closeOvertaken s else if s.served ∈ s.closing then closeEnd s else closeBegin s

end Sys2Proof.Machine
end

