-- ==== Sys2Proof/Machine/Receiver.lean ====
section
/-! DEFINITION. The receiver engine of 43_receiver.md: START, CLASSIFY with the datagram classes, PKT_COUNT, TERM_CHECK,
EXIT. -/
namespace Sys2Proof.Machine

/-- START (R171): to LISTENING and WAIT, or to TERMINATING if the terminate flag is set. PHASE is not read. -/
def execStart (_phase : BitVec 3) (s : State) : Host.Outcome State Fault Refusal :=
  engineStep s (fun n => n.rxs == .starting)
    (fun n => if n.term then { n with rxs := .terminating } else { n with rxs := .listening, phase := .wait })

/-- CLASSIFY of IDLE (R173): to TERM_CHECK. -/
def execIdle (_l : BitVec 16) (s : State) : Host.Outcome State Fault Refusal :=
  engineStep s (Instance.isAt .wait) (fun n => { n with phase := .termchk })

/-- CLASSIFY of RXERR (R178): the engine is dead. -/
def execDgFatalRxerr (_l : BitVec 16) (s : State) : Host.Outcome State Fault Refusal :=
  engineStep s (Instance.isAt .wait) (fun n => { n with rxs := .dead })

/-- CLASSIFY of a datagram of length 0 (R178): the engine is dead. -/
def execDgFatalL0 (s : State) : Host.Outcome State Fault Refusal :=
  engineStep s (Instance.isAt .wait) (fun n => { n with rxs := .dead })

/-- CLASSIFY of an RTP-framed datagram (R175): keep the sequence number and the unit, not the header. -/
def execDgRtp (h : RtpHeader) (payload : List Byte) (s : State) : Host.Outcome State Fault Refusal :=
  engineStep s (Instance.isAt .wait)
    (fun n => { n with rxKind := .rtp, rxSeq := h.seq, rxUnit := payload, phase := .seq })

/-- CLASSIFY of a bare datagram (R176): the whole datagram is the unit. -/
def execDgBare (payload : List Byte) (s : State) : Host.Outcome State Fault Refusal :=
  engineStep s (Instance.isAt .wait)
    (fun n => { n with rxKind := .bare, rxUnit := payload, rxIdx := 0, phase := .cc })

/-- CLASSIFY of a datagram of any other length (R177): ignored. -/
def execDgOther (_l : BitVec 16) (_d : List Byte) (s : State) : Host.Outcome State Fault Refusal :=
  engineStep s (Instance.isAt .wait) (fun n => { n with phase := .termchk })

/-- The meaning of a datagram, by its length (R174, R78). -/
def classifyDatagram (l : BitVec 16) (d : List Byte) (s : State) : Host.Outcome State Fault Refusal :=
  match dgClass s.cfg l.toNat with
  | .fatal => execDgFatalL0 s
  | .rtp =>
    match RtpHeader.ofBytes d with
    | some h => execDgRtp h (d.drop Config.rtpHdr) s
    | none => .refused .noSuchEvent
  | .bare => execDgBare d s
  | .other => execDgOther l d s

/-- The meaning of an ingress event (R174). -/
def classifyEvent (e : Event) (s : State) : Host.Outcome State Fault Refusal :=
  match e with
  | .idle => execIdle 0#16 s
  | .rxerr => execDgFatalRxerr 0#16 s
  | .dgram l d => classifyDatagram l d s

/-- CLASSIFY (R174): take the event offered at the ingress port. While none is offered the engine waits there (R172). -/
def execClassify (s : State) : Host.Outcome State Fault Refusal :=
  match s.inst with
  | none => .fault .notEnabled
  | some n =>
    if n.isAt .wait then
      match s.offer with
      | none => .next s
      | some e => if eventWf e then classifyEvent e { s with offer := none } else .refused .noSuchEvent
    else .fault .notEnabled

/-- PKT_COUNT on the instance (R180). -/
def Instance.countPacket (cfg : Config) (n : Instance) : Instance :=
  match cfg.pktCountMode with
  | .perUnit => { n with pkt := inc cfg n.pkt, phase := .push }
  | .perTs => { n with pkt := addCount cfg cfg.nTs n.pkt, phase := .push }

/-- PKT_COUNT (R180). -/
def execPktCount (s : State) : Host.Outcome State Fault Refusal :=
  engineStep s (Instance.isAt .pktcnt) (Instance.countPacket s.cfg)

/-- TERM_CHECK (R181): to TERMINATING if the terminate flag is set, else back to WAIT. -/
def execTermCheck (s : State) : Host.Outcome State Fault Refusal :=
  engineStep s (Instance.isAt .termchk)
    (fun n => if n.term then { n with rxs := .terminating } else { n with phase := .wait })

/-- EXIT (R182): the engine stops. PHASE is not read. -/
def execExit (_phase : BitVec 3) (s : State) : Host.Outcome State Fault Refusal :=
  engineStep s (fun n => n.rxs == .terminating) (fun n => { n with rxs := .stopped })

end Sys2Proof.Machine
end

