-- ==== Sys2Proof/Machine/Sequence.lean ====
section
/-! DEFINITION. The RTP sequence tracker of 42_sequence.md. -/
namespace Sys2Proof.Machine

/-- SEQ_CHECK on the instance (R150 to R152): accept the first and the next number; count any other and clear CT. -/
def Instance.checkSeq (cfg : Config) (n : Instance) : Instance :=
  let accepted := { n with seq := some n.rxSeq, rxIdx := 0, phase := .cc }
  match n.seq with
  | none => accepted
  | some last =>
    if n.rxSeq = last + 1#16 then accepted
    else { accepted with nerr := inc cfg n.nerr, ct := ctClear }

/-- SEQ_CHECK (R150). -/
def execSeqCheck (s : State) : Host.Outcome State Fault Refusal :=
  engineStep s (Instance.isAt .seq) (Instance.checkSeq s.cfg)

end Sys2Proof.Machine
end

