-- ==== Sys2Proof/Machine/Dispatch.lean ====
section
/-! DEFINITION. One arm per row of spec/opcode_table.json. -/
namespace Sys2Proof.Machine

-- The operation i in state s.
def exec (i : Instr) (s : State) : Host.Outcome State Fault Refusal :=
  match i with
  | .recv arg => Sys2Proof.Machine.execRecv arg s
  | .flush => Sys2Proof.Machine.execFlush s
  | .getstats => Sys2Proof.Machine.execGetstats s
  | .openCmd arg => Sys2Proof.Machine.execOpen arg s
  | .close => Sys2Proof.Machine.execClose s
  | .illegalOpc0 rsv arg => Sys2Proof.Machine.execIllegalOpc0 rsv arg s
  | .illegalOpc4 rsv arg => Sys2Proof.Machine.execIllegalOpc4 rsv arg s
  | .illegalOpc5 rsv arg => Sys2Proof.Machine.execIllegalOpc5 rsv arg s
  | .illegalOpc6 rsv arg => Sys2Proof.Machine.execIllegalOpc6 rsv arg s
  | .illegalOpc7 rsv arg => Sys2Proof.Machine.execIllegalOpc7 rsv arg s
  | .illegalOpcA rsv arg => Sys2Proof.Machine.execIllegalOpcA rsv arg s
  | .illegalOpcB rsv arg => Sys2Proof.Machine.execIllegalOpcB rsv arg s
  | .illegalOpcC rsv arg => Sys2Proof.Machine.execIllegalOpcC rsv arg s
  | .illegalOpcD rsv arg => Sys2Proof.Machine.execIllegalOpcD rsv arg s
  | .illegalOpcE rsv arg => Sys2Proof.Machine.execIllegalOpcE rsv arg s
  | .illegalOpcF rsv arg => Sys2Proof.Machine.execIllegalOpcF rsv arg s
  | .illegalRsv opc rsv arg => Sys2Proof.Machine.execIllegalRsv opc rsv arg s
  | .bread a => Sys2Proof.Machine.execBread a s
  | .dgFatalL0 => Sys2Proof.Machine.execDgFatalL0 s
  | .dgFatalRxerr l => Sys2Proof.Machine.execDgFatalRxerr l s
  | .idle l => Sys2Proof.Machine.execIdle l s
  | .dgRtp h payload => Sys2Proof.Machine.execDgRtp h payload s
  | .dgBare payload => Sys2Proof.Machine.execDgBare payload s
  | .dgOther l d => Sys2Proof.Machine.execDgOther l d s
  | .tsNull h => Sys2Proof.Machine.execTsNull h s
  | .tsTei h => Sys2Proof.Machine.execTsTei h s
  | .tsData h => Sys2Proof.Machine.execTsData h s
  | .start phase => Sys2Proof.Machine.execStart phase s
  | .classify => Sys2Proof.Machine.execClassify s
  | .seqCheck => Sys2Proof.Machine.execSeqCheck s
  | .ccCheck => Sys2Proof.Machine.execCcCheck s
  | .pktCount => Sys2Proof.Machine.execPktCount s
  | .push => Sys2Proof.Machine.execPush s
  | .termCheck => Sys2Proof.Machine.execTermCheck s
  | .exit phase => Sys2Proof.Machine.execExit phase s

end Sys2Proof.Machine
end

