-- ==== Sys2Proof/Machine/Arbiter.lean ====
section
/-! DEFINITION. The arbiter and the ports (20_memory.md R58 to R60, 44_consumer.md R200, 43_receiver.md R185): how a
request becomes an operation and which operations one step holds. -/
namespace Sys2Proof.Machine

/-- Decode a frame and execute it; a frame that is no operation changes nothing. -/
def runFrame (f : Frame) (s : State) : Host.Outcome State Fault Refusal :=
  match decode s.cfg f with
  | .ok i => exec i s
  | .error _ => .next s

/-- One turn of the engine, one micro-operation (R59 MICRO): the operation its RXS and PHASE select (R91). In a closed
block, or STOPPED or DEAD, the engine has no step and the turn changes nothing (R170, R183). -/
def engineTurn (s : State) : Host.Outcome State Fault Refusal :=
  match s.inst with
  | none => .next s
  | some n => runFrame (.step6 (stepSelector n)) s

/-- The engine is inside the processing of an ingress event (R59): between a CLASSIFY and its TERM_CHECK. -/
def State.midUnit (s : State) : Bool :=
  match s.inst with
  | none => false
  | some n => n.rxs == .listening && n.phase != .wait

/-- Engine turns, at most k of them, until the event being processed is finished (R59 UNIT). -/
def engineUnit : Nat → State → Host.Outcome State Fault Refusal
  | 0, s => .next s
  | k + 1, s =>
    match engineTurn s with
    | .next t => if t.midUnit then engineUnit k t else .next t
    | .fault r => .fault r
    | .refused r => .refused r

/-- The engine's next arbitrated operation (R59): one micro-operation under MICRO; under UNIT all those of one ingress
event, of which there are at most `N_TS + 5` (R179). -/
def serveEngine (s : State) : Host.Outcome State Fault Refusal :=
  match s.cfg.arbGran with
  | .micro => engineTurn s
  | .unit => engineUnit (s.cfg.nTs + 5) s

/-- Consumer c has a CLOSE that is unanswered (R200, R233). -/
abbrev State.outstanding (s : State) (c : Nat) : Prop := c ∈ s.closing ∨ c ∈ s.overtaken

/-- An event is offered at the ingress port (R185). In a closed block, or to an engine that is STOPPED or DEAD, it is
never taken and changes nothing (R183; log entry 18). -/
def State.offerEvent (e : Event) (s : State) : State :=
  match s.inst with
  | none => s
  | some n => if n.rxs = .stopped ∨ n.rxs = .dead then s else { s with offer := some e }

/-- Serve one request (R58, R200, R235). -/
def serve (r : Request) (s : State) : Host.Outcome State Fault Refusal :=
  match r with
  | .command c w =>
    if s.cfg.nCons ≤ c then .refused .noSuchConsumer
    else if s.outstanding c then .refused .previousUnanswered
    else runFrame (.cmd64 w) { s with served := c }
  | .resume c => if s.outstanding c then exec .close { s with served := c } else .next s
  | .bread c a =>
    if s.cfg.nCons ≤ c then .refused .noSuchConsumer
    else runFrame (.bread32 a) { s with served := c }
  | .offer e => if eventWf e then .next (s.offerEvent e) else .refused .noSuchEvent
  | .engine => serveEngine s

/-- Serve the next request of the schedule; with none left nothing happens. -/
def serveNext (s : State) : Host.Outcome State Fault Refusal :=
  match s.sched with
  | [] => .next s
  | r :: rest => serve r { s with sched := rest }

/-! ### Presenting a frame to the next step (log entry 13) -/

/-- The open block that an engine, ingress or header frame needs: the one there is, or a fresh one of one unit's
capacity, with the in-flight registers 0 in a fresh one. -/
def instanceFor (s : State) : Instance :=
  match s.inst with
  | some n => n
  | none =>
    { freshInstance s.cfg s.cfg.unitSize s.draws with
      rxKind := .bare, rxSeq := 0#16, rxUnit := List.replicate s.cfg.unitSize 0#8, rxIdx := 0 }

/-- The RXS and PHASE a selector asks for (R91); a code that is never reached leaves its register alone. -/
def placeEngine (w : BitVec 6) (n : Instance) : Instance :=
  { n with
    rxs := (rxsOf (w.extractLsb' 3 3)).getD n.rxs
    phase := (phaseOf (w.extractLsb' 0 3)).getD n.phase }

/-- Place a frame where the next step takes its operation from. A command or a read goes to the head of the schedule as
consumer 0's; an ingress event is offered to an engine that waits; a header becomes the header of packet 0 of RX_UNIT
with CC_CHECK next; a selector sets RXS and PHASE (CLASSIFY takes the event already offered, or one of zeros). -/
def State.present (s : State) (f : Frame) : State :=
  match f with
  | .cmd64 w =>
    { s with
      sched := .command 0 w :: s.sched
      closing := s.closing.filter (· ≠ 0)
      overtaken := s.overtaken.filter (· ≠ 0) }
  | .bread32 a => { s with sched := .bread 0 a :: s.sched }
  | .ingress18 w d =>
    { s with
      inst := some { instanceFor s with rxs := .listening, phase := .wait }
      offer := frameEvent w d
      sched := .engine :: s.sched }
  | .tshdr32 w =>
    let n := instanceFor s
    { s with
      inst := some { n with rxs := .listening, phase := .cc, rxIdx := 0, rxUnit := bytes32 w ++ n.rxUnit.drop 4 }
      sched := .engine :: s.sched }
  | .step6 w =>
    { s with
      inst := some (placeEngine w (instanceFor s))
      offer := if w = stepWord 1#3 0#3 then some (s.offer.getD (.dgram 0#16 [])) else s.offer
      sched := .engine :: s.sched }

end Sys2Proof.Machine
end

