-- ==== Sys2Proof/Machine/Step.lean ====
section
/-! DEFINITION. One step of PARSER-BLOCK: the arbiter serves the next request of the schedule (R58). -/
namespace Sys2Proof.Machine

/-- One step. -/
def step (s : State) : Host.Outcome State Fault Refusal := serveNext s

/-- s with a word of spec/opcode_table.json placed where the next step takes its operation from (log entry 13). -/
def State.withFetchWord (s : State) (nbits w : Nat) : State := s.present (tableFrame nbits w)

end Sys2Proof.Machine
end

