-- ==== Sys2Proof/Safety.lean ====
section
/-! DEFINITION. The terms claims use: the invariant of a reachable state (R29, R31, R33 to R36), what the live region
holds, and which parts of two states agree. -/
namespace Sys2Proof.Machine

/-! ### The invariant -/

/-- What every instance the block can reach satisfies. -/
structure Instance.Inv (cfg : Config) (n : Instance) : Prop where
  /-- R24: C is a multiple of U, `U <= C <= 2^32`. -/
  c_dvd : cfg.unitSize ∣ n.c
  c_ge : cfg.unitSize ≤ n.c
  c_le : n.c ≤ 2 ^ 32
  /-- R29 (i). -/
  head_lt : n.head < n.c
  tail_lt : n.tail < n.c
  /-- R29 (ii). -/
  head_dvd : cfg.unitSize ∣ n.head
  tail_dvd : cfg.unitSize ∣ n.tail
  pend_dvd : cfg.unitSize ∣ n.pend
  /-- R29 (iii). -/
  span_le : n.tail + n.pend ≤ n.c
  /-- R29 (iv). -/
  pend_le : n.pend ≤ n.avail
  /-- R29 (v). -/
  avail_le : n.avail + cfg.unitSize ≤ n.c
  /-- BUF is in its canonical form, inside `0 .. C-1` (R50), and every live byte has been pushed. -/
  buf_wf : Memory.wf n.buf
  buf_lt : ∀ x ∈ n.buf, x.1 < n.c
  live_pushed : ∀ k < n.avail, (memRead n.buf ((n.tail + k) % n.c)).isSome
  /-- CT is in its canonical form (R31), and the null identifier stays unknown. -/
  ct_wf : ContinuityTable.wf n.ct
  ct_null : ctGet n.ct Config.nullPid.toNat = none
  /-- R33: each counter is CNT_W bits. -/
  pkt_lt : n.pkt < cfg.cntMod
  terr_lt : n.terr < cfg.cntMod
  nerr_lt : n.nerr < cfg.cntMod
  cerr_lt : n.cerr < cfg.cntMod
  ovf_lt : n.ovf < cfg.cntMod
  /-- R35: RX_UNIT is U bytes and RX_IDX is in `0 .. N_TS`, below N_TS where CC_CHECK is next. -/
  unit_len : n.rxUnit.length = cfg.unitSize
  idx_le : n.rxIdx ≤ cfg.nTs
  idx_lt : n.rxs = .listening → n.phase = .cc → n.rxIdx < cfg.nTs
  /-- R170: the engine starts with PHASE = WAIT, runs SEQ_CHECK for an RTP datagram only (R153), terminates only with
  TERM = 1, and dies only in WAIT. -/
  starting_wait : n.rxs = .starting → n.phase = .wait
  seq_rtp : n.rxs = .listening → n.phase = .seq → n.rxKind = .rtp
  term_set : n.rxs = .terminating ∨ n.rxs = .stopped → n.term = true
  dead_wait : n.rxs = .dead → n.phase = .wait

/-- What every state of a run satisfies, whatever the outside parties do. -/
structure State.Inv (s : State) : Prop where
  cfg_wf : s.cfg.wf
  /-- A consumer has at most one command outstanding (R200), and there are N_CONS consumers (R6). -/
  outstanding_nodup : (s.closing ++ s.overtaken).Nodup
  outstanding_lt : ∀ c, s.outstanding c → c < s.cfg.nCons
  /-- A CLOSE is held on an instance that is there, and has set its TERM (R233). -/
  closing_term : s.closing ≠ [] → ∃ n, s.inst = some n ∧ n.term = true
  /-- Nothing stands at the port of a closed block (R183; log entry 18). -/
  closed_port : s.inst = none → s.offer = none
  /-- Only events that exist are offered (R77). -/
  offer_wf : ∀ e, s.offer = some e → eventWf e = true
  inst_inv : ∀ n, s.inst = some n → n.Inv s.cfg

/-! ### What the ring holds (R30, R61) -/

/-- The bytes of the live region, oldest first; an address nothing was pushed to holds none. -/
def Instance.liveBytes (n : Instance) : List (Option Byte) :=
  (List.range n.avail).map (fun k => memRead n.buf ((n.tail + k) % n.c))

/-- The bytes of the returned span, in address order. -/
def Instance.spanBytes (n : Instance) : List (Option Byte) :=
  (List.range n.pend).map (fun k => memRead n.buf (n.tail + k))

/-! ### Agreement of two states, part by part -/

/-- The outside parties and the parameters: everything of the state but the block's instance and the responses. -/
structure SameParties (s t : State) : Prop where
  cfg : t.cfg = s.cfg
  closing : t.closing = s.closing
  overtaken : t.overtaken = s.overtaken
  offer : t.offer = s.offer
  sched : t.sched = s.sched
  served : t.served = s.served
  draws : t.draws = s.draws

/-- BUF, byte by byte. -/
abbrev SameBytes (n m : Instance) : Prop := ∀ a, memRead m.buf a = memRead n.buf a

/-- C and the ring cursors. -/
structure SameCursors (n m : Instance) : Prop where
  c : m.c = n.c
  head : m.head = n.head
  tail : m.tail = n.tail
  pend : m.pend = n.pend

/-- The ContinuityTable, entry by entry, but for the entries in `except`. -/
abbrev SameTable (except : List Nat) (n m : Instance) : Prop := ∀ p, p ∉ except → ctGet m.ct p = ctGet n.ct p

/-- The engine's RXS, PHASE and TERM. -/
structure SameControl (n m : Instance) : Prop where
  rxs : m.rxs = n.rxs
  phase : m.phase = n.phase
  term : m.term = n.term

/-- The engine's in-flight registers but PHASE (R35). -/
structure SameInFlight (n m : Instance) : Prop where
  rxKind : m.rxKind = n.rxKind
  rxSeq : m.rxSeq = n.rxSeq
  rxUnit : m.rxUnit = n.rxUnit
  rxIdx : m.rxIdx = n.rxIdx

/-- The five statistics counters. -/
structure SameStats (n m : Instance) : Prop where
  pkt : m.pkt = n.pkt
  terr : m.terr = n.terr
  nerr : m.nerr = n.nerr
  cerr : m.cerr = n.cerr
  ovf : m.ovf = n.ovf

/-! ### Which operations are whose -/

/-- The operation is a step of the receiver engine (R170, R174, R130), not a consumer's command or read. -/
def engineOp : Instr → Bool
  | .recv _ | .flush | .getstats | .openCmd _ | .close | .bread _ => false
  | .illegalOpc0 _ _ | .illegalOpc4 _ _ | .illegalOpc5 _ _ | .illegalOpc6 _ _ | .illegalOpc7 _ _ => false
  | .illegalOpcA _ _ | .illegalOpcB _ _ | .illegalOpcC _ _ | .illegalOpcD _ _ | .illegalOpcE _ _ => false
  | .illegalOpcF _ _ | .illegalRsv _ _ _ => false
  | .dgFatalL0 | .dgFatalRxerr _ | .idle _ | .dgRtp _ _ | .dgBare _ | .dgOther _ _ => true
  | .tsNull _ | .tsTei _ | .tsData _ => true
  | .start _ | .classify | .seqCheck | .ccCheck | .pktCount | .push | .termCheck | .exit _ => true

/-- Executing i in state s checks no data packet of substream p: it is not TS_DATA of one, nor a CC_CHECK that finds
one (R86, R130). -/
def NoDataOf (p : Pid) (i : Instr) (s : State) : Prop :=
  (∀ h, i = .tsData h → h.pid ≠ p) ∧
  (i = .ccCheck → ∀ n w, s.inst = some n → tsWordAt n.rxUnit n.rxIdx = some w →
    tsClass (TsHeader.ofWord w) = .data → (TsHeader.ofWord w).pid ≠ p)

/-- Operations lead from s to t, one after the other, with no data packet of substream p checked. What the outside
parties do between two of them may differ from what either left, so this is every order the arbiter allows. -/
def RunsWithoutDataOf (p : Pid) : List Instr → State → State → Prop
  | [], s, t => t.inst = s.inst ∧ t.cfg = s.cfg
  | i :: is, s, t =>
    NoDataOf p i s ∧ ∃ u v, exec i s = .next u ∧ v.inst = u.inst ∧ v.cfg = u.cfg ∧ RunsWithoutDataOf p is v t

/-! ### Runs of the engine alone -/

/-- k turns of the engine, one micro-operation each, with nothing served between them (R89 *sequential schedule*). -/
def engineTurns : Nat → State → Host.Outcome State Fault Refusal
  | 0, s => .next s
  | k + 1, s =>
    match engineTurn s with
    | .next t => engineTurns k t
    | .fault r => .fault r
    | .refused r => .refused r

/-- PUSHes one after the other with nothing served between them, each with the engine holding the next unit and selecting
PUSH (R109). -/
def pushAll : List (List Byte) → State → Host.Outcome State Fault Refusal
  | [], s => .next s
  | u :: us, s =>
    match s.inst with
    | none => .fault .notEnabled
    | some n =>
      match exec .push (s.setInst { n with rxs := .listening, phase := .push, rxUnit := u }) with
      | .next t => pushAll us t
      | .fault r => .fault r
      | .refused r => .refused r

/-- The byte a BREAD of address a answers (R204). -/
def readByte (s : State) (a : Nat) : Option Byte :=
  match exec (.bread (BitVec.ofNat 32 a)) s with
  | .next t =>
    match t.out with
    | .byte _ b :: _ => some b
    | .words _ _ :: _ => none
    | [] => none
  | .fault _ => none
  | .refused _ => none

/-- What BREADs of the addresses of the returned span answer, in address order. -/
def readSpan (s : State) : List (Option Byte) :=
  match s.inst with
  | none => []
  | some n => (List.range n.pend).map (fun k => readByte s (n.tail + k))

/-- RECVs one after the other with nothing served between them, and what the spans they return hold, each read through
BREAD before the next RECV (R110). -/
def drain : List (BitVec 32) → State → List (Option Byte)
  | [], _ => []
  | a :: rest, s =>
    match exec (.recv a) s with
    | .next t => readSpan t ++ drain rest t
    | .fault _ => []
    | .refused _ => []

end Sys2Proof.Machine
end

