-- ==== Sys2Proof/Certificates/Slice0/Obligations.lean ====
section
/-! DEFINITION. The statements for the provers, in the order of OBLIGATIONS.json. -/

open Sys2Proof Sys2Proof.Machine

/-! ### Encoding -/

/-- A few words written out from the spec's encodings decode to what they stand for (R71, R72, R82, R91). A sanity
statement. -/
def Obligations.KnownWordsDecode : Prop :=
  decode Config.spec (.cmd64 0x0000052400000001#64) = .ok (.recv 1316#32) ∧
  decode Config.spec (.cmd64 0x0000149000000008#64) = .ok (.openCmd 5264#32) ∧
  decode Config.spec (.cmd64 0x0000000000000009#64) = .ok .close ∧
  decode Config.spec (.cmd64 0x0000000100000003#64) = .ok (.illegalRsv 0x3#4 0#28 1#32) ∧
  decode Config.spec (.bread32 0x00000528#32) = .ok (.bread 1320#32) ∧
  decode Config.spec (.ingress18 0x20000#18 []) = .ok (.idle 0#16) ∧
  decode Config.spec (.tshdr32 0x47810017#32) = .ok (.tsTei ⟨0x47#8, 1#1, 0#1, 0#1, 0x100#13, 0#2, 1#2, 7#4⟩) ∧
  decode Config.spec (.step6 0x0C#6) = .ok .push

/-- Decoding an encoded well-formed operation gives it back, for every row of the opcode table, every operand and every
block (R71 to R73, R78, R79, R82, R86, R91). -/
def Obligations.DecodeOfEncode : Prop :=
  ∀ (cfg : Config) (i : Instr), i.wf cfg = true → decode cfg (encode i) = .ok i

/-- Each frame has one meaning: whatever decodes is well formed and encodes to the frame it came from. -/
def Obligations.EncodeOfDecode : Prop :=
  ∀ (cfg : Config) (f : Frame) (i : Instr), decode cfg f = .ok i → i.wf cfg = true ∧ encode i = f

/-- R73: a word is illegal by its bits alone, and then it is answered ILLEGAL with its OPC field and changes no state,
whatever INST is (R205); a word that is not illegal is one of the five commands. -/
def Obligations.IllegalWordsByTheirBits : Prop :=
  ∀ w : Word64,
    let opc := w.toNat % 16
    let rsv := w.toNat / 16 % 2 ^ 28
    let arg := w.toNat / 2 ^ 32
    let illegal := (opc = 0 ∨ 4 ≤ opc ∧ opc ≤ 7 ∨ 10 ≤ opc) ∨ rsv ≠ 0 ∨ ((opc = 2 ∨ opc = 3 ∨ opc = 9) ∧ arg ≠ 0)
    (illegal → ∀ s, exec (decodeCmd w) s =
      .next { s with out := .words s.served [BitVec.ofNat 64 (opc * 16 + 1)] :: s.out }) ∧
    (¬ illegal →
      (opc = 1 ∧ decodeCmd w = .recv (BitVec.ofNat 32 arg)) ∨ (opc = 2 ∧ decodeCmd w = .flush) ∨
      (opc = 3 ∧ decodeCmd w = .getstats) ∨ (opc = 8 ∧ decodeCmd w = .openCmd (BitVec.ofNat 32 arg)) ∨
      (opc = 9 ∧ decodeCmd w = .close))

/-- R91 and the table of R170: RXS and PHASE select the engine's one step; STOPPED and DEAD select none. -/
def Obligations.EngineSelectorsSelect : Prop :=
  ∀ (cfg : Config) (n : Instance),
    decode cfg (.step6 (stepSelector n)) =
      match n.rxs, n.phase with
      | .starting, p => .ok (.start (phaseCode p))
      | .listening, .wait => .ok .classify
      | .listening, .seq => .ok .seqCheck
      | .listening, .cc => .ok .ccCheck
      | .listening, .pktcnt => .ok .pktCount
      | .listening, .push => .ok .push
      | .listening, .termchk => .ok .termCheck
      | .terminating, p => .ok (.exit (phaseCode p))
      | .stopped, _ => .error .engineStopped
      | .dead, _ => .error .engineDead

/-! ### One step -/

/-- A step runs the operation its request decodes to (R58, R200): a consumer's command word or read with that consumer
being served, an outstanding CLOSE that is resumed, and under MICRO the engine's operation, which for a waiting engine
is that of the event offered and for CC_CHECK that of the packet's header. The step takes the request off the schedule
and a taken event off the port; it adds nothing else. The schedule and the port are the model's own (log entry 1). -/
def Obligations.StepRunsTheDecodedOperation : Prop :=
  ∀ (s : State) (rest : List Request) (i : Instr),
    (∀ c w, s.sched = .command c w :: rest → c < s.cfg.nCons → ¬ s.outstanding c → decode s.cfg (.cmd64 w) = .ok i →
      step s = exec i { s with sched := rest, served := c }) ∧
    (∀ c a, s.sched = .bread c a :: rest → c < s.cfg.nCons → decode s.cfg (.bread32 a) = .ok i →
      step s = exec i { s with sched := rest, served := c }) ∧
    (∀ c, s.sched = .resume c :: rest → s.outstanding c → step s = exec .close { s with sched := rest, served := c }) ∧
    (∀ n, s.sched = .engine :: rest → s.cfg.arbGran = .micro → s.inst = some n →
      decode s.cfg (.step6 (stepSelector n)) = .ok i → step s = exec i { s with sched := rest }) ∧
    (∀ n e, s.sched = .engine :: rest → s.cfg.arbGran = .micro → s.inst = some n → n.rxs = .listening →
      n.phase = .wait → s.offer = some e → decode s.cfg (eventFrame e) = .ok i →
      step s = exec i { s with sched := rest, offer := none }) ∧
    (∀ n w, s.sched = .engine :: rest → s.cfg.arbGran = .micro → s.inst = some n → n.rxs = .listening →
      n.phase = .cc → tsWordAt n.rxUnit n.rxIdx = some w → decode s.cfg (.tshdr32 w) = .ok i →
      step s = exec i { s with sched := rest })

/-- R183 and R172: an event offered to an engine that has not ended is only offered; the engine takes it in LISTENING with
PHASE = WAIT alone. A turn of an engine that waits with no event, is STOPPED or DEAD, or does not exist changes nothing,
under either granularity. The schedule and the port are the model's own (log entries 1 and 17). -/
def Obligations.EventsAreTakenInWaitOnly : Prop :=
  ∀ (s : State) (rest : List Request),
    (∀ n e, s.sched = .offer e :: rest → eventWf e = true → s.inst = some n → n.rxs ≠ .stopped → n.rxs ≠ .dead →
      step s = .next { s with sched := rest, offer := some e }) ∧
    (s.sched = .engine :: rest →
      (s.inst = none ∨ (∃ n, s.inst = some n ∧ (n.rxs = .stopped ∨ n.rxs = .dead)) ∨
        (∃ n, s.inst = some n ∧ n.rxs = .listening ∧ n.phase = .wait ∧ s.offer = none)) →
      step s = .next { s with sched := rest }) ∧
    (∀ n t, s.inst = some n → ¬ (n.rxs = .listening ∧ n.phase = .wait) → engineTurn s = .next t → t.offer = s.offer)

/-- R183, R237: an event offered to an engine that is STOPPED or DEAD, or to a closed block, changes nothing; an engine that
has ended takes nothing, however many turns it is given; and what stands at the port when the block closes, or did
before it was opened, is not there for the engine of the next instance. The port is the model's own (log entries 1 and
18). -/
def Obligations.EventsOfferedTooLateAreNeverTaken : Prop :=
  (∀ (s : State) (rest : List Request) (e : Event), s.sched = .offer e :: rest → eventWf e = true →
    (s.inst = none ∨ ∃ n, s.inst = some n ∧ (n.rxs = .stopped ∨ n.rxs = .dead)) →
    step s = .next { s with sched := rest }) ∧
  (∀ (s : State) (n : Instance) (k : Nat), s.inst = some n → n.rxs = .stopped ∨ n.rxs = .dead →
    engineTurns k s = .next s) ∧
  (∀ (s t : State), exec .close s = .next t → s.inst.isSome = true → t.inst = none → t.offer = none) ∧
  (∀ (s t : State) (arg : BitVec 32), s.Inv → s.inst = none → exec (.openCmd arg) s = .next t → t.offer = none)

/-- What no outside party may do has no move (R200, R235, R77): the step refuses it by name. An arbiter that resumes a
consumer with no CLOSE outstanding, or has nothing left to serve, changes nothing. These are the model's choices (log
entries 1 and 12). -/
def Obligations.PortsRefuseWhatHasNoMove : Prop :=
  ∀ (s : State) (rest : List Request),
    (∀ c w, s.sched = .command c w :: rest → s.cfg.nCons ≤ c → step s = .refused .noSuchConsumer) ∧
    (∀ c w, s.sched = .command c w :: rest → c < s.cfg.nCons → s.outstanding c →
      step s = .refused .previousUnanswered) ∧
    (∀ c a, s.sched = .bread c a :: rest → s.cfg.nCons ≤ c → step s = .refused .noSuchConsumer) ∧
    (∀ e, s.sched = .offer e :: rest → eventWf e = false → step s = .refused .noSuchEvent) ∧
    (∀ c, s.sched = .resume c :: rest → ¬ s.outstanding c → step s = .next { s with sched := rest }) ∧
    (s.sched = [] → step s = .next s)

/-- R59: under UNIT one engine operation is a run of single micro-operations with nothing served between them, and where
it begins in WAIT with an event that exists it ends outside the processing of that event. -/
def Obligations.UnitGranularityIsARunOfTurns : Prop :=
  ∀ (s t : State) (rest : List Request), s.cfg.arbGran = .unit → s.sched = .engine :: rest → step s = .next t →
    (∃ k ≤ s.cfg.nTs + 5, engineTurns k { s with sched := rest } = .next t) ∧
    (s.Inv → ∀ n, s.inst = some n → n.phase = .wait → t.midUnit = false)

/-! ### The commands -/

/-- R104 to R107, R201, R75: RECV releases the previous span, then returns and holds the next contiguous one. -/
def Obligations.RecvReturnsTheNextSpan : Prop :=
  ∀ (s : State) (n : Instance) (arg : BitVec 32), s.inst = some n →
    let u := s.cfg.unitSize
    let tail := (n.tail + n.pend) % n.c
    let avail := (((n.head : Int) - (tail : Int)) % (n.c : Int)).toNat
    let size := if avail = 0 then 0 else min (arg.toNat / u * u) (min avail (n.c - tail))
    let reply := if size = 0 then [0x10#64, 0#64] else [0x110#64, BitVec.ofNat 32 size ++ BitVec.ofNat 32 tail]
    exec (.recv arg) s =
      .next { s with inst := some { n with tail := tail, pend := size }, out := .words s.served reply :: s.out }

/-- R202 (with R108, R137): FLUSH empties the ring, forgets every entry and the sequence number, and zeroes the five
counters, as one operation. -/
def Obligations.FlushResetsTheQuadruple : Prop :=
  ∀ (s : State) (n : Instance), s.inst = some n →
    ∃ ct, (∀ p, ctGet ct p = none) ∧
      exec .flush s =
        .next { s with
          inst := some { n with tail := n.head, pend := 0, ct := ct, seq := none, pkt := 0, terr := 0, nerr := 0,
                                cerr := 0, ovf := 0 }
          out := .words s.served [0x20#64] :: s.out }

/-- R203, R76: GETSTATS answers the five counters in the order PKT, TERR, NERR, CERR, OVF and changes no state. -/
def Obligations.GetstatsSnapshotsTheCounters : Prop :=
  ∀ (s : State) (n : Instance), s.inst = some n →
    exec .getstats s =
      .next { s with
        out := .words s.served [0x30#64, BitVec.ofNat 64 n.pkt, BitVec.ofNat 64 n.terr, BitVec.ofNat 64 n.nerr,
                 BitVec.ofNat 64 n.cerr, BitVec.ofNat 64 n.ovf] :: s.out }

/-- R230, R231, R38: OPEN of a legal capacity creates the instance with the values of R38; of an illegal one it answers
CAPFAIL and creates none. BUF and the in-flight registers are unspecified and the statement says nothing of them. -/
def Obligations.OpenCreatesTheInstance : Prop :=
  ∀ (s : State) (arg : BitVec 32), s.inst = none →
    let u := s.cfg.unitSize
    (arg.toNat % u = 0 ∧ arg.toNat + u ≤ 2 ^ 32 →
      ∃ (m : Instance) (k : Nat),
        exec (.openCmd arg) s =
          .next { s with inst := some m, out := .words s.served [0x80#64] :: s.out, draws := k } ∧
        m.c = arg.toNat + u ∧ m.head = 0 ∧ m.tail = 0 ∧ m.pend = 0 ∧
        (∀ p, ctGet m.ct p = none) ∧ m.seq = none ∧ m.pkt = 0 ∧ m.terr = 0 ∧ m.nerr = 0 ∧ m.cerr = 0 ∧ m.ovf = 0 ∧
        m.rxs = .starting ∧ m.phase = .wait ∧ m.term = false) ∧
    (¬ (arg.toNat % u = 0 ∧ arg.toNat + u ≤ 2 ^ 32) →
      exec (.openCmd arg) s = .next { s with out := .words s.served [0x83#64] :: s.out })

/-- R233, R234: CLOSE sets TERM; is held until the engine is STOPPED or DEAD; then destroys the instance and is answered
OK. Its two steps are two operations (R58), so another CLOSE may close first: then every other CLOSE held on the instance
is overtaken, and is answered BADSTATE whatever was opened since (corner (d), D36), which after a reopen is the model's
reading (log entry 7). That closing clears the port is the model's choice (log entry 18). -/
def Obligations.CloseStopsWaitsAndDestroys : Prop :=
  ∀ (s : State),
    (∀ n, s.inst = some n → ¬ s.outstanding s.served →
      exec .close s = .next { s with inst := some { n with term := true }, closing := s.served :: s.closing }) ∧
    (∀ n, s.inst = some n → s.served ∈ s.closing → s.served ∉ s.overtaken → n.rxs ≠ .stopped → n.rxs ≠ .dead →
      exec .close s = .next s) ∧
    (∀ n, s.inst = some n → s.served ∈ s.closing → s.served ∉ s.overtaken → n.rxs = .stopped ∨ n.rxs = .dead →
      exec .close s =
        .next { s with inst := none, offer := none, closing := [],
                       overtaken := (s.closing ++ s.overtaken).filter (· ≠ s.served),
                       out := .words s.served [0x90#64] :: s.out }) ∧
    (s.served ∈ s.overtaken ∨ s.inst = none ∧ s.served ∈ s.closing →
      exec .close s =
        .next { s with closing := s.closing.filter (· ≠ s.served), overtaken := s.overtaken.filter (· ≠ s.served),
                       out := .words s.served [0x92#64] :: s.out })

/-- R206: RECV, FLUSH, GETSTATS and CLOSE with INST = CLOSED, and OPEN with INST = OPEN, are answered BADSTATE and change
no state. -/
def Obligations.OutOfStateCommandsAnswerBadState : Prop :=
  ∀ (s : State),
    (s.inst = none →
      (∀ arg, exec (.recv arg) s = .next { s with out := .words s.served [0x12#64] :: s.out }) ∧
      exec .flush s = .next { s with out := .words s.served [0x22#64] :: s.out } ∧
      exec .getstats s = .next { s with out := .words s.served [0x32#64] :: s.out } ∧
      (¬ s.outstanding s.served → exec .close s = .next { s with out := .words s.served [0x92#64] :: s.out })) ∧
    (∀ n arg, s.inst = some n →
      exec (.openCmd arg) s = .next { s with out := .words s.served [0x82#64] :: s.out })

/-- R205, R207: every reserved opcode and every malformed word of a defined one is answered ILLEGAL with its OPC, in
every INST, and changes no state. -/
def Obligations.ReservedOpcodesAnswerIllegal : Prop :=
  ∀ (s : State) (r : BitVec 28) (a : BitVec 32),
    exec (.illegalOpc0 r a) s = .next { s with out := .words s.served [0x01#64] :: s.out } ∧
    exec (.illegalOpc4 r a) s = .next { s with out := .words s.served [0x41#64] :: s.out } ∧
    exec (.illegalOpc5 r a) s = .next { s with out := .words s.served [0x51#64] :: s.out } ∧
    exec (.illegalOpc6 r a) s = .next { s with out := .words s.served [0x61#64] :: s.out } ∧
    exec (.illegalOpc7 r a) s = .next { s with out := .words s.served [0x71#64] :: s.out } ∧
    exec (.illegalOpcA r a) s = .next { s with out := .words s.served [0xA1#64] :: s.out } ∧
    exec (.illegalOpcB r a) s = .next { s with out := .words s.served [0xB1#64] :: s.out } ∧
    exec (.illegalOpcC r a) s = .next { s with out := .words s.served [0xC1#64] :: s.out } ∧
    exec (.illegalOpcD r a) s = .next { s with out := .words s.served [0xD1#64] :: s.out } ∧
    exec (.illegalOpcE r a) s = .next { s with out := .words s.served [0xE1#64] :: s.out } ∧
    exec (.illegalOpcF r a) s = .next { s with out := .words s.served [0xF1#64] :: s.out } ∧
    (∀ opc, exec (.illegalRsv opc r a) s =
      .next { s with out := .words s.served [BitVec.ofNat 64 (opc.toNat * 16 + 1)] :: s.out })

/-- R52, R53, R204: BREAD answers the byte of the returned span, and some byte for another address below C; it changes
nothing but the model's count of draws; and it is refused at or above C and in a closed block. -/
def Obligations.BreadReadsTheReturnedSpan : Prop :=
  ∀ (s : State) (a : BitVec 32),
    (∀ n b, s.inst = some n → a.toNat < n.c → n.tail ≤ a.toNat → a.toNat < n.tail + n.pend →
      memRead n.buf a.toNat = some b →
      exec (.bread a) s = .next { s with out := .byte s.served b :: s.out }) ∧
    (∀ n, s.inst = some n → a.toNat < n.c → ¬ (n.tail ≤ a.toNat ∧ a.toNat < n.tail + n.pend) →
      ∃ b k, exec (.bread a) s = .next { s with out := .byte s.served b :: s.out, draws := k }) ∧
    (s.inst = none ∨ (∃ n, s.inst = some n ∧ n.c ≤ a.toNat) → exec (.bread a) s = .refused .breadOutOfRange)

/-- R52 over the invariant: inside the returned span every BREAD answers a byte that a PUSH stored, and draws nothing. -/
def Obligations.BreadInsideTheSpanIsStored : Prop :=
  ∀ (s : State) (n : Instance) (a : BitVec 32), s.Inv → s.inst = some n → n.tail ≤ a.toNat →
    a.toNat < n.tail + n.pend →
    ∃ b, memRead n.buf a.toNat = some b ∧ exec (.bread a) s = .next { s with out := .byte s.served b :: s.out }

/-! ### The engine -/

/-- R101, R102, R103: PUSH drops the unit exactly where the new HEAD would equal TAIL, and then counts it and leaves BUF
alone; else it stores the unit byte by byte at HEAD and moves HEAD. That a drop leaves BUF alone is the model's choice (log
entry 9; R103 lets a model write the unit there). -/
def Obligations.PushStoresOrDrops : Prop :=
  ∀ (s : State) (n : Instance), s.inst = some n → n.rxs = .listening → n.phase = .push →
    let h2 := (n.head + s.cfg.unitSize) % n.c
    (h2 = n.tail →
      exec .push s =
        .next { s with inst := some { n with ovf := (n.ovf + 1) % 2 ^ s.cfg.cntW, phase := .termchk } }) ∧
    (h2 ≠ n.tail →
      ∃ buf,
        exec .push s = .next { s with inst := some { n with buf := buf, head := h2, phase := .termchk } } ∧
        (∀ k < n.rxUnit.length, memRead buf (n.head + k) = n.rxUnit[k]?) ∧
        (∀ a, a < n.head ∨ n.head + n.rxUnit.length ≤ a → memRead buf a = memRead n.buf a))

/-- R150 to R152: SEQ_CHECK accepts the first number and the next one modulo 65536; any other counts one network error
and makes every entry of the ContinuityTable unknown; the number is kept in each case. -/
def Obligations.SeqCheckTracksTheSequence : Prop :=
  ∀ (s : State) (n : Instance), s.inst = some n → n.rxs = .listening → n.phase = .seq →
    ((n.seq = none ∨ ∃ last, n.seq = some last ∧ n.rxSeq.toNat = (last.toNat + 1) % 65536) →
      exec .seqCheck s = .next { s with inst := some { n with seq := some n.rxSeq, rxIdx := 0, phase := .cc } }) ∧
    (∀ last, n.seq = some last → n.rxSeq.toNat ≠ (last.toNat + 1) % 65536 →
      ∃ ct, (∀ p, ctGet ct p = none) ∧
        exec .seqCheck s =
          .next { s with inst := some { n with seq := some n.rxSeq, nerr := (n.nerr + 1) % 2 ^ s.cfg.cntW, ct := ct,
                                               rxIdx := 0, phase := .cc } })

/-- R130 to R136, R83, R86: CC_CHECK of the packet RX_IDX, from its header bytes: a null packet is skipped, a TEI packet
is counted and its entry forgotten, a data packet is accepted after unknown, in order or as a duplicate, and else counted
as one error; then the next packet, or PKT_COUNT after the last. -/
def Obligations.CcCheckValidatesThePacket : Prop :=
  ∀ (s : State) (n : Instance) (h0 h1 h2 h3 : Byte), s.inst = some n → n.rxs = .listening → n.phase = .cc →
    n.rxUnit[188 * n.rxIdx]? = some h0 → n.rxUnit[188 * n.rxIdx + 1]? = some h1 →
    n.rxUnit[188 * n.rxIdx + 2]? = some h2 → n.rxUnit[188 * n.rxIdx + 3]? = some h3 →
    let pid := h1.toNat % 32 * 256 + h2.toNat
    let tei := h1.toNat / 128
    let c := BitVec.ofNat 4 (h3.toNat % 16)
    let next := if n.rxIdx + 1 = s.cfg.nTs then Phase.pktcnt else Phase.cc
    (pid = 0x1FFF → exec .ccCheck s = .next { s with inst := some { n with rxIdx := n.rxIdx + 1, phase := next } }) ∧
    (pid ≠ 0x1FFF → tei = 1 →
      ∃ ct, ctGet ct pid = none ∧ (∀ q ≠ pid, ctGet ct q = ctGet n.ct q) ∧
        exec .ccCheck s =
          .next { s with inst := some { n with terr := (n.terr + 1) % 2 ^ s.cfg.cntW, ct := ct, rxIdx := n.rxIdx + 1,
                                               phase := next } }) ∧
    (pid ≠ 0x1FFF → tei = 0 →
      ∃ ct, ctGet ct pid = some c ∧ (∀ q ≠ pid, ctGet ct q = ctGet n.ct q) ∧
        (∀ prev, ctGet n.ct pid = some prev → c.toNat ≠ (prev.toNat + 1) % 16 → c ≠ prev →
          exec .ccCheck s =
            .next { s with inst := some { n with cerr := (n.cerr + 1) % 2 ^ s.cfg.cntW, ct := ct, rxIdx := n.rxIdx + 1,
                                                 phase := next } }) ∧
        ((∀ prev, ctGet n.ct pid = some prev → c.toNat = (prev.toNat + 1) % 16 ∨ c = prev) →
          exec .ccCheck s =
            .next { s with inst := some { n with ct := ct, rxIdx := n.rxIdx + 1, phase := next } }))

/-- R131 to R136: the packet classes, each for a header of its class: what CC_CHECK does with it. -/
def Obligations.PacketClassesValidate : Prop :=
  ∀ (s : State) (n : Instance) (h : TsHeader), s.inst = some n → n.rxs = .listening → n.phase = .cc →
    let next := if n.rxIdx + 1 = s.cfg.nTs then Phase.pktcnt else Phase.cc
    ((Instr.tsNull h).wf s.cfg = true →
      exec (.tsNull h) s = .next { s with inst := some { n with rxIdx := n.rxIdx + 1, phase := next } }) ∧
    ((Instr.tsTei h).wf s.cfg = true →
      ∃ ct, ctGet ct h.pid.toNat = none ∧ (∀ q ≠ h.pid.toNat, ctGet ct q = ctGet n.ct q) ∧
        exec (.tsTei h) s =
          .next { s with inst := some { n with terr := (n.terr + 1) % 2 ^ s.cfg.cntW, ct := ct, rxIdx := n.rxIdx + 1,
                                               phase := next } }) ∧
    ((Instr.tsData h).wf s.cfg = true →
      ∃ ct, ctGet ct h.pid.toNat = some h.cc ∧ (∀ q ≠ h.pid.toNat, ctGet ct q = ctGet n.ct q) ∧
        exec (.tsData h) s =
          .next { s with inst := some { n with
            cerr :=
              match ctGet n.ct h.pid.toNat with
              | none => n.cerr
              | some prev =>
                if h.cc.toNat = (prev.toNat + 1) % 16 ∨ h.cc = prev then n.cerr else (n.cerr + 1) % 2 ^ s.cfg.cntW
            ct := ct, rxIdx := n.rxIdx + 1, phase := next } })

/-- R180: PKT_COUNT counts the unit once under PER_UNIT and N_TS times under PER_TS, modulo `2^CNT_W`. -/
def Obligations.PktCountCountsTheUnit : Prop :=
  ∀ (s : State) (n : Instance), s.inst = some n → n.rxs = .listening → n.phase = .pktcnt →
    (s.cfg.pktCountMode = .perUnit →
      exec .pktCount s = .next { s with inst := some { n with pkt := (n.pkt + 1) % 2 ^ s.cfg.cntW, phase := .push } }) ∧
    (s.cfg.pktCountMode = .perTs →
      exec .pktCount s =
        .next { s with inst := some { n with pkt := (n.pkt + s.cfg.nTs) % 2 ^ s.cfg.cntW, phase := .push } })

/-- R171, R181, R182: START and TERM_CHECK test the terminate flag, and EXIT stops the engine; START and EXIT whatever
PHASE holds. -/
def Obligations.EngineStartsChecksAndExits : Prop :=
  ∀ (s : State) (n : Instance) (p : BitVec 3), s.inst = some n →
    (n.rxs = .starting → n.term = true →
      exec (.start p) s = .next { s with inst := some { n with rxs := .terminating } }) ∧
    (n.rxs = .starting → n.term = false →
      exec (.start p) s = .next { s with inst := some { n with rxs := .listening, phase := .wait } }) ∧
    (n.rxs = .listening → n.phase = .termchk → n.term = true →
      exec .termCheck s = .next { s with inst := some { n with rxs := .terminating } }) ∧
    (n.rxs = .listening → n.phase = .termchk → n.term = false →
      exec .termCheck s = .next { s with inst := some { n with phase := .wait } }) ∧
    (n.rxs = .terminating → exec (.exit p) s = .next { s with inst := some { n with rxs := .stopped } })

/-- R173, R175 to R178: what the engine does with an event of each class. -/
def Obligations.IngressClassesSteerTheEngine : Prop :=
  ∀ (s : State) (n : Instance), s.inst = some n → n.rxs = .listening → n.phase = .wait →
    (∀ l, exec (.idle l) s = .next { s with inst := some { n with phase := .termchk } }) ∧
    (∀ l, exec (.dgFatalRxerr l) s = .next { s with inst := some { n with rxs := .dead } }) ∧
    exec .dgFatalL0 s = .next { s with inst := some { n with rxs := .dead } } ∧
    (∀ h d, exec (.dgRtp h d) s =
      .next { s with inst := some { n with rxKind := .rtp, rxSeq := h.seq, rxUnit := d, phase := .seq } }) ∧
    (∀ d, exec (.dgBare d) s =
      .next { s with inst := some { n with rxKind := .bare, rxUnit := d, rxIdx := 0, phase := .cc } }) ∧
    (∀ l d, exec (.dgOther l d) s = .next { s with inst := some { n with phase := .termchk } })

/-- R174, R77 to R79: CLASSIFY takes the offered event and decides by its exact length alone: 0 kills the engine, L_RTP
keeps the number in `d[2], d[3]` and the U bytes from `d[12]` on, U keeps the whole datagram, any other length is
ignored. With no event offered the engine waits (R172). -/
def Obligations.ClassifyDecidesByLength : Prop :=
  ∀ (s : State) (n : Instance), s.inst = some n → n.rxs = .listening → n.phase = .wait →
    (s.offer = none → exec .classify s = .next s) ∧
    (s.offer = some .idle → exec .classify s = .next { s with offer := none, inst := some { n with phase := .termchk } }) ∧
    (s.offer = some .rxerr → exec .classify s = .next { s with offer := none, inst := some { n with rxs := .dead } }) ∧
    (∀ l d, s.offer = some (.dgram l d) → d.length = l.toNat →
      (l.toNat = 0 → exec .classify s = .next { s with offer := none, inst := some { n with rxs := .dead } }) ∧
      (l.toNat = s.cfg.unitSize + 12 →
        ∃ x y, d[2]? = some x ∧ d[3]? = some y ∧
          exec .classify s =
            .next { s with offer := none,
                           inst := some { n with rxKind := .rtp, rxSeq := BitVec.ofNat 16 (x.toNat * 256 + y.toNat),
                                                 rxUnit := d.drop 12, phase := .seq } }) ∧
      (l.toNat ≠ 0 → l.toNat = s.cfg.unitSize →
        exec .classify s =
          .next { s with offer := none,
                         inst := some { n with rxKind := .bare, rxUnit := d, rxIdx := 0, phase := .cc } }) ∧
      (l.toNat ≠ 0 → l.toNat ≠ s.cfg.unitSize → l.toNat ≠ s.cfg.unitSize + 12 →
        exec .classify s = .next { s with offer := none, inst := some { n with phase := .termchk } }))

/-- R21, R170: in a closed block, or where RXS and PHASE do not select it, an engine operation has no step; the model
names that a fault (log entry 8). -/
def Obligations.EngineStepsOnlyWhereSelected : Prop :=
  ∀ (s : State),
    ((∀ n, s.inst = some n → n.rxs ≠ .starting) → ∀ p, exec (.start p) s = .fault .notEnabled) ∧
    ((∀ n, s.inst = some n → n.rxs ≠ .terminating) → ∀ p, exec (.exit p) s = .fault .notEnabled) ∧
    ((∀ n, s.inst = some n → ¬ (n.rxs = .listening ∧ n.phase = .wait)) →
      ∀ i ∈ ([.classify, .dgFatalL0] : List Instr), exec i s = .fault .notEnabled) ∧
    ((∀ n, s.inst = some n → ¬ (n.rxs = .listening ∧ n.phase = .wait)) → ∀ h d l,
      ∀ i ∈ ([.idle l, .dgFatalRxerr l, .dgRtp h d, .dgBare d, .dgOther l d] : List Instr),
        exec i s = .fault .notEnabled) ∧
    ((∀ n, s.inst = some n → ¬ (n.rxs = .listening ∧ n.phase = .seq)) → exec .seqCheck s = .fault .notEnabled) ∧
    ((∀ n, s.inst = some n → ¬ (n.rxs = .listening ∧ n.phase = .cc)) → ∀ h,
      ∀ i ∈ ([.ccCheck, .tsNull h, .tsTei h, .tsData h] : List Instr), exec i s = .fault .notEnabled) ∧
    ((∀ n, s.inst = some n → ¬ (n.rxs = .listening ∧ n.phase = .pktcnt)) → exec .pktCount s = .fault .notEnabled) ∧
    ((∀ n, s.inst = some n → ¬ (n.rxs = .listening ∧ n.phase = .push)) → exec .push s = .fault .notEnabled) ∧
    ((∀ n, s.inst = some n → ¬ (n.rxs = .listening ∧ n.phase = .termchk)) → exec .termCheck s = .fault .notEnabled)

/-! ### Frames -/

/-- GETSTATS, BREAD and the illegal words change nothing of the block (R203, R204, R205): the instance is as before, and
one response is added. The outside parties are as before but for BREAD's count of draws. -/
def Obligations.ReadersLeaveTheBlockAlone : Prop :=
  ∀ (s t : State) (i : Instr) (r : BitVec 28) (a : BitVec 32) (o : BitVec 4),
    i ∈ ([.getstats, .bread a, .illegalOpc0 r a, .illegalOpc4 r a, .illegalOpc5 r a, .illegalOpc6 r a,
      .illegalOpc7 r a, .illegalOpcA r a, .illegalOpcB r a, .illegalOpcC r a, .illegalOpcD r a, .illegalOpcE r a,
      .illegalOpcF r a, .illegalRsv o r a] : List Instr) →
    exec i s = .next t →
    t.inst = s.inst ∧ (∃ x, t.out = x :: s.out) ∧ t.cfg = s.cfg ∧ t.closing = s.closing ∧
      t.overtaken = s.overtaken ∧ t.offer = s.offer ∧ t.sched = s.sched ∧ t.served = s.served ∧
      (i ≠ .bread a → t.draws = s.draws)

/-- RECV writes TAIL and PEND only (R39): C and HEAD, every byte of BUF, the table, the sequence number, the counters and
the engine are as before. -/
def Obligations.RecvFrame : Prop :=
  ∀ (s t : State) (arg : BitVec 32), exec (.recv arg) s = .next t →
    SameParties s t ∧ (∃ x, t.out = x :: s.out) ∧ (s.inst = none → t.inst = none) ∧
    (∀ n, s.inst = some n → ∃ m, t.inst = some m ∧ m.c = n.c ∧ m.head = n.head ∧ SameBytes n m ∧ SameTable [] n m ∧
      m.seq = n.seq ∧ SameStats n m ∧ SameControl n m ∧ SameInFlight n m)

/-- FLUSH writes TAIL, PEND, CT, SEQ and the counters only (R282, R39). -/
def Obligations.FlushFrame : Prop :=
  ∀ (s t : State), exec .flush s = .next t →
    SameParties s t ∧ (∃ x, t.out = x :: s.out) ∧ (s.inst = none → t.inst = none) ∧
    (∀ n, s.inst = some n → ∃ m, t.inst = some m ∧ m.c = n.c ∧ m.head = n.head ∧ SameBytes n m ∧ SameControl n m ∧
      SameInFlight n m)

/-- OPEN and CLOSE: the parameters, the schedule and the tag are as before, and the port but where the block closes (log
entry 18). An OPEN that is answered BADSTATE or CAPFAIL leaves the instance alone; a CLOSE either leaves it alone but for
TERM, or destroys it (R230, R233, R39). -/
def Obligations.LifecycleFrame : Prop :=
  ∀ (s t : State),
    (∀ arg, exec (.openCmd arg) s = .next t →
      t.cfg = s.cfg ∧ t.closing = s.closing ∧ t.overtaken = s.overtaken ∧ t.offer = s.offer ∧ t.sched = s.sched ∧
      t.served = s.served ∧ (∃ x, t.out = x :: s.out) ∧
      ((s.inst.isSome = true ∨ ¬ (arg.toNat % s.cfg.unitSize = 0 ∧ arg.toNat + s.cfg.unitSize ≤ 2 ^ 32)) →
        t.inst = s.inst ∧ t.draws = s.draws)) ∧
    (exec .close s = .next t →
      t.cfg = s.cfg ∧ t.sched = s.sched ∧ t.served = s.served ∧ t.draws = s.draws ∧
      (t.offer = s.offer ∨ s.inst.isSome = true ∧ t.inst = none) ∧
      (∀ c ≠ s.served, (t.outstanding c ↔ s.outstanding c) ∧
        (t.inst.isSome = true → (c ∈ t.closing ↔ c ∈ s.closing))) ∧
      (t.out = s.out ∨ ∃ x, t.out = x :: s.out) ∧
      (t.inst = none ∨ ∃ n m, s.inst = some n ∧ t.inst = some m ∧ SameCursors n m ∧ SameBytes n m ∧ SameTable [] n m ∧
        m.seq = n.seq ∧ SameStats n m ∧ SameInFlight n m ∧ m.rxs = n.rxs ∧ m.phase = n.phase))

/-- START, TERM_CHECK, EXIT, IDLE, the fatal events and ignored datagrams write RXS and PHASE only (R177, R178, R39). -/
def Obligations.EngineControlFrame : Prop :=
  ∀ (s t : State) (i : Instr) (p : BitVec 3) (l : BitVec 16) (d : List Byte),
    i ∈ ([.start p, .termCheck, .exit p, .idle l, .dgFatalL0, .dgFatalRxerr l, .dgOther l d] : List Instr) →
    exec i s = .next t →
    SameParties s t ∧ t.out = s.out ∧
    ∃ n m, s.inst = some n ∧ t.inst = some m ∧ SameCursors n m ∧ SameBytes n m ∧ SameTable [] n m ∧ m.seq = n.seq ∧
      SameStats n m ∧ SameInFlight n m ∧ m.term = n.term

/-- CLASSIFY and the two accepted classes write the in-flight registers, RXS and PHASE only (R39, R175, R176); CLASSIFY
also takes the event off the port. -/
def Obligations.ClassifyFrame : Prop :=
  ∀ (s t : State) (i : Instr) (h : RtpHeader) (d : List Byte),
    i ∈ ([.classify, .dgRtp h d, .dgBare d] : List Instr) → exec i s = .next t →
    t.cfg = s.cfg ∧ t.closing = s.closing ∧ t.overtaken = s.overtaken ∧ t.sched = s.sched ∧ t.served = s.served ∧
    t.draws = s.draws ∧ t.out = s.out ∧ (i ≠ .classify → t.offer = s.offer) ∧ (t.offer = s.offer ∨ t.offer = none) ∧
    ∃ n m, s.inst = some n ∧ t.inst = some m ∧ SameCursors n m ∧ SameBytes n m ∧ SameTable [] n m ∧ m.seq = n.seq ∧
      SameStats n m ∧ m.term = n.term ∧ (m.rxIdx = n.rxIdx ∨ m.rxIdx = 0)

/-- SEQ_CHECK writes SEQ, NERR, CT, RX_IDX and PHASE only (R39). -/
def Obligations.SeqCheckFrame : Prop :=
  ∀ (s t : State), exec .seqCheck s = .next t →
    SameParties s t ∧ t.out = s.out ∧
    ∃ n m, s.inst = some n ∧ t.inst = some m ∧ SameCursors n m ∧ SameBytes n m ∧ m.pkt = n.pkt ∧ m.terr = n.terr ∧
      m.cerr = n.cerr ∧ m.ovf = n.ovf ∧ m.rxs = n.rxs ∧ m.term = n.term ∧ m.rxKind = n.rxKind ∧ m.rxSeq = n.rxSeq ∧
      m.rxUnit = n.rxUnit

/-- R139: CC_CHECK is observational. It never writes BUF or the cursors, nor SEQ, PKT, NERR or OVF, and of the table
only the packet's own entry: for the classes that of their header, for CC_CHECK that of the packet RX_IDX (R81, R83). -/
def Obligations.CcCheckFrame : Prop :=
  ∀ (s t : State) (i : Instr) (h : TsHeader),
    (i ∈ ([.tsNull h, .tsTei h, .tsData h] : List Instr) ∨
      i = .ccCheck ∧ ∀ n w, s.inst = some n → tsWordAt n.rxUnit n.rxIdx = some w → h = TsHeader.ofWord w) →
    exec i s = .next t →
    SameParties s t ∧ t.out = s.out ∧
    ∃ n m, s.inst = some n ∧ t.inst = some m ∧ SameCursors n m ∧ SameBytes n m ∧ SameTable [h.pid.toNat] n m ∧
      m.seq = n.seq ∧ m.pkt = n.pkt ∧ m.nerr = n.nerr ∧ m.ovf = n.ovf ∧ m.rxs = n.rxs ∧ m.term = n.term ∧
      m.rxKind = n.rxKind ∧ m.rxSeq = n.rxSeq ∧ m.rxUnit = n.rxUnit

/-- PKT_COUNT writes PKT and PHASE only (R39). -/
def Obligations.PktCountFrame : Prop :=
  ∀ (s t : State), exec .pktCount s = .next t →
    SameParties s t ∧ t.out = s.out ∧
    ∃ n m, s.inst = some n ∧ t.inst = some m ∧ SameCursors n m ∧ SameBytes n m ∧ SameTable [] n m ∧ m.seq = n.seq ∧
      m.terr = n.terr ∧ m.nerr = n.nerr ∧ m.cerr = n.cerr ∧ m.ovf = n.ovf ∧ m.rxs = n.rxs ∧ m.term = n.term ∧
      SameInFlight n m

/-- PUSH writes HEAD, OVF, PHASE and the stored bytes only (R39): outside the unit's bytes at HEAD every address reads as
before, and on a drop every address does, which is the model's choice (log entry 9; R103 lets a model write the unit
there). -/
def Obligations.PushFrame : Prop :=
  ∀ (s t : State), exec .push s = .next t →
    SameParties s t ∧ t.out = s.out ∧
    ∃ n m, s.inst = some n ∧ t.inst = some m ∧ m.c = n.c ∧ m.tail = n.tail ∧ m.pend = n.pend ∧ SameTable [] n m ∧
      m.seq = n.seq ∧ m.pkt = n.pkt ∧ m.terr = n.terr ∧ m.nerr = n.nerr ∧ m.cerr = n.cerr ∧ m.rxs = n.rxs ∧
      m.term = n.term ∧ SameInFlight n m ∧
      ((n.head + s.cfg.unitSize) % n.c = n.tail → m.head = n.head ∧ SameBytes n m) ∧
      ((n.head + s.cfg.unitSize) % n.c ≠ n.tail →
        m.ovf = n.ovf ∧ ∀ a, a < n.head ∨ n.head + n.rxUnit.length ≤ a → memRead m.buf a = memRead n.buf a)

/-! ### Whole-machine rules -/

/-- R39, row by row, for every operation of the table. An instance is created by OPEN and destroyed by CLOSE only. While it
exists, C is never written; HEAD and BUF only by PUSH; TAIL and PEND only by RECV and FLUSH; CT only by FLUSH, SEQ_CHECK and
CC_CHECK; SEQ only by SEQ_CHECK and FLUSH; each counter only by FLUSH and by the one operation that counts it (R33); RXS and
PHASE only by the engine, and RXS by those of its operations that leave a state of R170; RX_KIND, RX_SEQ and RX_UNIT only by
CLASSIFY of an accepted datagram; RX_IDX only by CLASSIFY of a bare one, SEQ_CHECK and CC_CHECK (R150, R130); TERM only by
CLOSE, and never back to 0 (R36). A row of a class counts with the micro-operation that runs it. -/
def Obligations.EachElementHasItsWriters : Prop :=
  ∀ (s t : State) (i : Instr), exec i s = .next t →
    (s.inst = none → t.inst.isSome = true → ∃ a, i = .openCmd a) ∧
    (s.inst.isSome = true → t.inst = none → i = .close) ∧
    ∀ (n m : Instance), s.inst = some n → t.inst = some m →
      m.c = n.c ∧
      (i ≠ .push → m.head = n.head ∧ m.buf = n.buf) ∧
      (i ≠ .flush → (∀ a, i ≠ .recv a) → m.tail = n.tail ∧ m.pend = n.pend) ∧
      (i ≠ .flush → i ≠ .seqCheck → m.seq = n.seq ∧ m.nerr = n.nerr) ∧
      (i ≠ .flush → i ≠ .pktCount → m.pkt = n.pkt) ∧
      (i ≠ .flush → i ≠ .push → m.ovf = n.ovf) ∧
      (i ≠ .flush → i ≠ .ccCheck → (∀ h, i ≠ .tsTei h) → m.terr = n.terr) ∧
      (i ≠ .flush → i ≠ .ccCheck → (∀ h, i ≠ .tsData h) → m.cerr = n.cerr) ∧
      (i ≠ .flush → i ≠ .seqCheck → i ≠ .ccCheck → (∀ h, i ≠ .tsTei h) → (∀ h, i ≠ .tsData h) → m.ct = n.ct) ∧
      (engineOp i = false → m.rxs = n.rxs ∧ m.phase = n.phase) ∧
      ((∀ p, i ≠ .start p) → i ≠ .termCheck → (∀ p, i ≠ .exit p) → i ≠ .classify → i ≠ .dgFatalL0 →
        (∀ l, i ≠ .dgFatalRxerr l) → m.rxs = n.rxs) ∧
      (i ≠ .classify → (∀ h d, i ≠ .dgRtp h d) → m.rxSeq = n.rxSeq) ∧
      (i ≠ .classify → (∀ h d, i ≠ .dgRtp h d) → (∀ d, i ≠ .dgBare d) → m.rxKind = n.rxKind ∧ m.rxUnit = n.rxUnit) ∧
      (i ≠ .classify → (∀ d, i ≠ .dgBare d) → i ≠ .seqCheck → i ≠ .ccCheck → (∀ h, i ≠ .tsNull h) →
        (∀ h, i ≠ .tsTei h) → (∀ h, i ≠ .tsData h) → m.rxIdx = n.rxIdx) ∧
      (i ≠ .close → m.term = n.term) ∧ (n.term = true → m.term = true)

/-- R34, R35: no consumer command moves the engine: RECV, FLUSH, GETSTATS, BREAD, OPEN, CLOSE and the illegal words leave
RXS, PHASE and the in-flight registers of a block that stays open alone. -/
def Obligations.OnlyTheEngineMovesTheEngine : Prop :=
  ∀ (s t : State) (w : Word64) (a : BitVec 32) (i : Instr) (n m : Instance),
    i = decodeCmd w ∨ i = .bread a → exec i s = .next t → s.inst = some n → t.inst = some m →
    m.rxs = n.rxs ∧ m.phase = n.phase ∧ SameInFlight n m

/-- R35, R251: what a consumer is answered by RECV, FLUSH, GETSTATS, BREAD and OPEN does not depend on RXS, PHASE, the
in-flight registers or TERM. For a BREAD outside the returned span this is the model's choice and no rule of the spec: there
R52 and D15 let the byte be anything, and the model draws it from the count of draws alone, which both states share (log
entry 5). -/
def Obligations.AnswersHideTheEngine : Prop :=
  ∀ (s : State) (n m : Instance) (i : Instr) (x a : BitVec 32),
    SameCursors n m → n.buf = m.buf → SameStats n m →
    i ∈ ([.recv x, .flush, .getstats, .bread a, .openCmd x] : List Instr) →
    (∀ t, exec i { s with inst := some n } = .next t → ∃ u, exec i { s with inst := some m } = .next u ∧ u.out = t.out)

/-- R85, R80: the block reads nothing of a TS packet but pid, tei and cc, and nothing of the RTP header but seq. -/
def Obligations.UnreadFieldsDoNotMatter : Prop :=
  (∀ (s : State) (h k : TsHeader), h.pid = k.pid → h.tei = k.tei → h.cc = k.cc →
    tsClass h = tsClass k ∧ exec (.tsNull h) s = exec (.tsNull k) s ∧ exec (.tsTei h) s = exec (.tsTei k) s ∧
    exec (.tsData h) s = exec (.tsData k) s) ∧
  (∀ (s : State) (h k : RtpHeader) (d : List Byte), h.seq = k.seq → exec (.dgRtp h d) s = exec (.dgRtp k d) s)

/-- R102 over the invariant: a PUSH overflows exactly where the live region already holds `C - U` bytes. -/
def Obligations.OverflowIsAFullRing : Prop :=
  ∀ (cfg : Config) (n : Instance), cfg.wf → n.Inv cfg →
    ((n.head + cfg.unitSize) % n.c = n.tail ↔ n.avail = n.c - cfg.unitSize)

/-- R154, R152 (with R132, C6): a sequence gap counts one network error, and after it the next data packet of every
substream counts no continuity error and its counter becomes the entry's, whatever is done before it comes: any operations at
all, among them checks of packets of other substreams, of null packets and of this one's TEI packets, later units, and
commands. A next packet with TEI is still counted in TERR. -/
def Obligations.SequenceGapForgivesEverySubstream : Prop :=
  ∀ (s : State) (n : Instance) (last : SeqNo), s.inst = some n → n.rxs = .listening → n.phase = .seq →
    n.seq = some last → n.rxSeq ≠ last + 1#16 →
    ∃ t m, exec .seqCheck s = .next t ∧ t.inst = some m ∧ m.nerr = (n.nerr + 1) % 2 ^ s.cfg.cntW ∧ m.cerr = n.cerr ∧
      ∀ (p : Pid) (is : List Instr) (v : State) (k : Instance), RunsWithoutDataOf p is t v → v.inst = some k →
        k.rxs = .listening → k.phase = .cc →
        (∀ h : TsHeader, h.pid = p →
          (∃ u l, exec (.tsData h) v = .next u ∧ u.inst = some l ∧ l.cerr = k.cerr ∧ ctGet l.ct p.toNat = some h.cc) ∧
          (∃ u l, exec (.tsTei h) v = .next u ∧ u.inst = some l ∧ l.cerr = k.cerr ∧
            l.terr = (k.terr + 1) % 2 ^ s.cfg.cntW)) ∧
        (∀ w, tsWordAt k.rxUnit k.rxIdx = some w → tsClass (TsHeader.ofWord w) = .data → (TsHeader.ofWord w).pid = p →
          ∃ u l, exec .ccCheck v = .next u ∧ u.inst = some l ∧ l.cerr = k.cerr ∧
            ctGet l.ct p.toNat = some (TsHeader.ofWord w).cc)

/-- R208: a GETSTATS served right after a FLUSH answers five zeros, and a RECV right after it is empty. -/
def Obligations.FlushLeavesNothing : Prop :=
  ∀ (s : State) (n : Instance) (arg : BitVec 32), s.inst = some n →
    ∃ t, exec .flush s = .next t ∧
      (∃ u, exec .getstats t = .next u ∧ u.out = .words s.served [0x30#64, 0#64, 0#64, 0#64, 0#64, 0#64] :: t.out) ∧
      (∃ u, exec (.recv arg) t = .next u ∧ (n.head < n.c → u.out = .words s.served [0x10#64, 0#64] :: t.out))

/-- R284, R60: the returned span and the bytes in it outlive every operation but RECV, FLUSH and CLOSE. -/
def Obligations.ReturnedSpanIsStable : Prop :=
  ∀ (s t : State) (i : Instr) (n : Instance), s.Inv → s.inst = some n → exec i s = .next t →
    (∀ a, i ≠ .recv a) → i ≠ .flush → i ≠ .close →
    ∃ m, t.inst = some m ∧ m.tail = n.tail ∧ m.pend = n.pend ∧ m.spanBytes = n.spanBytes

/-- R61, R105, R106, R108: the live region is a queue in arrival order. A PUSH appends its unit or leaves the queue alone;
a RECV takes the previously returned bytes off the front and its span is the front of what is left; a FLUSH empties it;
and no other operation changes it while the block stays open. -/
def Obligations.LiveRegionIsAQueue : Prop :=
  ∀ (s t : State) (i : Instr) (n m : Instance), s.Inv → s.inst = some n → exec i s = .next t →
    t.inst = some m →
    (i = .push → m.liveBytes = n.liveBytes ∧ m.ovf = (n.ovf + 1) % 2 ^ s.cfg.cntW ∨
      m.liveBytes = n.liveBytes ++ n.rxUnit.map some ∧ m.ovf = n.ovf) ∧
    (∀ arg, i = .recv arg → m.liveBytes = n.liveBytes.drop n.pend ∧ m.spanBytes = m.liveBytes.take m.pend) ∧
    (i = .flush → m.liveBytes = []) ∧
    (i ≠ .push → (∀ arg, i ≠ .recv arg) → i ≠ .flush → m.liveBytes = n.liveBytes)

/-- R107, R54: a RECV of at least U bytes returns a span wherever bytes are left after the release, and a span is never
shorter than a unit and is a whole number of units at a unit's offset. -/
def Obligations.RecvMakesProgress : Prop :=
  ∀ (s : State) (n : Instance) (arg : BitVec 32), s.Inv → s.inst = some n →
    ∃ t m, exec (.recv arg) s = .next t ∧ t.inst = some m ∧ s.cfg.unitSize ∣ m.tail ∧ s.cfg.unitSize ∣ m.pend ∧
      (m.pend = 0 ∨ s.cfg.unitSize ≤ m.pend) ∧
      (s.cfg.unitSize ≤ arg.toNat → n.pend < n.avail → s.cfg.unitSize ≤ m.pend)

/-! ### Invariants -/

/-- Power-on meets the invariant, whatever N_CONS is. -/
def Obligations.ResetMeetsTheInvariant : Prop := State.reset.Inv

/-- R29, R31, R33 to R36 and the rest of the invariant are kept by every step from every state that has them. The clauses
about CLOSEs held and about the port of a closed block are about the model's own fields (log entries 7 and 18). -/
def Obligations.EveryStepKeepsTheInvariant : Prop :=
  ∀ s t : State, s.Inv → step s = .next t → t.Inv

/-- R6: no step changes the block's parameters. -/
def Obligations.EveryStepKeepsTheParameters : Prop :=
  ∀ s t : State, step s = .next t → t.cfg = s.cfg

/-- R254, R250: from a state with the invariant no step faults, and the only refusals are those of what no party may do:
a BREAD out of range, a command while one is unanswered, a consumer or an event that does not exist. -/
def Obligations.NoStepFaults : Prop :=
  ∀ s : State, s.Inv →
    (∀ r, step s ≠ .fault r) ∧
    (∀ r, step s = .refused r →
      r = .breadOutOfRange ∨ r = .previousUnanswered ∨ r = .noSuchConsumer ∨ r = .noSuchEvent)

/-! ### Runs of the engine -/

/-- R179, R138, R153: with nothing served in between, a bare datagram takes the engine through its checks, its count and
its PUSH to TERM_CHECK and back to WAIT in `N_TS + 4` turns, an RTP datagram in one more, whatever the checks find. The unit
is counted once and pushed or dropped; a bare datagram leaves SEQ and NERR alone. -/
def Obligations.UnitRunsToItsEnd : Prop :=
  ∀ (s : State) (n : Instance) (l : BitVec 16) (d : List Byte), s.Inv → s.inst = some n → n.rxs = .listening →
    n.phase = .wait → n.term = false → s.offer = some (.dgram l d) →
    (l.toNat = s.cfg.unitSize →
      ∃ t m, engineTurns (s.cfg.nTs + 4) s = .next t ∧ t.inst = some m ∧ m.rxs = .listening ∧ m.phase = .wait ∧
        t.offer = none ∧ m.seq = n.seq ∧ m.nerr = n.nerr ∧
        (s.cfg.pktCountMode = .perUnit → m.pkt = (n.pkt + 1) % 2 ^ s.cfg.cntW) ∧
        (m.ovf = (n.ovf + 1) % 2 ^ s.cfg.cntW ∧ m.liveBytes = n.liveBytes ∨
          m.ovf = n.ovf ∧ m.liveBytes = n.liveBytes ++ d.map some)) ∧
    (l.toNat = s.cfg.lRtp →
      ∃ t m, engineTurns (s.cfg.nTs + 5) s = .next t ∧ t.inst = some m ∧ m.rxs = .listening ∧ m.phase = .wait ∧
        t.offer = none ∧ (∃ x y, d[2]? = some x ∧ d[3]? = some y ∧ m.seq = some (be16 x y)) ∧
        (s.cfg.pktCountMode = .perUnit → m.pkt = (n.pkt + 1) % 2 ^ s.cfg.cntW) ∧
        (m.ovf = (n.ovf + 1) % 2 ^ s.cfg.cntW ∧ m.liveBytes = n.liveBytes ∨
          m.ovf = n.ovf ∧ m.liveBytes = n.liveBytes ++ (d.drop 12).map some))

/-- R184, R234: once TERM = 1, or a CLOSE is held, with some event at the port, the engine is STOPPED or DEAD after at most
`N_TS + 6` turns of its own. Whichever held CLOSE is then served closes the block and is answered OK, and every other one
is overtaken: it is answered BADSTATE when it is served, in whatever state has it so (log entry 7). -/
def Obligations.CloseCompletes : Prop :=
  ∀ (s : State) (n : Instance), s.Inv → s.inst = some n → n.term = true ∨ s.closing ≠ [] → s.offer.isSome = true →
    ∃ k ≤ s.cfg.nTs + 6, ∃ t m, engineTurns k s = .next t ∧ t.inst = some m ∧ (m.rxs = .stopped ∨ m.rxs = .dead) ∧
      t.closing = s.closing ∧
      (∀ c ∈ s.closing, ∃ u, exec .close { t with served := c } = .next u ∧ u.inst = none ∧
        u.out = .words c [0x90#64] :: s.out ∧
        ∀ d ∈ s.closing, d ≠ c → d ∈ u.overtaken ∧
          ∀ v : State, d ∈ v.overtaken → v.served = d → ∃ x, exec .close v = .next x ∧
            x.inst = v.inst ∧ x.out = .words d [0x92#64] :: v.out ∧ ¬ x.outstanding d)

/-- R109: into an empty ring with nothing held, PUSHes with nothing consumed between them accept exactly the first
`CAP / U` units and drop every later one: OVF grows by the number dropped, and the live bytes are the first `CAP / U`
units. -/
def Obligations.CapacityDropsExactly : Prop :=
  ∀ (s : State) (n : Instance) (units : List (List Byte)), s.Inv → s.inst = some n → n.head = n.tail → n.pend = 0 →
    (∀ u ∈ units, u.length = s.cfg.unitSize) →
    let cap := (n.c - s.cfg.unitSize) / s.cfg.unitSize
    ∃ t m, pushAll units s = .next t ∧ t.inst = some m ∧
      m.liveBytes = ((units.take cap).flatten).map some ∧
      m.ovf = (n.ovf + (units.length - cap)) % 2 ^ s.cfg.cntW

/-- R110: units of at most CAP bytes in all, pushed into an empty ring, come back whole and in arrival order, as what
BREADs of the spans that RECVs of at least U bytes each return; one RECV for each unit is enough, and more return nothing
further. -/
def Obligations.RoundTrip : Prop :=
  ∀ (s : State) (n : Instance) (units : List (List Byte)) (args : List (BitVec 32)), s.Inv → s.inst = some n →
    n.head = n.tail → n.pend = 0 → (∀ u ∈ units, u.length = s.cfg.unitSize) →
    units.length * s.cfg.unitSize ≤ n.c - s.cfg.unitSize → (∀ a ∈ args, s.cfg.unitSize ≤ a.toNat) →
    units.length ≤ args.length →
    ∃ t, pushAll units s = .next t ∧ drain args t = units.flatten.map some
end

