-- ==== Sys2Proof/Laws/Decode.lean ====
section
/-! SUPPORT. The small laws of the decoder's field helpers. -/
namespace Sys2Proof

theorem lengthIs_iff {α : Type} {xs : List α} {n : Nat} : lengthIs xs n = true ↔ xs.length = n := by
  induction xs generalizing n with
  | nil => cases n <;> simp [lengthIs]
  | cons x xs ih => cases n <;> simp [lengthIs, ih]

/-! ### Fields of a concatenation -/

/-- The low field of a concatenation. -/
theorem extract_low {a b : Nat} (x : BitVec a) (y : BitVec b) : (x ++ y).extractLsb' 0 b = y := by
  apply BitVec.eq_of_getLsbD_eq; intro i hi
  simp only [BitVec.getLsbD_extractLsb', BitVec.getLsbD_append, Nat.zero_add]
  simp [hi]

/-- A field above the low part of a concatenation. -/
theorem extract_high {a b : Nat} (x : BitVec a) (y : BitVec b) (k w : Nat) :
    (x ++ y).extractLsb' (b + k) w = x.extractLsb' k w := by
  apply BitVec.eq_of_getLsbD_eq; intro i hi
  simp only [BitVec.getLsbD_extractLsb', BitVec.getLsbD_append]
  rw [if_neg (by omega)]
  congr 2; omega

/-- The whole of a vector is a field of it. -/
theorem extract_all {a : Nat} (x : BitVec a) : x.extractLsb' 0 a = x := by
  apply BitVec.eq_of_getLsbD_eq; intro i hi
  simp only [BitVec.getLsbD_extractLsb', Nat.zero_add]
  simp [hi]

/-- Two fields side by side are the field that spans them. -/
theorem extract_join {w : Nat} (x : BitVec w) (k a b : Nat) :
    x.extractLsb' (k + b) a ++ x.extractLsb' k b = x.extractLsb' k (a + b) := by
  apply BitVec.eq_of_getLsbD_eq; intro i hi
  simp only [BitVec.getLsbD_extractLsb', BitVec.getLsbD_append]
  by_cases h : i < b
  · simp [h, show i < a + b by omega]
  · simp only [h, if_false, hi, show i - b < a by omega, decide_true, Bool.true_and]
    congr 1; omega

/-! ### Headers -/

/-- The fields of a header value give it back (R82). -/
theorem TsHeader.toWord_ofWord (w : BitVec 32) : (TsHeader.ofWord w).toWord = w := by
  have h1 := extract_join w 23 8 1
  have h2 := extract_join w 22 9 1
  have h3 := extract_join w 21 10 1
  have h4 := extract_join w 8 11 13
  have h5 := extract_join w 6 24 2
  have h6 := extract_join w 4 26 2
  have h7 := extract_join w 0 28 4
  simp only [TsHeader.toWord, TsHeader.ofWord]
  rw [h1, h2, h3, h4, h5, h6, h7]
  exact extract_all w

/-- A header value gives its fields back (R82). -/
theorem TsHeader.ofWord_toWord (h : TsHeader) : TsHeader.ofWord h.toWord = h := by
  obtain ⟨sync, tei, pusi, tp, pid, tsc, afc, cc⟩ := h
  simp only [TsHeader.toWord, TsHeader.ofWord, TsHeader.mk.injEq]
  refine ⟨?_, ?_, ?_, ?_, ?_, ?_, ?_, ?_⟩
  · rw [extract_high _ _ 20 8, extract_high _ _ 18 8, extract_high _ _ 16 8, extract_high _ _ 3 8, extract_high _ _ 2 8,
      extract_high _ _ 1 8, extract_high _ _ 0 8]; exact extract_all _
  · rw [extract_high _ _ 19 1, extract_high _ _ 17 1, extract_high _ _ 15 1, extract_high _ _ 2 1, extract_high _ _ 1 1,
      extract_high _ _ 0 1]; exact extract_low _ _
  · rw [extract_high _ _ 18 1, extract_high _ _ 16 1, extract_high _ _ 14 1, extract_high _ _ 1 1, extract_high _ _ 0 1]
    exact extract_low _ _
  · rw [extract_high _ _ 17 1, extract_high _ _ 15 1, extract_high _ _ 13 1, extract_high _ _ 0 1]
    exact extract_low _ _
  · rw [extract_high _ _ 4 13, extract_high _ _ 2 13, extract_high _ _ 0 13]; exact extract_low _ _
  · rw [extract_high _ _ 2 2, extract_high _ _ 0 2]; exact extract_low _ _
  · rw [extract_high _ _ 0 2]; exact extract_low _ _
  · exact extract_low _ _

theorem be16_bytes16 (v : BitVec 16) : be16 (v.extractLsb' 8 8) (v.extractLsb' 0 8) = v := by
  unfold be16; rw [extract_join v 0 8 8]; exact extract_all v

theorem be32_bytes32 (v : BitVec 32) :
    be32 (v.extractLsb' 24 8) (v.extractLsb' 16 8) (v.extractLsb' 8 8) (v.extractLsb' 0 8) = v := by
  unfold be32; rw [extract_join v 16 8 8, extract_join v 8 16 8, extract_join v 0 24 8]; exact extract_all v

theorem bytes16_be16 (x y : Byte) : bytes16 (be16 x y) = [x, y] := by
  unfold bytes16 be16
  rw [extract_high x y 0 8, extract_low, extract_all]

theorem bytes32_be32 (a b c d : Byte) : bytes32 (be32 a b c d) = [a, b, c, d] := by
  unfold bytes32 be32
  rw [extract_high _ d 16 8, extract_high _ c 8 8, extract_high _ b 0 8, extract_high _ d 8 8, extract_high _ c 0 8,
    extract_high _ d 0 8, extract_low, extract_low, extract_low, extract_all]

/-- The RTP header's bytes give its fields back, whatever follows them (R79). -/
theorem RtpHeader.ofBytes_toBytes (h : RtpHeader) (rest : List Byte) : RtpHeader.ofBytes (h.toBytes ++ rest) = some h := by
  simp only [RtpHeader.toBytes, bytes16, bytes32, List.cons_append, List.nil_append, RtpHeader.ofBytes, be16_bytes16,
    be32_bytes32]

/-- The fields of the RTP header give its bytes back (R79). -/
theorem RtpHeader.toBytes_ofBytes {d : List Byte} {h : RtpHeader} (e : RtpHeader.ofBytes d = some h) :
    h.toBytes ++ d.drop Config.rtpHdr = d := by
  unfold RtpHeader.ofBytes at e
  split at e
  · cases e
    simp only [RtpHeader.toBytes, bytes16_be16, bytes32_be32, Config.rtpHdr, List.cons_append, List.nil_append,
      List.drop_succ_cons, List.drop_zero]
  · cases e

theorem RtpHeader.toBytes_length (h : RtpHeader) : h.toBytes.length = Config.rtpHdr := rfl

/-- Twelve bytes or more begin with a header (R79). -/
theorem RtpHeader.ofBytes_isSome {d : List Byte} (h : Config.rtpHdr ≤ d.length) : (RtpHeader.ofBytes d).isSome := by
  simp only [Config.rtpHdr] at h
  match d, h with
  | _ :: _ :: _ :: _ :: _ :: _ :: _ :: _ :: _ :: _ :: _ :: _ :: _, _ => rfl

/-! ### Command words -/

theorem cmdWord_opc (o : BitVec 4) (r : BitVec 28) (a : BitVec 32) : (cmdWord o r a).extractLsb' 0 4 = o :=
  extract_low _ _

theorem cmdWord_rsv (o : BitVec 4) (r : BitVec 28) (a : BitVec 32) : (cmdWord o r a).extractLsb' 4 28 = r := by
  unfold cmdWord; rw [extract_high _ o 0 28]; exact extract_low _ _

theorem cmdWord_arg (o : BitVec 4) (r : BitVec 28) (a : BitVec 32) : (cmdWord o r a).extractLsb' 32 32 = a := by
  unfold cmdWord; rw [extract_high _ o 28 32, extract_high _ r 0 32]; exact extract_all _

theorem cmdWord_fields (w : Word64) : cmdWord (w.extractLsb' 0 4) (w.extractLsb' 4 28) (w.extractLsb' 32 32) = w := by
  unfold cmdWord; rw [extract_join w 4 32 28, extract_join w 0 60 4]; exact extract_all w

theorem ingressWord_kind (k : BitVec 2) (l : BitVec 16) : (ingressWord k l).extractLsb' 16 2 = k := by
  unfold ingressWord; rw [extract_high k l 0 2]; exact extract_all k

theorem ingressWord_len (k : BitVec 2) (l : BitVec 16) : (ingressWord k l).extractLsb' 0 16 = l := extract_low _ _

theorem ingressWord_fields (w : BitVec 18) : ingressWord (w.extractLsb' 16 2) (w.extractLsb' 0 16) = w := by
  unfold ingressWord; rw [extract_join w 0 2 16]; exact extract_all w

theorem stepWord_rxs (r p : BitVec 3) : (stepWord r p).extractLsb' 3 3 = r := by
  unfold stepWord; rw [extract_high r p 0 3]; exact extract_all r

theorem stepWord_phase (r p : BitVec 3) : (stepWord r p).extractLsb' 0 3 = p := extract_low _ _

theorem stepWord_fields (w : BitVec 6) : stepWord (w.extractLsb' 3 3) (w.extractLsb' 0 3) = w := by
  unfold stepWord; rw [extract_join w 0 3 3]; exact extract_all w

/-- Case analysis on the operation a command word decodes to (R72, R73). -/
theorem decodeCmd_cases {P : Instr → Prop} (w : Word64) (recv : ∀ a, P (.recv a)) (flush : P .flush)
    (getstats : P .getstats) (openCmd : ∀ a, P (.openCmd a)) (close : P .close)
    (opc0 : ∀ r a, P (.illegalOpc0 r a)) (opc4 : ∀ r a, P (.illegalOpc4 r a)) (opc5 : ∀ r a, P (.illegalOpc5 r a))
    (opc6 : ∀ r a, P (.illegalOpc6 r a)) (opc7 : ∀ r a, P (.illegalOpc7 r a)) (opcA : ∀ r a, P (.illegalOpcA r a))
    (opcB : ∀ r a, P (.illegalOpcB r a)) (opcC : ∀ r a, P (.illegalOpcC r a)) (opcD : ∀ r a, P (.illegalOpcD r a))
    (opcE : ∀ r a, P (.illegalOpcE r a)) (opcF : ∀ r a, P (.illegalOpcF r a))
    (rsv : ∀ o r a, P (.illegalRsv o r a)) : P (decodeCmd w) := by
  unfold decodeCmd
  dsimp only
  repeat' refine iteInduction (motive := P) (fun _ => ?_) (fun _ => ?_)
  all_goals simp only [recv, flush, getstats, openCmd, close, opc0, opc4, opc5, opc6, opc7, opcA, opcB, opcC, opcD, opcE,
    opcF, rsv]

/-! ### Words as numbers -/

theorem toNat_append_eq {a b : Nat} (x : BitVec a) (y : BitVec b) : (x ++ y).toNat = x.toNat * 2 ^ b + y.toNat := by
  rw [BitVec.toNat_append, ← Nat.shiftLeft_add_eq_or_of_lt y.isLt, Nat.shiftLeft_eq]

theorem cmdWord_toNat (o : BitVec 4) (r : BitVec 28) (a : BitVec 32) :
    (cmdWord o r a).toNat = a.toNat * 2 ^ 32 + r.toNat * 2 ^ 4 + o.toNat := by
  simp only [cmdWord, toNat_append_eq]; omega

theorem ingressWord_toNat (k : BitVec 2) (l : BitVec 16) : (ingressWord k l).toNat = k.toNat * 2 ^ 16 + l.toNat :=
  toNat_append_eq k l

theorem stepWord_toNat (r p : BitVec 3) : (stepWord r p).toNat = r.toNat * 2 ^ 3 + p.toNat := toNat_append_eq r p

theorem be16_toNat (x y : Byte) : (be16 x y).toNat = x.toNat * 256 + y.toNat := toNat_append_eq x y

theorem be32_toNat (a b c d : Byte) :
    (be32 a b c d).toNat = a.toNat * 2 ^ 24 + b.toNat * 2 ^ 16 + c.toNat * 2 ^ 8 + d.toNat := by
  simp only [be32, toNat_append_eq]; omega

/-- PID from the header's bytes (R83). -/
theorem ofWord_be32_pid (a b c d : Byte) : (TsHeader.ofWord (be32 a b c d)).pid.toNat = b.toNat % 32 * 256 + c.toNat := by
  have := a.isLt; have := b.isLt; have := c.isLt; have := d.isLt
  simp only [TsHeader.ofWord, BitVec.extractLsb'_toNat, be32_toNat, Nat.shiftRight_eq_div_pow]; omega

/-- TEI from the header's bytes (R83). -/
theorem ofWord_be32_tei (a b c d : Byte) : (TsHeader.ofWord (be32 a b c d)).tei.toNat = b.toNat / 128 := by
  have := a.isLt; have := b.isLt; have := c.isLt; have := d.isLt
  simp only [TsHeader.ofWord, BitVec.extractLsb'_toNat, be32_toNat, Nat.shiftRight_eq_div_pow]; omega

/-- CC from the header's bytes (R83). -/
theorem ofWord_be32_cc (a b c d : Byte) : (TsHeader.ofWord (be32 a b c d)).cc.toNat = d.toNat % 16 := by
  have := a.isLt; have := b.isLt; have := c.isLt; have := d.isLt
  simp only [TsHeader.ofWord, BitVec.extractLsb'_toNat, be32_toNat, Nat.shiftRight_eq_div_pow]; omega

/-- The next sequence number, as numbers (R151). -/
theorem seqNo_succ (x y : SeqNo) : x = y + 1#16 ↔ x.toNat = (y.toNat + 1) % 65536 := by
  rw [← BitVec.toNat_inj, BitVec.toNat_add]; simp

/-- The next continuity counter, as numbers (R134). -/
theorem cc_succ (x y : Cc) : x = y + 1#4 ↔ x.toNat = (y.toNat + 1) % 16 := by
  rw [← BitVec.toNat_inj, BitVec.toNat_add]; simp

end Sys2Proof
end

