-- ==== Sys2Proof/Laws/Memory.lean ====
section
/-! SUPPORT. The laws of BUF and of the ContinuityTable: what a read gives after a write, and that every operation keeps
the canonical form. -/
namespace Sys2Proof.Machine

/-! ### BUF -/

theorem memRead_append (m k : Memory) (x : Nat) : memRead (m ++ k) x = (memRead m x).or (memRead k x) := by
  induction m with
  | nil => simp [memRead, memUnlisted]
  | cons c rest ih =>
    obtain ⟨j, b⟩ := c
    by_cases h : j = x <;> simp [memRead, h, ih]

theorem memRead_filter (m : Memory) (p : Nat → Bool) (x : Nat) :
    memRead (m.filter (fun c => p c.1)) x = if p x then memRead m x else none := by
  induction m with
  | nil => simp [memRead, memUnlisted]
  | cons c rest ih =>
    obtain ⟨j, b⟩ := c
    by_cases hp : p j <;> by_cases h : j = x
    · subst h; simp [memRead, hp]
    · simp [memRead, hp, h, ih]
    · subst h; simp [hp, ih]
    · simp [memRead, hp, h, ih]

theorem memRead_cellsFrom (bs : List Byte) (a x : Nat) :
    memRead (cellsFrom a bs) x = if a ≤ x then bs[x - a]? else none := by
  induction bs generalizing a with
  | nil => simp [cellsFrom, memRead, memUnlisted]
  | cons b bs ih =>
    rcases Nat.lt_trichotomy a x with h | h | h
    · obtain ⟨d, rfl⟩ := Nat.exists_eq_add_of_lt h
      have e : a + d + 1 - a = (a + d + 1 - (a + 1)) + 1 := by omega
      simp [cellsFrom, memRead, ih, e, show a ≠ a + d + 1 by omega, show a + 1 ≤ a + d + 1 by omega,
        show a ≤ a + d + 1 by omega]
    · subst h; simp [cellsFrom, memRead]
    · simp [cellsFrom, memRead, ih, show a ≠ x by omega, show ¬ a + 1 ≤ x by omega, show ¬ a ≤ x by omega]

/-- Read after write: the written byte inside the written run, the old byte outside it. -/
theorem memRead_memWrite (m : Memory) (a : Nat) (bs : List Byte) (x : Nat) :
    memRead (memWrite m a bs) x = if a ≤ x ∧ x < a + bs.length then bs[x - a]? else memRead m x := by
  have h1 := memRead_filter m (fun j => decide (j < a)) x
  have h2 := memRead_filter m (fun j => decide (a + bs.length ≤ j)) x
  simp only [memWrite, memRead_append, memRead_cellsFrom, h1, h2, decide_eq_true_eq]
  by_cases hlt : x < a
  · simp [hlt, show ¬ a ≤ x by omega, show ¬ a + bs.length ≤ x by omega]
  · by_cases hin : x < a + bs.length
    · have : (bs[x - a]?).isSome := by simp; omega
      obtain ⟨b, hb⟩ := Option.isSome_iff_exists.mp this
      simp [hlt, hin, hb, show a ≤ x by omega]
    · simp [hlt, hin, show a ≤ x by omega, show a + bs.length ≤ x by omega,
        List.getElem?_eq_none (show bs.length ≤ x - a by omega)]

/-- A write leaves every other address alone. -/
theorem memRead_memWrite_outside {m : Memory} {a : Nat} {bs : List Byte} {x : Nat}
    (h : x < a ∨ a + bs.length ≤ x) : memRead (memWrite m a bs) x = memRead m x := by
  rw [memRead_memWrite, if_neg (by omega)]

theorem cellsFrom_range {a : Nat} {bs : List Byte} {c : Host.Cell} (h : c ∈ cellsFrom a bs) :
    a ≤ c.1 ∧ c.1 < a + bs.length := by
  induction bs generalizing a with
  | nil => simp [cellsFrom] at h
  | cons b bs ih =>
    rcases List.mem_cons.mp h with rfl | h
    · simp
    · have := ih h; simp only [List.length_cons]; omega

theorem cellsFrom_wf (a : Nat) (bs : List Byte) : Memory.wf (cellsFrom a bs) := by
  induction bs generalizing a with
  | nil => exact List.Pairwise.nil
  | cons b bs ih =>
    refine List.Pairwise.cons (fun c hc => ?_) (ih (a + 1))
    have := cellsFrom_range hc
    simp only; omega

/-- Every address a write leaves listed was listed before or lies in the written run. -/
theorem mem_memWrite {m : Memory} {a : Nat} {bs : List Byte} {c : Host.Cell} (h : c ∈ memWrite m a bs) :
    c ∈ m ∨ (a ≤ c.1 ∧ c.1 < a + bs.length) := by
  simp only [memWrite, List.mem_append] at h
  rcases h with (h | h) | h
  · exact .inl (List.mem_of_mem_filter h)
  · exact .inr (cellsFrom_range h)
  · exact .inl (List.mem_of_mem_filter h)

/-- A write keeps the canonical form. -/
theorem memWrite_wf {m : Memory} (h : Memory.wf m) (a : Nat) (bs : List Byte) : Memory.wf (memWrite m a bs) := by
  have hlow : ∀ c ∈ m.filter (fun x => decide (x.1 < a)), c.1 < a := fun c hc => by
    simpa using (List.mem_filter.mp hc).2
  have hhigh : ∀ c ∈ m.filter (fun x => decide (a + bs.length ≤ x.1)), a + bs.length ≤ c.1 := fun c hc => by
    simpa using (List.mem_filter.mp hc).2
  refine List.pairwise_append.mpr ⟨List.pairwise_append.mpr ⟨h.filter _, cellsFrom_wf a bs, ?_⟩, h.filter _, ?_⟩
  · intro c hc d hd
    have := hlow c hc; have := cellsFrom_range hd; omega
  · intro c hc d hd
    have := hhigh d hd
    rcases List.mem_append.mp hc with hc | hc
    · have := hlow c hc; omega
    · have := cellsFrom_range hc; omega

/-! ### The ContinuityTable -/

/-- An entry after `CT[p] <- c`. -/
theorem ctGet_ctSet (t : ContinuityTable) (p q : Nat) (c : Cc) :
    ctGet (ctSet t p c) q = if p = q then some c else ctGet t q := by
  induction t with
  | nil => simp [ctSet, ctGet]
  | cons e rest ih =>
    obtain ⟨k, d⟩ := e
    simp only [ctSet]
    split
    · simp [ctGet]
    · split
      · rename_i h; subst h; by_cases hq : p = q <;> simp [ctGet, hq]
      · rename_i h; simp only [ctGet, ih]
        by_cases hk : k = q
        · subst hk; simp [h]
        · simp [hk]

/-- An entry after `CT[p] <- ⊥`. -/
theorem ctGet_ctForget (t : ContinuityTable) (p q : Nat) :
    ctGet (ctForget t p) q = if p = q then none else ctGet t q := by
  induction t with
  | nil => simp [ctForget, ctGet]
  | cons e rest ih =>
    obtain ⟨k, d⟩ := e
    simp only [ctForget, ne_eq, decide_not] at ih
    by_cases hk : k = p
    · subst hk
      by_cases hq : k = q
      · subst hq; simpa [ctForget] using ih
      · simp [ctForget, ctGet, hq, ih]
    · by_cases hq : k = q
      · subst hq; simp [ctForget, ctGet, hk, Ne.symm hk]
      · simp [ctForget, ctGet, hk, hq, ih]

/-- Every entry after CT_CLEAR is unknown (R137). -/
@[simp] theorem ctGet_ctClear (p : Nat) : ctGet ctClear p = none := rfl

theorem mem_ctSet {t : ContinuityTable} {p : Nat} {c : Cc} {e : Nat × Cc} (h : e ∈ ctSet t p c) :
    e = (p, c) ∨ e ∈ t := by
  induction t with
  | nil => simpa [ctSet] using h
  | cons f rest ih =>
    obtain ⟨k, d⟩ := f
    simp only [ctSet] at h
    split at h
    · simpa using h
    · split at h
      · rcases List.mem_cons.mp h with h | h
        · exact .inl h
        · exact .inr (List.mem_cons_of_mem _ h)
      · rcases List.mem_cons.mp h with h | h
        · exact .inr (by simp [h])
        · rcases ih h with h | h
          · exact .inl h
          · exact .inr (List.mem_cons_of_mem _ h)

theorem ctSet_sorted {t : ContinuityTable} (h : t.Pairwise (fun x y => x.1 < y.1)) (p : Nat) (c : Cc) :
    (ctSet t p c).Pairwise (fun x y => x.1 < y.1) := by
  induction t with
  | nil => simp [ctSet]
  | cons e rest ih =>
    obtain ⟨k, d⟩ := e
    have ⟨hk, hr⟩ := List.pairwise_cons.mp h
    simp only [ctSet]
    split
    · rename_i hp
      refine List.pairwise_cons.mpr ⟨fun x hx => ?_, h⟩
      rcases List.mem_cons.mp hx with rfl | hx
      · exact hp
      · exact Nat.lt_trans hp (hk x hx)
    · split
      · rename_i hp; subst hp; exact List.pairwise_cons.mpr ⟨hk, hr⟩
      · refine List.pairwise_cons.mpr ⟨fun x hx => ?_, ih hr⟩
        rcases mem_ctSet hx with rfl | hx
        · simp only; omega
        · exact hk x hx

/-- `CT[p] <- c` keeps the canonical form. -/
theorem ctSet_wf {t : ContinuityTable} (h : ContinuityTable.wf t) {p : Nat} (hp : p < Config.ctSize) (c : Cc) :
    ContinuityTable.wf (ctSet t p c) := by
  refine ⟨ctSet_sorted h.1 p c, fun e he => ?_⟩
  rcases mem_ctSet he with rfl | he
  · exact hp
  · exact h.2 e he

/-- `CT[p] <- ⊥` keeps the canonical form. -/
theorem ctForget_wf {t : ContinuityTable} (h : ContinuityTable.wf t) (p : Nat) : ContinuityTable.wf (ctForget t p) :=
  ⟨h.1.filter _, fun e he => h.2 e (List.mem_of_mem_filter he)⟩

/-- CT_CLEAR gives the canonical form. -/
theorem ctClear_wf : ContinuityTable.wf ctClear := ⟨List.Pairwise.nil, by simp [ctClear]⟩

/-- A 13-bit identifier is an entry of the table (R83). -/
theorem pid_lt_ctSize (p : Pid) : p.toNat < Config.ctSize := by
  exact p.isLt

end Sys2Proof.Machine
end

