-- ==== Sys2Proof/Laws/State.lean ====
section
/-! SUPPORT. One lemma per field per update of the state, so that no later proof unfolds a record update. -/
namespace Sys2Proof.Machine

/-! ### State.respond -/

@[simp] theorem State.respond_cfg (s : State) (ws : List Word64) : (s.respond ws).cfg = s.cfg := rfl
@[simp] theorem State.respond_inst (s : State) (ws : List Word64) : (s.respond ws).inst = s.inst := rfl
@[simp] theorem State.respond_closing (s : State) (ws : List Word64) : (s.respond ws).closing = s.closing := rfl
@[simp] theorem State.respond_overtaken (s : State) (ws : List Word64) : (s.respond ws).overtaken = s.overtaken := rfl
@[simp] theorem State.respond_offer (s : State) (ws : List Word64) : (s.respond ws).offer = s.offer := rfl
@[simp] theorem State.respond_sched (s : State) (ws : List Word64) : (s.respond ws).sched = s.sched := rfl
@[simp] theorem State.respond_served (s : State) (ws : List Word64) : (s.respond ws).served = s.served := rfl
@[simp] theorem State.respond_out (s : State) (ws : List Word64) : (s.respond ws).out = .words s.served ws :: s.out := rfl
@[simp] theorem State.respond_draws (s : State) (ws : List Word64) : (s.respond ws).draws = s.draws := rfl

/-! ### State.answer -/

@[simp] theorem State.answer_cfg (s : State) (st : Status) (opc : BitVec 4) : (s.answer st opc).cfg = s.cfg := rfl
@[simp] theorem State.answer_inst (s : State) (st : Status) (opc : BitVec 4) : (s.answer st opc).inst = s.inst := rfl
@[simp] theorem State.answer_closing (s : State) (st : Status) (opc : BitVec 4) : (s.answer st opc).closing = s.closing := rfl
@[simp] theorem State.answer_overtaken (s : State) (st : Status) (opc : BitVec 4) : (s.answer st opc).overtaken = s.overtaken := rfl
@[simp] theorem State.answer_offer (s : State) (st : Status) (opc : BitVec 4) : (s.answer st opc).offer = s.offer := rfl
@[simp] theorem State.answer_sched (s : State) (st : Status) (opc : BitVec 4) : (s.answer st opc).sched = s.sched := rfl
@[simp] theorem State.answer_served (s : State) (st : Status) (opc : BitVec 4) : (s.answer st opc).served = s.served := rfl
@[simp] theorem State.answer_out (s : State) (st : Status) (opc : BitVec 4) : (s.answer st opc).out =
    .words s.served [responseWord st opc false] :: s.out := rfl
@[simp] theorem State.answer_draws (s : State) (st : Status) (opc : BitVec 4) : (s.answer st opc).draws = s.draws := rfl

/-! ### State.respondByte -/

@[simp] theorem State.respondByte_cfg (s : State) (b : Byte) : (s.respondByte b).cfg = s.cfg := rfl
@[simp] theorem State.respondByte_inst (s : State) (b : Byte) : (s.respondByte b).inst = s.inst := rfl
@[simp] theorem State.respondByte_closing (s : State) (b : Byte) : (s.respondByte b).closing = s.closing := rfl
@[simp] theorem State.respondByte_overtaken (s : State) (b : Byte) : (s.respondByte b).overtaken = s.overtaken := rfl
@[simp] theorem State.respondByte_offer (s : State) (b : Byte) : (s.respondByte b).offer = s.offer := rfl
@[simp] theorem State.respondByte_sched (s : State) (b : Byte) : (s.respondByte b).sched = s.sched := rfl
@[simp] theorem State.respondByte_served (s : State) (b : Byte) : (s.respondByte b).served = s.served := rfl
@[simp] theorem State.respondByte_out (s : State) (b : Byte) : (s.respondByte b).out = .byte s.served b :: s.out := rfl
@[simp] theorem State.respondByte_draws (s : State) (b : Byte) : (s.respondByte b).draws = s.draws := rfl

/-! ### State.setInst -/

@[simp] theorem State.setInst_cfg (s : State) (n : Instance) : (s.setInst n).cfg = s.cfg := rfl
@[simp] theorem State.setInst_inst (s : State) (n : Instance) : (s.setInst n).inst = some n := rfl
@[simp] theorem State.setInst_closing (s : State) (n : Instance) : (s.setInst n).closing = s.closing := rfl
@[simp] theorem State.setInst_overtaken (s : State) (n : Instance) : (s.setInst n).overtaken = s.overtaken := rfl
@[simp] theorem State.setInst_offer (s : State) (n : Instance) : (s.setInst n).offer = s.offer := rfl
@[simp] theorem State.setInst_sched (s : State) (n : Instance) : (s.setInst n).sched = s.sched := rfl
@[simp] theorem State.setInst_served (s : State) (n : Instance) : (s.setInst n).served = s.served := rfl
@[simp] theorem State.setInst_out (s : State) (n : Instance) : (s.setInst n).out = s.out := rfl
@[simp] theorem State.setInst_draws (s : State) (n : Instance) : (s.setInst n).draws = s.draws := rfl

/-! ### State.dropInst -/

@[simp] theorem State.dropInst_cfg (s : State) : (s.dropInst).cfg = s.cfg := rfl
@[simp] theorem State.dropInst_inst (s : State) : (s.dropInst).inst = none := rfl
@[simp] theorem State.dropInst_closing (s : State) : (s.dropInst).closing = [] := rfl
@[simp] theorem State.dropInst_overtaken (s : State) : (s.dropInst).overtaken = s.closing ++ s.overtaken := rfl
@[simp] theorem State.dropInst_offer (s : State) : (s.dropInst).offer = none := rfl
@[simp] theorem State.dropInst_sched (s : State) : (s.dropInst).sched = s.sched := rfl
@[simp] theorem State.dropInst_served (s : State) : (s.dropInst).served = s.served := rfl
@[simp] theorem State.dropInst_out (s : State) : (s.dropInst).out = s.out := rfl
@[simp] theorem State.dropInst_draws (s : State) : (s.dropInst).draws = s.draws := rfl

/-! ### State.countDraw -/

@[simp] theorem State.countDraw_cfg (s : State) : (s.countDraw).cfg = s.cfg := rfl
@[simp] theorem State.countDraw_inst (s : State) : (s.countDraw).inst = s.inst := rfl
@[simp] theorem State.countDraw_closing (s : State) : (s.countDraw).closing = s.closing := rfl
@[simp] theorem State.countDraw_overtaken (s : State) : (s.countDraw).overtaken = s.overtaken := rfl
@[simp] theorem State.countDraw_offer (s : State) : (s.countDraw).offer = s.offer := rfl
@[simp] theorem State.countDraw_sched (s : State) : (s.countDraw).sched = s.sched := rfl
@[simp] theorem State.countDraw_served (s : State) : (s.countDraw).served = s.served := rfl
@[simp] theorem State.countDraw_out (s : State) : (s.countDraw).out = s.out := rfl
@[simp] theorem State.countDraw_draws (s : State) : (s.countDraw).draws = s.draws + 1 := rfl

/-! ### State.endClose -/

@[simp] theorem State.endClose_cfg (s : State) : (s.endClose).cfg = s.cfg := rfl
@[simp] theorem State.endClose_inst (s : State) : (s.endClose).inst = s.inst := rfl
@[simp] theorem State.endClose_closing (s : State) : (s.endClose).closing = s.closing.filter (· ≠ s.served) := rfl
@[simp] theorem State.endClose_overtaken (s : State) : (s.endClose).overtaken = s.overtaken.filter (· ≠ s.served) := rfl
@[simp] theorem State.endClose_offer (s : State) : (s.endClose).offer = s.offer := rfl
@[simp] theorem State.endClose_sched (s : State) : (s.endClose).sched = s.sched := rfl
@[simp] theorem State.endClose_served (s : State) : (s.endClose).served = s.served := rfl
@[simp] theorem State.endClose_out (s : State) : (s.endClose).out = s.out := rfl
@[simp] theorem State.endClose_draws (s : State) : (s.endClose).draws = s.draws := rfl

end Sys2Proof.Machine
end

