-- ==== Sys2Proof/Laws/Ops.lean ====
section
/-! SUPPORT. One lemma per shared operation that says once everything it can do, and the arithmetic of the ring
cursors. -/
namespace Sys2Proof.Machine

/-! ### What an engine step and a command can do -/

/-- An engine step answers a next state exactly where its selecting condition holds, and then has its effect. -/
theorem engineStep_next {s t : State} {sel : Instance → Bool} {f : Instance → Instance} :
    engineStep s sel f = .next t ↔ ∃ n, s.inst = some n ∧ sel n = true ∧ t = s.setInst (f n) := by
  unfold engineStep
  cases h : s.inst with
  | none => simp
  | some n =>
    by_cases hs : sel n
    · simp only [hs, if_true, Host.Outcome.next.injEq, Option.some.injEq, exists_eq_left', true_and]
      exact eq_comm
    · simp [hs]

/-- Where its selecting condition holds, an engine step has its effect. -/
theorem engineStep_some {s : State} {n : Instance} {sel : Instance → Bool} {f : Instance → Instance}
    (h : s.inst = some n) (hs : sel n = true) : engineStep s sel f = .next (s.setInst (f n)) := by
  simp [engineStep, h, hs]

/-- Where it does not hold, the engine has no such step. -/
theorem engineStep_stops {s : State} {sel : Instance → Bool} {f : Instance → Instance}
    (h : ∀ n, s.inst = some n → sel n = false) : engineStep s sel f = .fault .notEnabled := by
  unfold engineStep
  cases hi : s.inst with
  | none => rfl
  | some n => simp [h n hi]

/-- A command that needs an open block always answers a next state. -/
theorem withOpen_next {opc : BitVec 4} {s t : State} {f : Instance → State} :
    withOpen opc s f = .next t ↔
      (s.inst = none ∧ t = s.answer .badState opc) ∨ ∃ n, s.inst = some n ∧ t = f n := by
  unfold withOpen
  cases h : s.inst <;> simp [eq_comm]

theorem isAt_iff {p : Phase} {n : Instance} : n.isAt p = true ↔ n.rxs = .listening ∧ n.phase = p := by
  simp [Instance.isAt]

/-! ### Cursor arithmetic (R30, R111) -/

theorem subMod_eq {x y m : Nat} (hx : x < m) (hy : y < m) :
    subMod x y m = if y ≤ x then x - y else x + m - y := by
  unfold subMod
  split
  · rename_i h
    rw [Int.emod_eq_of_lt (by omega) (by omega)]; omega
  · rename_i h
    have e : ((x : Int) - y) % m = (x : Int) - y + m := by
      rw [← Int.add_emod_right, Int.emod_eq_of_lt (by omega) (by omega)]
    rw [e]; omega

theorem subMod_lt {x y m : Nat} (hm : 0 < m) : subMod x y m < m := by
  unfold subMod
  have h1 := Int.emod_nonneg ((x : Int) - y) (show (m : Int) ≠ 0 by omega)
  have h2 := Int.emod_lt_of_pos ((x : Int) - y) (show (0 : Int) < m by omega)
  omega

/-- A sum below twice the modulus, reduced. -/
theorem mod_of_lt_two {x m : Nat} (h : x < 2 * m) : x % m = if x < m then x else x - m := by
  split
  · exact Nat.mod_eq_of_lt ‹_›
  · rw [Nat.mod_eq_sub_mod (by omega), Nat.mod_eq_of_lt (by omega)]

/-- The live bytes, in a ring whose cursors are in range (R30). -/
theorem avail_eq {n : Instance} (h : n.head < n.c) (t : n.tail < n.c) :
    n.avail = if n.tail ≤ n.head then n.head - n.tail else n.head + n.c - n.tail := subMod_eq h t

/-- The live bytes after the head moves on by a multiple of U that fits. -/
theorem head_of_avail {n : Instance} (h : n.head < n.c) (t : n.tail < n.c) : n.head = (n.tail + n.avail) % n.c := by
  rw [avail_eq h t]
  split
  · rw [Nat.mod_eq_of_lt (by omega)]; omega
  · rw [mod_of_lt_two (by omega)]; split <;> omega

/-- A counter stays below its modulus (R33). -/
theorem inc_lt {cfg : Config} (x : Nat) : inc cfg x < cfg.cntMod := Nat.mod_lt _ (Nat.two_pow_pos _)

theorem addCount_lt {cfg : Config} (k x : Nat) : addCount cfg k x < cfg.cntMod := Nat.mod_lt _ (Nat.two_pow_pos _)

theorem unitSize_pos {cfg : Config} (h : cfg.wf) : 0 < cfg.unitSize := by
  exact Nat.mul_pos (by unfold Config.tsPkt; omega) h.1

end Sys2Proof.Machine
end

