-- ==== Sys2Proof/Laws/Ring.lean ====
section
/-! SUPPORT. The arithmetic of the ring over the invariant (R29): what PUSH and CONSUME do to the live bytes. -/
namespace Sys2Proof.Machine

/-! ### Unit arithmetic -/

/-- Two multiples of u, one below the other, are at least u apart. -/
theorem unit_gap {u x y : Nat} (hx : u ∣ x) (hy : u ∣ y) (h : x < y) : x + u ≤ y := by
  obtain ⟨a, rfl⟩ := hx; obtain ⟨b, rfl⟩ := hy
  have : a + 1 ≤ b := Nat.lt_of_mul_lt_mul_left h
  calc u * a + u = u * (a + 1) := by ring
    _ ≤ u * b := Nat.mul_le_mul_left u this

/-- A request rounded down to whole units is one (R88). -/
theorem wholeUnits_dvd (cfg : Config) (k : Nat) : cfg.unitSize ∣ wholeUnits cfg k := Dvd.intro_left _ rfl

/-- A request of a unit or more does not round to nothing (R107). -/
theorem wholeUnits_pos {cfg : Config} {k : Nat} (hu : 0 < cfg.unitSize) (h : cfg.unitSize ≤ k) :
    cfg.unitSize ≤ wholeUnits cfg k :=
  Nat.le_mul_of_pos_left _ (Nat.div_pos h hu)

section
variable {cfg : Config} {n : Instance}

/-- The live bytes are a whole number of units (R29 (ii)). -/
theorem Instance.Inv.avail_dvd (h : n.Inv cfg) : cfg.unitSize ∣ n.avail := by
  rw [avail_eq h.head_lt h.tail_lt]
  split
  · exact Nat.dvd_sub h.head_dvd h.tail_dvd
  · exact Nat.dvd_sub (Nat.dvd_add h.head_dvd h.c_dvd) h.tail_dvd

/-- The unit at HEAD does not cross the end of BUF (R54). -/
theorem Instance.Inv.head_unit_le (h : n.Inv cfg) : n.head + cfg.unitSize ≤ n.c :=
  unit_gap h.head_dvd h.c_dvd h.head_lt

/-- HEAD after an accepted PUSH, without the modulus. -/
theorem Instance.Inv.next_head (h : n.Inv cfg) :
    (n.head + cfg.unitSize) % n.c = if n.head + cfg.unitSize = n.c then 0 else n.head + cfg.unitSize := by
  have := h.head_unit_le
  split
  · rename_i e; rw [e, Nat.mod_self]
  · exact Nat.mod_eq_of_lt (by omega)

/-- TAIL after a commit, without the modulus (R105). -/
theorem Instance.Inv.next_tail (h : n.Inv cfg) :
    (n.tail + n.pend) % n.c = if n.tail + n.pend = n.c then 0 else n.tail + n.pend := by
  have := h.span_le
  split
  · rename_i e; rw [e, Nat.mod_self]
  · exact Nat.mod_eq_of_lt (by omega)

/-- The commit of a lazy advance takes the span off the live bytes (R105). -/
theorem Instance.Inv.commit_avail (h : n.Inv cfg) : n.commit.avail = n.avail - n.pend := by
  have h1 := h.head_lt; have h2 := h.tail_lt; have h3 := h.span_le; have h4 := h.pend_le
  have hc : n.commit.tail < n.commit.c := Nat.mod_lt _ (by show 0 < n.c; omega)
  rw [avail_eq (n := n.commit) h1 hc]
  rw [avail_eq h1 h2] at h4 ⊢
  show (if (n.tail + n.pend) % n.c ≤ n.head then n.head - (n.tail + n.pend) % n.c
    else n.head + n.c - (n.tail + n.pend) % n.c) = _
  rw [h.next_tail]
  split at h4 <;> split <;> split <;> omega

/-- What RECV does to the cursors (R104 to R107): the old span off the live bytes, the new one at their front. -/
theorem Instance.Inv.consume_avail (h : n.Inv cfg) (k : Nat) : (n.consume cfg k).avail = n.avail - n.pend :=
  h.commit_avail

/-- TAIL after a commit is an offset (R26). -/
theorem Instance.Inv.commit_tail_lt (h : n.Inv cfg) : n.commit.tail < n.c :=
  Nat.mod_lt _ (Nat.lt_of_le_of_lt (Nat.zero_le _) h.head_lt)

/-- TAIL after a commit is a unit's offset (R29 (ii)). -/
theorem Instance.Inv.commit_tail_dvd (h : n.Inv cfg) : cfg.unitSize ∣ n.commit.tail :=
  (Nat.dvd_mod_iff h.c_dvd).mpr (Nat.dvd_add h.tail_dvd h.pend_dvd)

/-- The size of a span is a whole number of units, inside the live bytes and before the end of BUF (R106). -/
theorem Instance.Inv.spanSize_spec (h : n.Inv cfg) (k : Nat) :
    cfg.unitSize ∣ n.commit.spanSize cfg k ∧ n.commit.spanSize cfg k ≤ n.commit.avail ∧
      n.commit.tail + n.commit.spanSize cfg k ≤ n.c := by
  have hd : cfg.unitSize ∣ n.commit.avail := by
    rw [h.commit_avail]; exact Nat.dvd_sub h.avail_dvd h.pend_dvd
  have ht := h.commit_tail_lt
  have hcd : cfg.unitSize ∣ n.commit.c - n.commit.tail := Nat.dvd_sub h.c_dvd h.commit_tail_dvd
  have hw := wholeUnits_dvd cfg k
  have hcc : n.commit.c = n.c := rfl
  unfold Instance.spanSize
  split
  · exact ⟨Nat.dvd_zero _, Nat.zero_le _, by omega⟩
  · refine ⟨?_, by omega, by omega⟩
    rcases Nat.le_total (wholeUnits cfg k) (min n.commit.avail (n.commit.c - n.commit.tail)) with e | e
    · rw [Nat.min_eq_left e]; exact hw
    · rw [Nat.min_eq_right e]
      rcases Nat.le_total n.commit.avail (n.commit.c - n.commit.tail) with e | e
      · rw [Nat.min_eq_left e]; exact hd
      · rw [Nat.min_eq_right e]; exact hcd

/-- A PUSH whose new HEAD would meet TAIL (R101, R103). -/
theorem pushUnit_drop (h : (n.head + cfg.unitSize) % n.c = n.tail) :
    n.pushUnit cfg = { n with ovf := inc cfg n.ovf, phase := .termchk } := by
  simp only [Instance.pushUnit, h, if_true]

/-- Any other PUSH (R101). -/
theorem pushUnit_accept (h : (n.head + cfg.unitSize) % n.c ≠ n.tail) :
    n.pushUnit cfg =
      { n with buf := memWrite n.buf n.head n.rxUnit, head := (n.head + cfg.unitSize) % n.c, phase := .termchk } := by
  simp only [Instance.pushUnit, h, if_false]

/-- The live bytes after an accepted PUSH (R101). -/
theorem Instance.Inv.push_avail (h : n.Inv cfg) (hu : 0 < cfg.unitSize)
    (hne : (n.head + cfg.unitSize) % n.c ≠ n.tail) : (n.pushUnit cfg).avail = n.avail + cfg.unitSize := by
  have h1 := h.head_lt; have h2 := h.tail_lt; have h3 := h.head_unit_le
  have h4 : n.head < n.tail → n.head + cfg.unitSize ≤ n.tail := unit_gap h.head_dvd h.tail_dvd
  have h5 : (n.head + cfg.unitSize) % n.c < n.c := Nat.mod_lt _ (by omega)
  rw [pushUnit_accept hne]
  show subMod ((n.head + cfg.unitSize) % n.c) n.tail n.c = _
  rw [subMod_eq h5 h2, avail_eq h1 h2]
  rw [h.next_head] at hne ⊢
  split at hne <;> split <;> split <;> first | omega | (split <;> omega)

/-- A live address is outside the unit at HEAD (R101, R29 (v)). -/
theorem Instance.Inv.live_outside (h : n.Inv cfg) {k : Nat} (hk : k < n.avail) :
    (n.tail + k) % n.c < n.head ∨ n.head + cfg.unitSize ≤ (n.tail + k) % n.c := by
  have h1 := h.head_lt; have h2 := h.tail_lt; have h3 := h.head_unit_le; have h5 := h.avail_le
  have h4 : n.head < n.tail → n.head + cfg.unitSize ≤ n.tail := unit_gap h.head_dvd h.tail_dvd
  rw [avail_eq h1 h2] at hk h5
  rw [mod_of_lt_two (by split at hk <;> omega)]
  split at hk <;> split <;> omega

/-- The addresses of the unit at HEAD continue the live region. -/
theorem Instance.Inv.head_addr (h : n.Inv cfg) {k : Nat} (hk : k < cfg.unitSize) :
    (n.tail + (n.avail + k)) % n.c = n.head + k := by
  have h1 := h.head_lt; have h2 := h.tail_lt; have h3 := h.head_unit_le
  rw [avail_eq h1 h2]
  split
  · rw [Nat.mod_eq_of_lt (by omega)]; omega
  · rw [mod_of_lt_two (by omega)]; split <;> omega

/-! ### The live bytes as a queue -/

/-- An accepted PUSH appends its unit to the live bytes (R101, R61). -/
theorem Instance.Inv.push_live (h : n.Inv cfg) (hu : 0 < cfg.unitSize)
    (hne : (n.head + cfg.unitSize) % n.c ≠ n.tail) :
    (n.pushUnit cfg).liveBytes = n.liveBytes ++ n.rxUnit.map some := by
  have hav := h.push_avail hu hne
  have hl := h.unit_len
  unfold Instance.liveBytes
  rw [hav, pushUnit_accept hne]
  apply List.ext_getElem?
  intro k
  rw [List.getElem?_append]
  simp only [List.length_map, List.length_range, List.getElem?_map]
  rcases Nat.lt_or_ge k n.avail with e | e
  · rw [if_pos e, List.getElem?_range (by omega), List.getElem?_range e]
    simp only [Option.map_some]
    rw [memRead_memWrite_outside (by rw [hl]; exact h.live_outside e)]
  · rw [if_neg (by omega)]
    obtain ⟨d, rfl⟩ := Nat.exists_eq_add_of_le e
    rw [Nat.add_sub_cancel_left]
    rcases Nat.lt_or_ge d cfg.unitSize with g | g
    · rw [List.getElem?_range (by omega)]
      simp only [Option.map_some]
      rw [h.head_addr g, memRead_memWrite, if_pos (by omega), Nat.add_sub_cancel_left, List.getElem?_eq_getElem (by omega)]
      rfl
    · rw [List.getElem?_eq_none (by simp; omega), List.getElem?_eq_none (by omega)]; rfl

/-- CONSUME takes the released span off the front (R105, R61). -/
theorem Instance.Inv.consume_live (h : n.Inv cfg) (k : Nat) :
    (n.consume cfg k).liveBytes = n.liveBytes.drop n.pend := by
  have ha := h.consume_avail k
  have hp := h.pend_le
  unfold Instance.liveBytes
  rw [ha]
  apply List.ext_getElem?
  intro j
  simp only [List.getElem?_drop, List.getElem?_map]
  have e : ((n.tail + n.pend) % n.c + j) % n.c = (n.tail + (n.pend + j)) % n.c := by
    rw [Nat.mod_add_mod, Nat.add_assoc]
  rcases Nat.lt_or_ge j (n.avail - n.pend) with g | g
  · rw [List.getElem?_range g, List.getElem?_range (by omega)]
    show some (memRead n.buf (((n.tail + n.pend) % n.c + j) % n.c)) = _
    rw [e]; rfl
  · rw [List.getElem?_eq_none (by simp; omega), List.getElem?_eq_none (by simp; omega)]; rfl

/-- The returned span is the front of the live bytes (R30). -/
theorem Instance.Inv.span_live (h : n.Inv cfg) : n.spanBytes = n.liveBytes.take n.pend := by
  have hp := h.pend_le; have hs := h.span_le
  unfold Instance.spanBytes Instance.liveBytes
  apply List.ext_getElem?
  intro j
  simp only [List.getElem?_take, List.getElem?_map]
  split
  · rename_i g
    rw [List.getElem?_range g, List.getElem?_range (by omega)]
    simp only [Option.map_some]
    rw [Nat.mod_eq_of_lt (by omega)]
  · rw [List.getElem?_eq_none (by simp; omega)]; rfl
end

end Sys2Proof.Machine
end

