-- ==== Sys2Proof/Laws/Invariant.lean ====
section
/-! SUPPORT. Each operation's effect on the instance keeps the invariant. -/
namespace Sys2Proof.Machine

section
variable {cfg : Config} {n : Instance}


/-- A TEI packet keeps the invariant (R132). -/
theorem Instance.Inv.transportError (h : n.Inv cfg) (p : Pid) : (n.transportError cfg p).Inv cfg :=
  { h with
    ct_wf := ctForget_wf h.ct_wf _
    ct_null := by
      show ctGet (ctForget n.ct p.toNat) Config.nullPid.toNat = none
      rw [ctGet_ctForget]; split
      · rfl
      · exact h.ct_null
    terr_lt := inc_lt _ }

/-- An entry other than the null identifier's leaves that one unknown (R31). -/
theorem Instance.Inv.ctSet_null (h : n.Inv cfg) {p : Pid} (hp : p ≠ Config.nullPid) (c : Cc) :
    ctGet (ctSet n.ct p.toNat c) Config.nullPid.toNat = none := by
  rw [ctGet_ctSet, if_neg (fun e => hp (BitVec.eq_of_toNat_eq e))]; exact h.ct_null

/-- A data packet that is not null keeps the invariant (R133 to R136). -/
theorem Instance.Inv.checkContinuity (h : n.Inv cfg) {p : Pid} (hp : p ≠ Config.nullPid) (c : Cc) :
    (n.checkContinuity cfg p c).Inv cfg := by
  have hw := ctSet_wf h.ct_wf (pid_lt_ctSize p) c
  have hn := h.ctSet_null hp c
  unfold Instance.checkContinuity
  split
  · exact { h with ct_wf := hw, ct_null := hn }
  · split
    · exact { h with ct_wf := hw, ct_null := hn }
    · split
      · exact h
      · exact { h with ct_wf := hw, ct_null := hn, cerr_lt := inc_lt _ }

/-- The end of a CC_CHECK keeps the invariant (R130). -/
theorem Instance.Inv.nextPacket (h : n.Inv cfg) (ha : n.isAt .cc = true) : (n.nextPacket cfg).Inv cfg := by
  obtain ⟨hr, hp⟩ := isAt_iff.mp ha
  have hi := h.idx_lt hr hp
  have hne : (if n.rxIdx + 1 = cfg.nTs then Phase.pktcnt else Phase.cc) ≠ .seq := by split <;> simp
  exact { h with
    idx_le := hi
    idx_lt := fun _ (e : (if n.rxIdx + 1 = cfg.nTs then Phase.pktcnt else Phase.cc) = .cc) => by
      show n.rxIdx + 1 < cfg.nTs
      split at e
      · cases e
      · omega
    starting_wait := fun e => by rw [show (n.nextPacket cfg).rxs = n.rxs from rfl, hr] at e; cases e
    seq_rtp := fun _ e => absurd e hne
    dead_wait := fun e => by rw [show (n.nextPacket cfg).rxs = n.rxs from rfl, hr] at e; cases e }

/-- PUSH keeps the invariant (R101, R29). -/
theorem Instance.Inv.pushUnit (h : n.Inv cfg) (hu : 0 < cfg.unitSize) (ha : n.isAt .push = true) :
    (n.pushUnit cfg).Inv cfg := by
  obtain ⟨hr, hp⟩ := isAt_iff.mp ha
  have hrs : ∀ x, x ≠ Rxs.listening → n.rxs ≠ x := fun x hx e => hx (e ▸ hr)
  by_cases hc : (n.head + cfg.unitSize) % n.c = n.tail
  · rw [pushUnit_drop hc]
    exact { h with
      ovf_lt := inc_lt _
      idx_lt := fun _ e => nomatch e
      starting_wait := fun e => absurd e (hrs _ (by simp))
      seq_rtp := fun _ e => nomatch e
      dead_wait := fun e => absurd e (hrs _ (by simp)) }
  · have hav := h.push_avail hu hc
    have hl := h.unit_len
    have hle := h.head_unit_le
    have hod := h.avail_dvd
    rw [pushUnit_accept hc] at hav ⊢
    exact { h with
      head_lt := Nat.mod_lt _ (Nat.lt_of_le_of_lt (Nat.zero_le _) h.head_lt)
      head_dvd := (Nat.dvd_mod_iff h.c_dvd).mpr (Nat.dvd_add h.head_dvd (Nat.dvd_refl _))
      pend_le := by rw [hav]; exact Nat.le_trans h.pend_le (Nat.le_add_right _ _)
      avail_le := by
        rw [hav]
        show _ ≤ n.c
        have h1 := h.avail_le
        have h2 : n.avail + cfg.unitSize ≠ n.c := by
          intro e; apply hc
          have := head_of_avail h.head_lt h.tail_lt
          rw [h.next_head]
          rw [avail_eq h.head_lt h.tail_lt] at e
          have := h.head_lt; have := h.tail_lt
          split at e <;> split <;> omega
        exact unit_gap (Nat.dvd_add hod (Nat.dvd_refl _)) h.c_dvd (by omega)
      buf_wf := memWrite_wf h.buf_wf _ _
      buf_lt := fun x hx => by
        rcases mem_memWrite hx with hx | hx
        · exact h.buf_lt x hx
        · show x.1 < n.c; omega
      live_pushed := fun k hk => by
        rw [hav] at hk
        show (memRead (memWrite n.buf n.head n.rxUnit) ((n.tail + k) % n.c)).isSome
        rcases Nat.lt_or_ge k n.avail with e | e
        · rw [memRead_memWrite_outside (by rw [hl]; exact h.live_outside e)]; exact h.live_pushed k e
        · obtain ⟨d, rfl⟩ := Nat.exists_eq_add_of_le e
          rw [h.head_addr (by omega), memRead_memWrite, if_pos (by omega)]
          simp; omega
      idx_lt := fun _ e => nomatch e
      starting_wait := fun e => absurd e (hrs _ (by simp))
      seq_rtp := fun _ e => nomatch e
      dead_wait := fun e => absurd e (hrs _ (by simp)) }

/-- CONSUME keeps the invariant (R104, R29). -/
theorem Instance.Inv.consume (h : n.Inv cfg) (k : Nat) : (n.consume cfg k).Inv cfg := by
  have ⟨s1, s2, s3⟩ := h.spanSize_spec k
  have ha := h.consume_avail k
  have hc : n.commit.avail = (n.consume cfg k).avail := rfl
  exact { h with
    tail_lt := h.commit_tail_lt
    tail_dvd := h.commit_tail_dvd
    pend_dvd := s1
    span_le := s3
    pend_le := s2
    avail_le := by rw [ha]; exact Nat.le_trans (by omega) h.avail_le
    live_pushed := fun j hj => by
      rw [ha] at hj
      have := h.live_pushed (n.pend + j) (by omega)
      have e : ((n.tail + n.pend) % n.c + j) % n.c = (n.tail + (n.pend + j)) % n.c := by
        rw [Nat.mod_add_mod, Nat.add_assoc]
      show (memRead n.buf (((n.tail + n.pend) % n.c + j) % n.c)).isSome
      rw [e]; exact this }

/-- FLUSH keeps the invariant (R202). -/
theorem Instance.Inv.flushAll (h : n.Inv cfg) : (n.flushAll).Inv cfg := by
  have hz : n.flushAll.avail = 0 := by
    show subMod n.head n.head n.c = 0
    rw [subMod_eq h.head_lt h.head_lt]; simp
  have hm : 0 < cfg.cntMod := Nat.two_pow_pos _
  exact { h with
    tail_lt := h.head_lt
    tail_dvd := h.head_dvd
    pend_dvd := Nat.dvd_zero _
    span_le := Nat.le_of_lt h.head_lt
    pend_le := Nat.zero_le _
    avail_le := by rw [hz]; show 0 + _ ≤ n.c; have := h.c_ge; omega
    live_pushed := fun k hk => by rw [hz] at hk; omega
    ct_wf := ctClear_wf
    ct_null := rfl
    pkt_lt := hm, terr_lt := hm, nerr_lt := hm, cerr_lt := hm, ovf_lt := hm }

/-- A fresh instance of a legal capacity meets the invariant (R38, R231). -/
theorem freshInstance_inv {cap : Nat} (k : Nat) (hw : cfg.wf) (hc : capLegal cfg cap) :
    (freshInstance cfg cap k).Inv cfg := by
  have hu := unitSize_pos hw
  have hz : (freshInstance cfg cap k).avail = 0 := by
    show subMod 0 0 (cap + cfg.unitSize) = 0
    rw [subMod_eq (by omega) (by omega)]; simp
  have hm : 0 < cfg.cntMod := Nat.two_pow_pos _
  have hcd : cfg.unitSize ∣ cap := Nat.dvd_of_mod_eq_zero hc.1
  exact {
    c_dvd := Nat.dvd_add hcd (Nat.dvd_refl _)
    c_ge := Nat.le_add_left _ _
    c_le := hc.2
    head_lt := by show 0 < cap + cfg.unitSize; omega
    tail_lt := by show 0 < cap + cfg.unitSize; omega
    head_dvd := Nat.dvd_zero _
    tail_dvd := Nat.dvd_zero _
    pend_dvd := Nat.dvd_zero _
    span_le := Nat.zero_le _
    pend_le := Nat.zero_le _
    avail_le := by rw [hz]; show 0 + _ ≤ cap + cfg.unitSize; omega
    buf_wf := List.Pairwise.nil
    buf_lt := fun _ hx => nomatch hx
    live_pushed := fun k hk => by rw [hz] at hk; omega
    ct_wf := ctClear_wf
    ct_null := rfl
    pkt_lt := hm, terr_lt := hm, nerr_lt := hm, cerr_lt := hm, ovf_lt := hm
    unit_len := by simp [freshInstance]
    idx_le := Nat.le_of_lt_succ (Nat.mod_lt _ (Nat.succ_pos _))
    idx_lt := fun e => nomatch e
    starting_wait := fun _ => rfl
    seq_rtp := fun e => nomatch e
    term_set := fun e => by rcases e with e | e <;> cases e
    dead_wait := fun e => nomatch e }

/-- SEQ_CHECK keeps the invariant (R150). -/
theorem Instance.Inv.checkSeq (h : n.Inv cfg) (hw : cfg.wf) (ha : n.isAt .seq = true) : (n.checkSeq cfg).Inv cfg := by
  obtain ⟨hr, hp⟩ := isAt_iff.mp ha
  have hrs : ∀ x, x ≠ Rxs.listening → n.rxs ≠ x := fun x hx e => hx (e ▸ hr)
  have hb : ({ n with seq := some n.rxSeq, rxIdx := 0, phase := .cc } : Instance).Inv cfg :=
    { h with
      idx_le := Nat.zero_le _
      idx_lt := fun _ _ => hw.1
      starting_wait := fun e => absurd e (hrs _ (by simp))
      seq_rtp := fun _ e => nomatch e
      dead_wait := fun e => absurd e (hrs _ (by simp)) }
  unfold Instance.checkSeq
  split
  · exact hb
  · dsimp only; split
    · exact hb
    · exact { hb with nerr_lt := inc_lt _, ct_wf := ctClear_wf, ct_null := rfl }

/-- PKT_COUNT keeps the invariant (R180). -/
theorem Instance.Inv.countPacket (h : n.Inv cfg) (ha : n.isAt .pktcnt = true) : (n.countPacket cfg).Inv cfg := by
  obtain ⟨hr, -⟩ := isAt_iff.mp ha
  have hrs : ∀ x, x ≠ Rxs.listening → n.rxs ≠ x := fun x hx e => hx (e ▸ hr)
  unfold Instance.countPacket
  split
  all_goals exact { h with
    pkt_lt := addCount_lt _ _
    idx_lt := fun _ e => nomatch e
    starting_wait := fun e => absurd e (hrs _ (by simp))
    seq_rtp := fun _ e => nomatch e
    dead_wait := fun e => absurd e (hrs _ (by simp)) }

/-- New engine registers keep the invariant where they meet its clauses about the engine (R35, R170). -/
theorem Instance.Inv.setEngine (h : n.Inv cfg) (r : Rxs) (p : Phase) (k : RxKind) (q : SeqNo) (u : List Byte) (x : Nat)
    (unit_len : u.length = cfg.unitSize) (idx_le : x ≤ cfg.nTs) (idx_lt : r = .listening → p = .cc → x < cfg.nTs)
    (starting_wait : r = .starting → p = .wait) (seq_rtp : r = .listening → p = .seq → k = .rtp)
    (term_set : r = .terminating ∨ r = .stopped → n.term = true) (dead_wait : r = .dead → p = .wait) :
    ({ n with rxs := r, phase := p, rxKind := k, rxSeq := q, rxUnit := u, rxIdx := x } : Instance).Inv cfg :=
  { h with
    unit_len := unit_len, idx_le := idx_le, idx_lt := idx_lt, starting_wait := starting_wait, seq_rtp := seq_rtp,
    term_set := term_set, dead_wait := dead_wait }

/-- CC_CHECK always finds its packet (R81). -/
theorem Instance.Inv.tsWordAt_some (h : n.Inv cfg) (hi : n.rxIdx < cfg.nTs) :
    ∃ w, tsWordAt n.rxUnit n.rxIdx = some w := by
  have hl := h.unit_len
  have : 4 ≤ (n.rxUnit.drop (Config.tsPkt * n.rxIdx)).length := by
    rw [List.length_drop, hl, Config.unitSize]
    have : Config.tsPkt * (n.rxIdx + 1) ≤ Config.tsPkt * cfg.nTs := Nat.mul_le_mul_left _ hi
    simp only [Config.tsPkt] at *; omega
  unfold tsWordAt
  match n.rxUnit.drop (Config.tsPkt * n.rxIdx), this with
  | a :: b :: c :: d :: _, _ => exact ⟨_, rfl⟩

end

end Sys2Proof.Machine
end

