-- ==== Sys2Proof/Laws/Exec.lean ====
section
/-! SUPPORT. One lemma per meaning that branches, one for all meanings together, and one per turn of the engine, each
saying once everything it can do. -/
namespace Sys2Proof.Machine

/-! ### Commands and reads -/

/-- Everything an answered OPEN can do (R230). -/
theorem open_cases {arg : BitVec 32} {s t : State} (h : execOpen arg s = .next t) :
    ((∃ n, s.inst = some n) ∧ t = s.answer .badState 0x8#4) ∨
    (s.inst = none ∧ capLegal s.cfg arg.toNat ∧
      t = ((s.setInst (freshInstance s.cfg arg.toNat s.draws)).countDraw).answer .ok 0x8#4) ∨
    (s.inst = none ∧ ¬ capLegal s.cfg arg.toNat ∧ t = s.answer .capFail 0x8#4) := by
  unfold execOpen at h
  cases hi : s.inst with
  | some n => simp only [hi] at h; cases h; exact .inl ⟨⟨n, rfl⟩, rfl⟩
  | none =>
    simp only [hi] at h
    split at h <;> cases h
    · exact .inr (.inl ⟨rfl, by assumption, rfl⟩)
    · exact .inr (.inr ⟨rfl, by assumption, rfl⟩)

/-- Everything an answered CLOSE can do (R233). -/
theorem close_cases {s t : State} (h : execClose s = .next t) :
    ((s.served ∈ s.overtaken ∨ s.inst = none ∧ s.served ∈ s.closing) ∧ t = s.endClose.answer .badState 0x9#4) ∨
    (s.inst = none ∧ ¬ s.outstanding s.served ∧ t = s.answer .badState 0x9#4) ∨
    ∃ n, s.inst = some n ∧ s.served ∉ s.overtaken ∧
      ((s.served ∉ s.closing ∧ t = { s.setInst { n with term := true } with closing := s.served :: s.closing }) ∨
       (s.served ∈ s.closing ∧ (n.rxs = .stopped ∨ n.rxs = .dead) ∧ t = s.dropInst.endClose.answer .ok 0x9#4) ∨
       (s.served ∈ s.closing ∧ ¬ (n.rxs = .stopped ∨ n.rxs = .dead) ∧ t = s)) := by
  unfold execClose closeEnd closeBegin closeOvertaken at h
  split at h
  · cases h; exact .inl ⟨.inl (by assumption), rfl⟩
  · rename_i ho
    cases hi : s.inst with
    | none =>
      simp only [hi] at h
      split at h <;> rename_i hc <;> cases h
      · exact .inl ⟨.inr ⟨rfl, hc⟩, rfl⟩
      · exact .inr (.inl ⟨rfl, fun e => e.elim hc ho, rfl⟩)
    | some n =>
      simp only [hi] at h
      refine .inr (.inr ⟨n, rfl, ho, ?_⟩)
      split at h
      · split at h
        · cases h; exact .inr (.inl ⟨by assumption, by assumption, rfl⟩)
        · cases h; exact .inr (.inr ⟨by assumption, by assumption, rfl⟩)
      · cases h; exact .inl ⟨by assumption, rfl⟩

/-- Everything an answered BREAD can do (R204). -/
theorem bread_cases {a : BitVec 32} {s t : State} (h : execBread a s = .next t) :
    ∃ n, s.inst = some n ∧ a.toNat < n.c ∧
      ((∃ b, n.inSpan a.toNat = true ∧ memRead n.buf a.toNat = some b ∧ t = s.respondByte b) ∨
        t = (s.respondByte (Config.freeByte s.draws)).countDraw) := by
  unfold execBread at h
  split at h
  · cases h
  · rename_i n hn
    split at h
    · rename_i ha
      refine ⟨n, hn, ha, ?_⟩
      split at h
      · rename_i b hb
        split at hb
        · exact .inl ⟨b, by assumption, hb, (Host.Outcome.next.inj h).symm⟩
        · cases hb
      · exact .inr (Host.Outcome.next.inj h).symm
    · cases h

/-! ### The engine's branching operations -/

/-- Everything an answered CLASSIFY can do (R174). -/
theorem classify_cases {s t : State} (h : execClassify s = .next t) :
    ∃ n, s.inst = some n ∧ n.isAt .wait = true ∧
      ((s.offer = none ∧ t = s) ∨
        ∃ m, t = ({ s with offer := none } : State).setInst m ∧
          (m = { n with phase := .termchk } ∨ m = { n with rxs := .dead } ∨
            (∃ q u, m = { n with rxKind := .rtp, rxSeq := q, rxUnit := u, phase := .seq }) ∨
            ∃ u, m = { n with rxKind := .bare, rxUnit := u, rxIdx := 0, phase := .cc })) := by
  unfold execClassify at h
  split at h
  · cases h
  · rename_i n hn
    split at h
    · rename_i ha
      refine ⟨n, hn, ha, ?_⟩
      split at h
      · cases h; exact .inl ⟨by assumption, rfl⟩
      · right
        split at h
        · rename_i e _ _
          have key : ∀ f, engineStep { s with offer := none } (Instance.isAt .wait) f = .next t →
              t = ({ s with offer := none } : State).setInst (f n) := by
            intro f hf
            rw [engineStep_some (s := { s with offer := none }) hn ha] at hf
            exact (Host.Outcome.next.inj hf).symm
          cases e with
          | idle => exact ⟨_, key _ h, .inl rfl⟩
          | rxerr => exact ⟨_, key _ h, .inr (.inl rfl)⟩
          | dgram l d =>
            simp only [classifyEvent, classifyDatagram] at h
            split at h
            · exact ⟨_, key _ h, .inr (.inl rfl)⟩
            · split at h
              · exact ⟨_, key _ h, .inr (.inr (.inl ⟨_, _, rfl⟩))⟩
              · cases h
            · exact ⟨_, key _ h, .inr (.inr (.inr ⟨_, rfl⟩))⟩
            · exact ⟨_, key _ h, .inl rfl⟩
        · cases h
    · cases h

/-- An answered CC_CHECK is that of the packet's class (R130). -/
theorem ccCheck_cases {s t : State} (h : execCcCheck s = .next t) :
    ∃ n w, s.inst = some n ∧ n.isAt .cc = true ∧ tsWordAt n.rxUnit n.rxIdx = some w ∧
      (execTsNull (TsHeader.ofWord w) s = .next t ∨ execTsTei (TsHeader.ofWord w) s = .next t ∨
        execTsData (TsHeader.ofWord w) s = .next t) := by
  unfold execCcCheck at h
  split at h
  · cases h
  · rename_i n hn
    split at h
    · rename_i ha
      split at h
      · cases h
      · rename_i w hw
        refine ⟨n, w, hn, ha, hw, ?_⟩
        simp only at h
        split at h <;> simp [h]
    · cases h

/-! ### All operations together -/

/-- Everything an operation can leave of the instance it finds, where one is left. -/
inductive Effect (cfg : Config) (n : Instance) : Instr → Instance → Prop
  | same {i : Instr} (h : i ≠ .push) : Effect cfg n i n
  | recv {a : BitVec 32} : Effect cfg n (.recv a) (n.consume cfg a.toNat)
  | flush : Effect cfg n .flush n.flushAll
  | close : Effect cfg n .close { n with term := true }
  | push (h : n.isAt .push = true) : Effect cfg n .push (n.pushUnit cfg)
  | seqCheck (h : n.isAt .seq = true) : Effect cfg n .seqCheck (n.checkSeq cfg)
  | pktCount (h : n.isAt .pktcnt = true) : Effect cfg n .pktCount (n.countPacket cfg)
  | tsNull {i : Instr} {h : TsHeader} (hi : i = .tsNull h ∨ i = .ccCheck) (ha : n.isAt .cc = true) :
    Effect cfg n i (n.nextPacket cfg)
  | tsTei {i : Instr} {h : TsHeader} (hi : i = .tsTei h ∨ i = .ccCheck) (ha : n.isAt .cc = true) :
    Effect cfg n i ((n.transportError cfg h.pid).nextPacket cfg)
  | tsData {i : Instr} {h : TsHeader} (hi : i = .tsData h ∨ i = .ccCheck) (ha : n.isAt .cc = true) :
    Effect cfg n i ((n.checkContinuity cfg h.pid h.cc).nextPacket cfg)
  | rxs {i : Instr} {r : Rxs} {p : Phase}
    (hi : (∃ p, i = .start p) ∨ i = .termCheck ∨ (∃ p, i = .exit p) ∨ i = .classify ∨ i = .dgFatalL0 ∨
      ∃ l, i = .dgFatalRxerr l) :
    Effect cfg n i { n with rxs := r, phase := p }
  | ignore {i : Instr} (hi : i = .classify ∨ (∃ l, i = .idle l) ∨ ∃ l d, i = .dgOther l d) :
    Effect cfg n i { n with phase := .termchk }
  | rtp {i : Instr} {q : SeqNo} {u : List Byte} (hi : i = .classify ∨ ∃ h d, i = .dgRtp h d) :
    Effect cfg n i { n with rxKind := .rtp, rxSeq := q, rxUnit := u, phase := .seq }
  | bare {i : Instr} {u : List Byte} (hi : i = .classify ∨ ∃ d, i = .dgBare d) :
    Effect cfg n i { n with rxKind := .bare, rxUnit := u, rxIdx := 0, phase := .cc }

/-- An operation that answers, in an open block that stays open, has one of those effects. -/
theorem effect_of_next {s t : State} {i : Instr} {n m : Instance} (h : exec i s = .next t) (hn : s.inst = some n)
    (hm : t.inst = some m) : Effect s.cfg n i m := by
  have key : ∀ {sel f}, engineStep s sel f = .next t → sel n = true ∧ m = f n := by
    intro sel f hf
    obtain ⟨n', hn', hs, rfl⟩ := engineStep_next.mp hf
    rw [hn] at hn'; cases hn'; simp at hm; exact ⟨hs, hm.symm⟩
  have wo : ∀ {o f}, withOpen o s f = .next t → t = f n := by
    intro o f hf
    obtain ⟨h', _⟩ | ⟨n', h', rfl⟩ := withOpen_next.mp hf
    · simp [hn] at h'
    · rw [hn] at h'; cases h'; rfl
  have same : t.inst = s.inst → m = n := by intro e; rw [hn, hm] at e; exact Option.some.inj e
  have ill : ∀ {o}, answerIllegal o s = .next t → m = n := by intro o e; apply same; cases e; rfl
  cases i with
  | recv a => have := wo h; subst this; simp at hm; subst hm; exact .recv
  | flush => have := wo h; subst this; simp at hm; subst hm; exact .flush
  | getstats => have := wo h; subst this; simp at hm; rw [hn] at hm; cases hm; exact .same (by simp)
  | openCmd a =>
    obtain ⟨_, rfl⟩ | ⟨h', _⟩ | ⟨h', _⟩ := open_cases h
    · obtain rfl := same rfl; exact .same (by simp)
    · simp [hn] at h'
    · simp [hn] at h'
  | close =>
    obtain ⟨-, rfl⟩ | ⟨h', -, rfl⟩ | ⟨n', h', -, ⟨hc, rfl⟩ | ⟨hc, hr, rfl⟩ | ⟨hc, hr, rfl⟩⟩ := close_cases h
    · obtain rfl := same rfl; exact .same (by simp)
    · simp [hn] at h'
    · rw [hn] at h'; cases h'; simp at hm; subst hm; exact .close
    · simp at hm
    · obtain rfl := same rfl; exact .same (by simp)
  | bread a =>
    have : t.inst = s.inst := by obtain ⟨_, -, -, ⟨b, -, -, rfl⟩ | rfl⟩ := bread_cases h <;> rfl
    obtain rfl := same this; exact .same (by simp)
  | tsNull a => obtain ⟨ha, rfl⟩ := key h; exact .tsNull (h := a) (by simp) ha
  | tsTei a => obtain ⟨ha, rfl⟩ := key h; exact .tsTei (by simp) ha
  | tsData a => obtain ⟨ha, rfl⟩ := key h; exact .tsData (by simp) ha
  | start p =>
    obtain ⟨-, hh⟩ := key h
    cases ht : n.term <;> simp [ht] at hh <;> subst hh <;> rw [← ht] <;> exact .rxs (by simp)
  | classify =>
    obtain ⟨n', hn', -, ⟨ho, rfl⟩ | ⟨m', rfl, hm'⟩⟩ := classify_cases h
    · obtain rfl := same rfl; exact .same (by simp)
    · rw [hn] at hn'; cases hn'; simp at hm; subst hm
      obtain rfl | rfl | ⟨_, _, rfl⟩ | ⟨_, rfl⟩ := hm'
      · exact .ignore (by simp)
      · exact .rxs (by simp)
      · exact .rtp (by simp)
      · exact .bare (by simp)
  | seqCheck => obtain ⟨ha, rfl⟩ := key h; exact .seqCheck ha
  | ccCheck =>
    obtain ⟨n', w, -, -, -, h | h | h⟩ := ccCheck_cases h
    · obtain ⟨ha, rfl⟩ := key h; exact .tsNull (h := TsHeader.ofWord w) (by simp) ha
    · obtain ⟨ha, rfl⟩ := key h; exact .tsTei (by simp) ha
    · obtain ⟨ha, rfl⟩ := key h; exact .tsData (by simp) ha
  | pktCount => obtain ⟨ha, rfl⟩ := key h; exact .pktCount ha
  | push => obtain ⟨ha, rfl⟩ := key h; exact .push ha
  | termCheck =>
    obtain ⟨-, hh⟩ := key h
    cases ht : n.term <;> simp [ht] at hh <;> subst hh <;> rw [← ht] <;> exact .rxs (by simp)
  | dgFatalL0 | dgFatalRxerr _ | exit _ => obtain ⟨-, rfl⟩ := key h; exact .rxs (by simp)
  | idle _ | dgOther _ _ => obtain ⟨-, rfl⟩ := key h; exact .ignore (by simp)
  | dgRtp _ _ => obtain ⟨-, rfl⟩ := key h; exact .rtp (by simp)
  | dgBare _ => obtain ⟨-, rfl⟩ := key h; exact .bare (by simp)
  | illegalOpc0 _ _ | illegalOpc4 _ _ | illegalOpc5 _ _ | illegalOpc6 _ _ | illegalOpc7 _ _ | illegalOpcA _ _
  | illegalOpcB _ _ | illegalOpcC _ _ | illegalOpcD _ _ | illegalOpcE _ _ | illegalOpcF _ _ | illegalRsv _ _ _ =>
    obtain rfl := ill h; exact .same (by simp)

/-- Only CLOSE destroys an instance (R233). -/
theorem inst_survives {s t : State} {i : Instr} {n : Instance} (hn : s.inst = some n) (h : exec i s = .next t)
    (hc : i ≠ .close) : ∃ m, t.inst = some m := by
  have key : ∀ {sel f}, engineStep s sel f = .next t → ∃ m, t.inst = some m := by
    intro sel f hf
    obtain ⟨n', hn', hs, rfl⟩ := engineStep_next.mp hf
    exact ⟨_, rfl⟩
  have wo : ∀ {o f}, withOpen o s f = .next t → t = f n := by
    intro o f hf
    obtain ⟨h', _⟩ | ⟨n', h', rfl⟩ := withOpen_next.mp hf
    · simp [hn] at h'
    · rw [hn] at h'; cases h'; rfl
  have ill : ∀ {o}, answerIllegal o s = .next t → ∃ m, t.inst = some m := by intro o e; cases e; exact ⟨n, hn⟩
  cases i with
  | recv a => have := wo h; subst this; exact ⟨_, rfl⟩
  | flush => have := wo h; subst this; exact ⟨_, rfl⟩
  | getstats => have := wo h; subst this; exact ⟨n, hn⟩
  | openCmd a =>
    obtain ⟨_, rfl⟩ | ⟨h', _⟩ | ⟨h', _⟩ := open_cases h
    · exact ⟨n, hn⟩
    · simp [hn] at h'
    · simp [hn] at h'
  | close => exact absurd rfl hc
  | bread a => obtain ⟨_, -, -, ⟨b, -, -, rfl⟩ | rfl⟩ := bread_cases h <;> exact ⟨n, hn⟩
  | classify =>
    obtain ⟨n', hn', -, ⟨ho, rfl⟩ | ⟨m', rfl, hm'⟩⟩ := classify_cases h
    · exact ⟨n, hn⟩
    · exact ⟨_, rfl⟩
  | ccCheck => obtain ⟨n', w, -, -, -, h | h | h⟩ := ccCheck_cases h <;> exact key h
  | _ => first | exact key h | exact ill h

/-- No operation changes the parameters (R6). -/
theorem exec_cfg {s t : State} {i : Instr} (h : exec i s = .next t) : t.cfg = s.cfg := by
  have key : ∀ {sel f}, engineStep s sel f = .next t → t.cfg = s.cfg := by
    intro sel f hf; obtain ⟨n, _, -, rfl⟩ := engineStep_next.mp hf; rfl
  have ill : ∀ {o}, answerIllegal o s = .next t → t.cfg = s.cfg := by intro o e; cases e; rfl
  cases i with
  | recv _ | flush | getstats => obtain ⟨_, rfl⟩ | ⟨_, _, rfl⟩ := withOpen_next.mp h <;> rfl
  | openCmd _ => obtain ⟨_, rfl⟩ | ⟨_, -, rfl⟩ | ⟨_, -, rfl⟩ := open_cases h <;> rfl
  | close => obtain ⟨-, rfl⟩ | ⟨_, -, rfl⟩ | ⟨_, _, -, ⟨_, rfl⟩ | ⟨_, _, rfl⟩ | ⟨_, _, rfl⟩⟩ := close_cases h <;> rfl
  | bread _ => obtain ⟨_, -, -, ⟨_, -, -, rfl⟩ | rfl⟩ := bread_cases h <;> rfl
  | classify => obtain ⟨_, _, -, ⟨_, rfl⟩ | ⟨_, rfl, -⟩⟩ := classify_cases h <;> rfl
  | ccCheck => obtain ⟨_, _, -, -, -, h | h | h⟩ := ccCheck_cases h <;> exact key h
  | _ => first | exact key h | exact ill h

/-- Only OPEN creates an instance (R230). -/
theorem inst_created {s t : State} {i : Instr} (h : exec i s = .next t) (hn : s.inst = none)
    (ht : t.inst.isSome = true) : ∃ a, i = .openCmd a := by
  have same : t.inst = s.inst → False := by intro e; simp [e, hn] at ht
  have key : ∀ {sel f}, engineStep s sel f = .next t → False := by
    intro sel f hf; obtain ⟨n, h', -⟩ := engineStep_next.mp hf; simp [hn] at h'
  have ill : ∀ {o}, answerIllegal o s = .next t → False := by intro o e; apply same; cases e; rfl
  have wo : ∀ {o f}, withOpen o s f = .next t → False := by
    intro o f hf
    obtain ⟨_, rfl⟩ | ⟨_, h', _⟩ := withOpen_next.mp hf
    · exact same rfl
    · simp [hn] at h'
  cases i with
  | openCmd a => exact ⟨a, rfl⟩
  | close =>
    obtain ⟨-, rfl⟩ | ⟨_, -, rfl⟩ | ⟨_, h', -⟩ := close_cases h
    · exact (same rfl).elim
    · exact (same rfl).elim
    · simp [hn] at h'
  | bread _ => obtain ⟨_, h', -⟩ := bread_cases h; simp [hn] at h'
  | classify => obtain ⟨_, h', -⟩ := classify_cases h; simp [hn] at h'
  | ccCheck => obtain ⟨_, _, h', -⟩ := ccCheck_cases h; simp [hn] at h'
  | _ => first | exact (key h).elim | exact (ill h).elim | exact (wo h).elim

/-! ### Turns and steps -/

/-- The turn of an engine that has a step (R170, R91), and of one that has none. -/
theorem engineTurn_eq {s : State} {n : Instance} (h : s.inst = some n) :
    engineTurn s =
      match n.rxs, n.phase with
      | .starting, p => execStart (phaseCode p) s
      | .listening, .wait => execClassify s
      | .listening, .seq => execSeqCheck s
      | .listening, .cc => execCcCheck s
      | .listening, .pktcnt => execPktCount s
      | .listening, .push => execPush s
      | .listening, .termchk => execTermCheck s
      | .terminating, p => execExit (phaseCode p) s
      | .stopped, _ => .next s
      | .dead, _ => .next s := by
  simp only [engineTurn, h, runFrame, decode, decodeStep, stepSelector, stepWord_rxs, stepWord_phase]
  cases n.rxs <;> cases n.phase <;> rfl

/-- A closed block has no engine (R21). -/
theorem engineTurn_closed {s : State} (h : s.inst = none) : engineTurn s = .next s := by
  simp only [engineTurn, h]

/-- Turns one after the other. -/
theorem engineTurns_add (a b : Nat) (s : State) :
    engineTurns (a + b) s =
      match engineTurns a s with
      | .next t => engineTurns b t
      | .fault r => .fault r
      | .refused r => .refused r := by
  induction a generalizing s with
  | zero => simp [engineTurns]
  | succ a ih =>
    rw [Nat.succ_add]
    simp only [engineTurns]
    cases engineTurn s with
    | next t => exact ih t
    | fault r => rfl
    | refused r => rfl

/-- A step serves the head of the schedule. -/
theorem step_cons {s : State} {r : Request} {rest : List Request} (h : s.sched = r :: rest) :
    step s = serve r { s with sched := rest } := by
  simp only [step, serveNext, h]

/-- An offered event is kept for an engine that is there and has not ended, and else lost (R183). -/
theorem offerEvent_cases (e : Event) (s : State) :
    (s.offerEvent e = s ∧ (s.inst = none ∨ ∃ n, s.inst = some n ∧ (n.rxs = .stopped ∨ n.rxs = .dead))) ∨
    (s.offerEvent e = { s with offer := some e } ∧ ∃ n, s.inst = some n ∧ ¬ (n.rxs = .stopped ∨ n.rxs = .dead)) := by
  unfold State.offerEvent
  split
  · rename_i hi; exact .inl ⟨rfl, .inl hi⟩
  · rename_i n hi
    split
    · exact .inl ⟨rfl, .inr ⟨n, hi, by assumption⟩⟩
    · exact .inr ⟨rfl, n, hi, by assumption⟩

/-- A step with nothing scheduled changes nothing. -/
theorem step_nil {s : State} (h : s.sched = []) : step s = .next s := by
  simp only [step, serveNext, h]

/-! ### Reading a span -/

/-- A BREAD inside the returned span answers the byte BUF holds there (R52, R29). -/
theorem readByte_span {s : State} {n : Instance} (h : s.Inv) (hi : s.inst = some n) {k : Nat} (hk : k < n.pend) :
    readByte s (n.tail + k) = memRead n.buf (n.tail + k) := by
  have hn := h.inst_inv n hi
  have hs := hn.span_le
  have ha : (BitVec.ofNat 32 (n.tail + k)).toNat = n.tail + k := by
    rw [BitVec.toNat_ofNat]; exact Nat.mod_eq_of_lt (Nat.lt_of_lt_of_le (by omega) hn.c_le)
  have hb := hn.live_pushed k (Nat.lt_of_lt_of_le hk hn.pend_le)
  rw [Nat.mod_eq_of_lt (show n.tail + k < n.c by omega)] at hb
  obtain ⟨b, hb⟩ := Option.isSome_iff_exists.mp hb
  have hin : n.inSpan (n.tail + k) = true := by simp [Instance.inSpan, hk]
  simp only [readByte, exec, execBread, hi, ha, if_pos (show n.tail + k < n.c by omega), hin, if_true, hb,
    State.respondByte]

/-- Reading the returned span gives its bytes. -/
theorem readSpan_eq {s : State} {n : Instance} (h : s.Inv) (hi : s.inst = some n) : readSpan s = n.spanBytes := by
  simp only [readSpan, hi, Instance.spanBytes]
  exact List.map_congr_left fun k hk => readByte_span h hi (List.mem_range.mp hk)

end Sys2Proof.Machine
end

