-- ==== Sys2Proof/Laws/PerInstr.lean ====
section
/-! SUPPORT. The laws made per operation: each encoded operation matches its row of spec/opcode_table.json. -/
namespace Sys2Proof.Laws.MatchesItsRow

/-- The formats of spec/opcode_table.json. -/
inductive Format where
  | cmd64
  | bread32
  | ingress18
  | tshdr32
  | step6
  deriving DecidableEq, Repr

/-- The format of a frame. -/
def format : Frame → Format
  | .cmd64 _ => .cmd64
  | .bread32 _ => .bread32
  | .ingress18 _ _ => .ingress18
  | .tshdr32 _ => .tshdr32
  | .step6 _ => .step6

/-- The number a row's match and mask are compared with. -/
def number : Frame → Nat
  | .cmd64 w => w.toNat
  | .bread32 a => a.toNat
  | .ingress18 w _ => w.toNat
  | .tshdr32 w => w.toNat
  | .step6 w => w.toNat

/-- A run of bits a row fixes. -/
structure Fixed where
  lo : Nat
  width : Nat
  value : Nat

/-- Whether a number has the bits a row fixes. -/
abbrev Fixed.holds (f : Fixed) (v : Nat) : Prop := v / 2 ^ f.lo % 2 ^ f.width = f.value

/-- The row of an operation: its format and the bits it fixes, as the table's match and mask give them at this spec's
parameter values. -/
def row : Instr → Format × List Fixed
  | .recv _ => (.cmd64, [⟨0, 32, 0x1⟩])
  | .flush => (.cmd64, [⟨0, 64, 0x2⟩])
  | .getstats => (.cmd64, [⟨0, 64, 0x3⟩])
  | .openCmd _ => (.cmd64, [⟨0, 32, 0x8⟩])
  | .close => (.cmd64, [⟨0, 64, 0x9⟩])
  | .illegalOpc0 _ _ => (.cmd64, [⟨0, 4, 0x0⟩])
  | .illegalOpc4 _ _ => (.cmd64, [⟨0, 4, 0x4⟩])
  | .illegalOpc5 _ _ => (.cmd64, [⟨0, 4, 0x5⟩])
  | .illegalOpc6 _ _ => (.cmd64, [⟨0, 4, 0x6⟩])
  | .illegalOpc7 _ _ => (.cmd64, [⟨0, 4, 0x7⟩])
  | .illegalOpcA _ _ => (.cmd64, [⟨0, 4, 0xA⟩])
  | .illegalOpcB _ _ => (.cmd64, [⟨0, 4, 0xB⟩])
  | .illegalOpcC _ _ => (.cmd64, [⟨0, 4, 0xC⟩])
  | .illegalOpcD _ _ => (.cmd64, [⟨0, 4, 0xD⟩])
  | .illegalOpcE _ _ => (.cmd64, [⟨0, 4, 0xE⟩])
  | .illegalOpcF _ _ => (.cmd64, [⟨0, 4, 0xF⟩])
  | .illegalRsv _ _ _ => (.cmd64, [])
  | .bread _ => (.bread32, [])
  | .dgFatalL0 => (.ingress18, [⟨0, 18, 0x0⟩])
  | .dgFatalRxerr _ => (.ingress18, [⟨16, 2, 0x1⟩])
  | .idle _ => (.ingress18, [⟨16, 2, 0x2⟩])
  | .dgRtp _ _ => (.ingress18, [⟨0, 18, 0x530⟩])
  | .dgBare _ => (.ingress18, [⟨0, 18, 0x524⟩])
  | .dgOther _ _ => (.ingress18, [⟨16, 2, 0x0⟩])
  | .tsNull _ => (.tshdr32, [⟨8, 13, 0x1FFF⟩])
  | .tsTei _ => (.tshdr32, [⟨23, 1, 0x1⟩])
  | .tsData _ => (.tshdr32, [])
  | .start _ => (.step6, [⟨3, 3, 0x0⟩])
  | .classify => (.step6, [⟨0, 6, 0x8⟩])
  | .seqCheck => (.step6, [⟨0, 6, 0x9⟩])
  | .ccCheck => (.step6, [⟨0, 6, 0xA⟩])
  | .pktCount => (.step6, [⟨0, 6, 0xB⟩])
  | .push => (.step6, [⟨0, 6, 0xC⟩])
  | .termCheck => (.step6, [⟨0, 6, 0xD⟩])
  | .exit _ => (.step6, [⟨3, 3, 0x2⟩])

/-- A well-formed operation is encoded in its row's format with the bits its row fixes. -/
def Statement (i : Instr) : Prop :=
  i.wf Config.spec = true → format (encode i) = (row i).1 ∧ ∀ f ∈ (row i).2, f.holds (number (encode i))

/-- A row that fixes nothing. -/
theorem of_none {i : Instr} (h1 : format (encode i) = (row i).1) (h2 : (row i).2 = []) : Statement i :=
  fun _ => ⟨h1, by rw [h2]; exact fun _ hf => nomatch hf⟩

/-- A row that fixes one run of bits. -/
theorem of_one {i : Instr} {f : Fixed} (h1 : format (encode i) = (row i).1) (h2 : (row i).2 = [f])
    (h : i.wf Config.spec = true → f.holds (number (encode i))) : Statement i :=
  fun hw => ⟨h1, by rw [h2]; intro g hg; rw [List.mem_singleton] at hg; rw [hg]; exact h hw⟩

theorem recv (arg : BitVec 32) : Statement (.recv arg) := of_one rfl rfl fun _ => by
  simp only [Fixed.holds, number, encode, cmdWord_toNat, BitVec.toNat_ofNat]; omega
theorem flush : Statement .flush := of_one rfl rfl fun _ => by decide
theorem getstats : Statement .getstats := of_one rfl rfl fun _ => by decide
theorem openCmd (arg : BitVec 32) : Statement (.openCmd arg) := of_one rfl rfl fun _ => by
  simp only [Fixed.holds, number, encode, cmdWord_toNat, BitVec.toNat_ofNat]; omega
theorem close : Statement .close := of_one rfl rfl fun _ => by decide
theorem illegalOpc0 (rsv : BitVec 28) (arg : BitVec 32) : Statement (.illegalOpc0 rsv arg) := of_one rfl rfl fun _ => by
  simp only [Fixed.holds, number, encode, cmdWord_toNat, BitVec.toNat_ofNat]; omega
theorem illegalOpc4 (rsv : BitVec 28) (arg : BitVec 32) : Statement (.illegalOpc4 rsv arg) := of_one rfl rfl fun _ => by
  simp only [Fixed.holds, number, encode, cmdWord_toNat, BitVec.toNat_ofNat]; omega
theorem illegalOpc5 (rsv : BitVec 28) (arg : BitVec 32) : Statement (.illegalOpc5 rsv arg) := of_one rfl rfl fun _ => by
  simp only [Fixed.holds, number, encode, cmdWord_toNat, BitVec.toNat_ofNat]; omega
theorem illegalOpc6 (rsv : BitVec 28) (arg : BitVec 32) : Statement (.illegalOpc6 rsv arg) := of_one rfl rfl fun _ => by
  simp only [Fixed.holds, number, encode, cmdWord_toNat, BitVec.toNat_ofNat]; omega
theorem illegalOpc7 (rsv : BitVec 28) (arg : BitVec 32) : Statement (.illegalOpc7 rsv arg) := of_one rfl rfl fun _ => by
  simp only [Fixed.holds, number, encode, cmdWord_toNat, BitVec.toNat_ofNat]; omega
theorem illegalOpcA (rsv : BitVec 28) (arg : BitVec 32) : Statement (.illegalOpcA rsv arg) := of_one rfl rfl fun _ => by
  simp only [Fixed.holds, number, encode, cmdWord_toNat, BitVec.toNat_ofNat]; omega
theorem illegalOpcB (rsv : BitVec 28) (arg : BitVec 32) : Statement (.illegalOpcB rsv arg) := of_one rfl rfl fun _ => by
  simp only [Fixed.holds, number, encode, cmdWord_toNat, BitVec.toNat_ofNat]; omega
theorem illegalOpcC (rsv : BitVec 28) (arg : BitVec 32) : Statement (.illegalOpcC rsv arg) := of_one rfl rfl fun _ => by
  simp only [Fixed.holds, number, encode, cmdWord_toNat, BitVec.toNat_ofNat]; omega
theorem illegalOpcD (rsv : BitVec 28) (arg : BitVec 32) : Statement (.illegalOpcD rsv arg) := of_one rfl rfl fun _ => by
  simp only [Fixed.holds, number, encode, cmdWord_toNat, BitVec.toNat_ofNat]; omega
theorem illegalOpcE (rsv : BitVec 28) (arg : BitVec 32) : Statement (.illegalOpcE rsv arg) := of_one rfl rfl fun _ => by
  simp only [Fixed.holds, number, encode, cmdWord_toNat, BitVec.toNat_ofNat]; omega
theorem illegalOpcF (rsv : BitVec 28) (arg : BitVec 32) : Statement (.illegalOpcF rsv arg) := of_one rfl rfl fun _ => by
  simp only [Fixed.holds, number, encode, cmdWord_toNat, BitVec.toNat_ofNat]; omega
theorem illegalRsv (opc : BitVec 4) (rsv : BitVec 28) (arg : BitVec 32) : Statement (.illegalRsv opc rsv arg) := of_none rfl rfl
theorem bread (a : BitVec 32) : Statement (.bread a) := of_none rfl rfl
theorem dgFatalL0 : Statement .dgFatalL0 := of_one rfl rfl fun _ => by decide
theorem dgFatalRxerr (l : BitVec 16) : Statement (.dgFatalRxerr l) := of_one rfl rfl fun _ => by
  have := l.isLt
  simp only [Fixed.holds, number, encode, ingressWord_toNat, BitVec.toNat_ofNat]; omega
theorem idle (l : BitVec 16) : Statement (.idle l) := of_one rfl rfl fun _ => by
  have := l.isLt
  simp only [Fixed.holds, number, encode, ingressWord_toNat, BitVec.toNat_ofNat]; omega
theorem dgRtp (h : RtpHeader) (payload : List Byte) : Statement (.dgRtp h payload) := of_one rfl rfl fun hw => by
  have hl : payload.length = 1316 := by simp [Instr.wf] at hw; exact hw.1
  simp only [Fixed.holds, number, encode, hl, Config.rtpHdr]; decide
theorem dgBare (payload : List Byte) : Statement (.dgBare payload) := of_one rfl rfl fun hw => by
  have hl : payload.length = 1316 := by simp [Instr.wf] at hw; exact hw.1.1
  simp only [Fixed.holds, number, encode, hl]; decide
theorem dgOther (l : BitVec 16) (d : List Byte) : Statement (.dgOther l d) := of_one rfl rfl fun _ => by
  have := l.isLt
  simp only [Fixed.holds, number, encode, ingressWord_toNat, BitVec.toNat_ofNat]; omega
theorem tsNull (h : TsHeader) : Statement (.tsNull h) := of_one rfl rfl fun hw => by
  have h1 : h.pid = Config.nullPid := by simpa [Instr.wf] using hw
  have h2 := congrArg TsHeader.pid (TsHeader.ofWord_toWord h)
  rw [h1] at h2
  have h3 := congrArg BitVec.toNat h2
  simp only [TsHeader.ofWord, BitVec.extractLsb'_toNat, Nat.shiftRight_eq_div_pow] at h3
  simpa [Fixed.holds, number, encode, Config.nullPid] using h3
theorem tsTei (h : TsHeader) : Statement (.tsTei h) := of_one rfl rfl fun hw => by
  have h1 : h.tei = 1#1 := by simp [Instr.wf] at hw; exact hw.2
  have h2 := congrArg TsHeader.tei (TsHeader.ofWord_toWord h)
  rw [h1] at h2
  have h3 := congrArg BitVec.toNat h2
  simp only [TsHeader.ofWord, BitVec.extractLsb'_toNat, Nat.shiftRight_eq_div_pow] at h3
  simpa [Fixed.holds, number, encode] using h3
theorem tsData (h : TsHeader) : Statement (.tsData h) := of_none rfl rfl
theorem start (phase : BitVec 3) : Statement (.start phase) := of_one rfl rfl fun _ => by
  have := phase.isLt
  simp only [Fixed.holds, number, encode, stepWord_toNat, BitVec.toNat_ofNat]; omega
theorem classify : Statement .classify := of_one rfl rfl fun _ => by decide
theorem seqCheck : Statement .seqCheck := of_one rfl rfl fun _ => by decide
theorem ccCheck : Statement .ccCheck := of_one rfl rfl fun _ => by decide
theorem pktCount : Statement .pktCount := of_one rfl rfl fun _ => by decide
theorem push : Statement .push := of_one rfl rfl fun _ => by decide
theorem termCheck : Statement .termCheck := of_one rfl rfl fun _ => by decide
theorem exit (phase : BitVec 3) : Statement (.exit phase) := of_one rfl rfl fun _ => by
  have := phase.isLt
  simp only [Fixed.holds, number, encode, stepWord_toNat, BitVec.toNat_ofNat]; omega

end Sys2Proof.Laws.MatchesItsRow
end

