-- ==== Sys2Proof/Tests/Slice0.lean ====
section
/-! SUPPORT. Tests: ill-formed operations are refused, words written out from the spec's encodings decode, the vectors of
spec/95_test_vectors.md, and for each statement with hypotheses a state that meets them. -/
namespace Sys2Proof.Tests
open Sys2Proof.Machine

/- One declaration at a time: a proof by kernel evaluation holds a thread while it waits for the ones before it. -/
set_option Elab.async false

/-! ### Helpers -/

/-- A block of one TS packet a unit (U = 188, L_RTP = 200), 8-bit counters, two consumers. -/
def cfg1 : Config := { nTs := 1, cntW := 8, pktCountMode := .perUnit, arbGran := .micro, nCons := 2 }

/-- N_TS too large for any datagram to be a unit. -/
def cfgWide : Config := { cfg1 with nTs := 400 }

def zeros (k : Nat) : List Byte := List.replicate k 0#8

/-- An empty ring of three units in a waiting engine. -/
def base : Instance where
  c := 752
  head := 0
  tail := 0
  pend := 0
  buf := []
  ct := []
  seq := none
  pkt := 0
  terr := 0
  nerr := 0
  cerr := 0
  ovf := 0
  rxs := .listening
  phase := .wait
  rxKind := .bare
  rxSeq := 0#16
  rxUnit := zeros 188
  rxIdx := 0
  term := false

/-- The state of the block cfg1 with instance n. -/
def at1 (n : Instance) : State := { State.reset with cfg := cfg1, inst := some n }

/-- The state of cfg1's block about to check packet i of unit u, with counter 2 known for PID 0x100. -/
def atCc (i : Nat) (u : List Byte) : State :=
  at1 { base with phase := .cc, rxIdx := i, ct := [(0x100, 2#4)], rxUnit := u }

/-- cfg1's block, closed. -/
def closed1 : State := { State.reset with cfg := cfg1 }

/-- The state at this spec's parameters with a ring of C bytes. -/
def spec7 (c : Nat) (f : Instance → Instance) : State := { State.reset with inst := some (f { base with c := c, rxUnit := [] }) }

/-- A part of the state an outcome leaves. -/
def after {α : Type} (o : Host.Outcome State Fault Refusal) (f : State → α) : Option α :=
  match o with
  | .next t => some (f t)
  | .fault _ => none
  | .refused _ => none

/-- A part of the instance an outcome leaves. -/
def afterInst {α : Type} (o : Host.Outcome State Fault Refusal) (f : Instance → α) : Option α :=
  match o with
  | .next t => t.inst.map f
  | .fault _ => none
  | .refused _ => none

/-- The header with PID p, TEI e and counter c. -/
def hdr (p : Pid) (e : BitVec 1) (c : Cc) : TsHeader := ⟨0x47#8, e, 0#1, 0#1, p, 0#2, 1#2, c⟩

/-- The engine somewhere else. -/
def engineAt (r : Rxs) (p : Phase) (n : Instance) : Instance := { n with rxs := r, phase := p }

/-- The state of cfg1's block with this engine and event. -/
def offering (n : Instance) (e : Event) : State := { at1 n with offer := some e }

/-- cfg1's block with the CLOSEs of both consumers held. -/
def closingState (n : Instance) : State := { offering { n with term := true } .idle with closing := [0, 1] }

/-! ### WellFormed refuses an ill-formed operation at each check (R73, R78, R86) -/

theorem test_wf_illegalRsv :
    Instr.wf cfg1 (.illegalRsv 0x4#4 1#28 0#32) = false ∧ Instr.wf cfg1 (.illegalRsv 0x1#4 0#28 1#32) = false ∧
    Instr.wf cfg1 (.illegalRsv 0x2#4 0#28 0#32) = false ∧ Instr.wf cfg1 (.illegalRsv 0x9#4 0#28 1#32) = true := by decide

theorem test_wf_dgRtp :
    Instr.wf cfg1 (.dgRtp ⟨0, 0, 0, 0⟩ (zeros 187)) = false ∧ Instr.wf cfg1 (.dgRtp ⟨0, 0, 0, 0⟩ (zeros 188)) = true := by
  decide +kernel

theorem test_wf_dgRtp_wide : Instr.wf cfgWide (.dgRtp ⟨0, 0, 0, 0⟩ (zeros 75200)) = false := by
  simp [Instr.wf, cfgWide, Config.lRtp, Config.unitSize, Config.tsPkt, Config.rtpHdr]

theorem test_wf_dgBare :
    Instr.wf cfg1 (.dgBare (zeros 189)) = false ∧ Instr.wf { cfg1 with nTs := 0 } (.dgBare []) = false := by decide +kernel

theorem test_wf_dgBare_wide : Instr.wf cfgWide (.dgBare (zeros 75200)) = false := by
  simp [Instr.wf, cfgWide, Config.unitSize, Config.tsPkt]

theorem test_wf_dgOther :
    Instr.wf cfg1 (.dgOther 2#16 (zeros 1)) = false ∧ Instr.wf cfg1 (.dgOther 0#16 []) = false ∧
    Instr.wf cfg1 (.dgOther 188#16 (zeros 188)) = false ∧ Instr.wf cfg1 (.dgOther 200#16 (zeros 200)) = false ∧
    Instr.wf cfg1 (.dgOther 187#16 (zeros 187)) = true := by decide +kernel

theorem test_wf_ts :
    Instr.wf cfg1 (.tsNull (hdr 0x100#13 0#1 3#4)) = false ∧ Instr.wf cfg1 (.tsTei (hdr 0x1FFF#13 1#1 3#4)) = false ∧
    Instr.wf cfg1 (.tsTei (hdr 0x100#13 0#1 3#4)) = false ∧ Instr.wf cfg1 (.tsData (hdr 0x1FFF#13 0#1 3#4)) = false ∧
    Instr.wf cfg1 (.tsData (hdr 0x100#13 1#1 3#4)) = false := by decide

/-! ### Words written out from the spec's encodings decode to what they stand for, every constructor once -/

/-- R71, R72 with the words of V-ENC-1, 8, 12, 14, 16. -/
theorem test_decode_commands :
    decodeCmd 0x0000052400000001#64 = .recv 1316#32 ∧ decodeCmd 0x0000000000000002#64 = .flush ∧
    decodeCmd 0x0000000000000003#64 = .getstats ∧ decodeCmd 0x0000149000000008#64 = .openCmd 5264#32 ∧
    decodeCmd 0x0000000000000009#64 = .close := by decide

/-- R72, R73 with the words of V-ENC-18 to 24; bits 31:4 and 63:32 are kept. -/
theorem test_decode_illegal :
    decodeCmd 0x0000000000000000#64 = .illegalOpc0 0#28 0#32 ∧ decodeCmd 0x0000000000000004#64 = .illegalOpc4 0#28 0#32 ∧
    decodeCmd 0x0000000100000025#64 = .illegalOpc5 2#28 1#32 ∧ decodeCmd 0x0000000000000006#64 = .illegalOpc6 0#28 0#32 ∧
    decodeCmd 0x0000000000000007#64 = .illegalOpc7 0#28 0#32 ∧ decodeCmd 0x000000000000000A#64 = .illegalOpcA 0#28 0#32 ∧
    decodeCmd 0x000000000000000B#64 = .illegalOpcB 0#28 0#32 ∧ decodeCmd 0x000000000000000C#64 = .illegalOpcC 0#28 0#32 ∧
    decodeCmd 0x000000000000000D#64 = .illegalOpcD 0#28 0#32 ∧ decodeCmd 0x000000000000000E#64 = .illegalOpcE 0#28 0#32 ∧
    decodeCmd 0x000000000000000F#64 = .illegalOpcF 0#28 0#32 ∧
    decodeCmd 0x0000000000000011#64 = .illegalRsv 0x1#4 1#28 0#32 ∧
    decodeCmd 0x0000000100000002#64 = .illegalRsv 0x2#4 0#28 1#32 ∧
    decodeCmd 0x0000000100000009#64 = .illegalRsv 0x9#4 0#28 1#32 := by decide

/-- R204: a BREAD request is its offset. -/
theorem test_decode_bread : decode Config.spec (.bread32 0x00000528#32) = .ok (.bread 1320#32) := rfl

/-- R91: KIND in bits 17:16, L in bits 15:0; V-CL-1 to 4. -/
theorem test_decode_events :
    decodeIngress Config.spec 0x00000#18 [] = .ok .dgFatalL0 ∧ decodeIngress Config.spec 0x10000#18 [] = .ok (.dgFatalRxerr 0#16) ∧
    decodeIngress Config.spec 0x20000#18 [] = .ok (.idle 0#16) ∧
    decodeIngress Config.spec 0x00001#18 [0xAB#8] = .ok (.dgOther 1#16 [0xAB#8]) := ⟨rfl, rfl, rfl, rfl⟩

/-- R78, R79: 1328 bytes are RTP, the sequence number in d[2], d[3] (V-CL-11: 256, not 1), the unit from d[12] on. -/
theorem test_decode_rtp :
    decodeIngress Config.spec 0x00530#18
      ([0x80#8, 0x21#8, 0x01#8, 0x00#8, 1#8, 2#8, 3#8, 4#8, 5#8, 6#8, 7#8, 8#8] ++ zeros 1316) =
      .ok (.dgRtp ⟨0x8021#16, 256#16, 0x01020304#32, 0x05060708#32⟩ (zeros 1316)) := by decide +kernel

/-- R78: 1316 bytes are bare (V-CL-7), 1315 and 1317 are not (V-CL-6, V-CL-8). -/
theorem test_decode_bare :
    decodeIngress Config.spec 0x00524#18 (zeros 1316) = .ok (.dgBare (zeros 1316)) ∧
    decodeIngress Config.spec 0x00523#18 (zeros 1315) = .ok (.dgOther 1315#16 (zeros 1315)) ∧
    decodeIngress Config.spec 0x00525#18 (zeros 1317) = .ok (.dgOther 1317#16 (zeros 1317)) := by decide +kernel

/-- R82, R86 with the headers of V-CC-1, 7, 10, 14, 15. -/
theorem test_decode_headers :
    decodeTs 0x479FFF13#32 = .tsNull (hdr 0x1FFF#13 1#1 3#4) ∧ decodeTs 0x47810017#32 = .tsTei (hdr 0x100#13 1#1 7#4) ∧
    decodeTs 0x47010015#32 = .tsData (hdr 0x100#13 0#1 5#4) ∧
    decodeTs 0x47410018#32 = .tsData { hdr 0x100#13 0#1 8#4 with pusi := 1#1 } ∧
    decodeTs 0x470100F8#32 = .tsData { hdr 0x100#13 0#1 8#4 with tsc := 3#2, afc := 3#2 } := by decide

/-- R91: RXS in bits 5:3, PHASE in bits 2:0. -/
theorem test_decode_steps :
    decodeStep 0x00#6 = .ok (.start 0#3) ∧ decodeStep 0x08#6 = .ok .classify ∧ decodeStep 0x09#6 = .ok .seqCheck ∧
    decodeStep 0x0A#6 = .ok .ccCheck ∧ decodeStep 0x0B#6 = .ok .pktCount ∧ decodeStep 0x0C#6 = .ok .push ∧
    decodeStep 0x0D#6 = .ok .termCheck ∧ decodeStep 0x15#6 = .ok (.exit 5#3) := ⟨rfl, rfl, rfl, rfl, rfl, rfl, rfl, rfl⟩

/-- R34, R35, R77, R91: what is no operation is refused by its name. -/
theorem test_decode_refuses :
    decodeStep 0x18#6 = .error .engineStopped ∧ decodeStep 0x20#6 = .error .engineDead ∧
    decodeStep 0x28#6 = .error .rxsNeverReached ∧ decodeStep 0x0E#6 = .error .phaseNeverReached ∧
    decodeIngress Config.spec 0x30000#18 [] = .error .ingressKindUnused ∧
    decodeIngress Config.spec 0x00002#18 [0#8] = .error .datagramLengthMismatch ∧
    decodeIngress Config.spec 0x20000#18 [0#8] = .error .dataWithoutDatagram := ⟨rfl, rfl, rfl, rfl, rfl, rfl, rfl⟩

/-! ### Placing a table word and stepping (log entry 13) -/

theorem test_table_recv : decodeTableWord 64 0x0000052400000001 = some (.recv 1316#32) := by decide

theorem test_table_push : decodeTableWord 8 0x0C = some .push := by decide

theorem test_step_table_push :
    afterInst (step (State.reset.withFetchWord 8 0x0C)) (fun n => (n.head, n.ovf, n.phase)) =
      some (1316, 0, .termchk) := by decide +kernel

/-- R206: the first RECV after power-on is answered BADSTATE. -/
theorem test_step_table_recv :
    after (step (closed1.withFetchWord 64 0x0000052400000001)) (·.out) = some [.words 0 [0x12#64]] := by decide

/-! ### The command vectors (95, 2.1, 2.6, 2.8) -/

/-- V-ENC-8, V-RING-C1. -/
theorem test_recv_span :
    after (exec (.recv 1316#32) (spec7 6580 fun n => { n with head := 5264 }))
      (fun t => (t.out, t.inst.map fun n => (n.tail, n.pend))) =
      some ([.words 0 [0x0000000000000110#64, 0x0000052400000000#64]], some (0, 1316)) := by decide +kernel

/-- V-RING-C11: the wrapped remainder. -/
theorem test_recv_wraps :
    after (exec (.recv 0xFFFFFFFF#32) (spec7 6580 fun n => { n with head := 1316, tail := 3948, pend := 2632 }))
      (fun t => (t.out, t.inst.map fun n => (n.tail, n.pend))) =
      some ([.words 0 [0x0000000000000110#64, 0x0000052400000000#64]], some (0, 1316)) := by decide +kernel

/-- V-CMD-1. -/
theorem test_flush :
    after (exec .flush (spec7 6580 fun n =>
      { n with head := 2632, pend := 1316, ovf := 3, ct := [(0x100, 7#4)], seq := some 9#16 }))
      (fun t => (t.out, t.inst.map fun n => (n.head, n.tail, n.pend))) =
      some ([.words 0 [0x20#64]], some (2632, 2632, 0)) := by decide +kernel

/-- V-CMD-1, the rest of the quadruple. -/
theorem test_flush_quadruple :
    afterInst (exec .flush (spec7 6580 fun n => { n with ovf := 3, cerr := 2, ct := [(0x100, 7#4)], seq := some 9#16 }))
      (fun n => (n.ovf, n.cerr, n.ct, n.seq)) = some (0, 0, [], none) := by decide +kernel

/-- V-CMD-2. -/
theorem test_getstats :
    after (exec .getstats (spec7 6580 fun n => { n with pkt := 5, ovf := 1, pend := 1316 }))
      (fun t => (t.out, t.inst.map (·.pend))) =
      some ([.words 0 [0x30#64, 5#64, 0#64, 0#64, 0#64, 1#64]], some 1316) := by decide +kernel

/-- V-ENC-5: the largest legal capacity. -/
theorem test_open_largest :
    after (exec (.openCmd 4294964716#32) State.reset) (fun t => (t.out, t.inst.map (·.c))) =
      some ([.words 0 [0x80#64]], some 4294966032) := by decide +kernel

/-- V-ENC-3, V-ENC-6: not a multiple; too large. -/
theorem test_open_capfail :
    after (exec (.openCmd 1315#32) State.reset) (fun t => (t.out, t.inst)) = some ([.words 0 [0x83#64]], none) ∧
    after (exec (.openCmd 4294966032#32) State.reset) (fun t => (t.out, t.inst)) = some ([.words 0 [0x83#64]], none) := by
  decide +kernel

/-- V-CMD-7: CLOSE waits for a waiting engine, with TERM set. -/
theorem test_close_waits :
    after (exec .close (at1 base)) (fun t => (t.out, t.closing, t.inst.map (·.term))) = some ([], [0], some true) := by
  decide +kernel

/-- V-CMD-8: on a dead engine it closes. -/
theorem test_close_dead :
    after (exec .close { at1 { base with rxs := .dead, term := true } with closing := [0] })
      (fun t => (t.out, t.closing, t.inst)) = some ([.words 0 [0x90#64]], [], none) := by decide +kernel

/-- V-CMD-11: the second of two CLOSEs, and again where the block has been opened since (D36). -/
theorem test_close_second :
    after (exec .close { closingState (engineAt .stopped .termchk base) with served := 1 })
      (fun t => (t.out, t.closing, t.overtaken)) = some ([.words 1 [0x90#64]], [], [0]) ∧
    after (exec .close { closed1 with overtaken := [0] }) (fun t => (t.out, t.overtaken)) =
      some ([.words 0 [0x92#64]], []) ∧
    after (exec .close { at1 base with overtaken := [0] }) (fun t => (t.out, t.overtaken, t.inst)) =
      some ([.words 0 [0x92#64]], [], some base) := by decide +kernel

/-- R183: an event offered to a dead engine is lost, one at a waiting engine is not; and none outlives its instance. -/
theorem test_late_events :
    after (step { at1 (engineAt .dead .wait base) with sched := [.offer .idle] }) (·.offer) = some none ∧
    after (step { at1 base with sched := [.offer .idle] }) (·.offer) = some (some .idle) ∧
    after (exec .close (closingState (engineAt .dead .wait base))) (·.offer) = some none := by decide +kernel

/-- V-ENC-18 to 20. -/
theorem test_illegal_opc :
    after (exec (decodeCmd 0x0#64) closed1) (·.out) = some [.words 0 [0x01#64]] ∧
    after (exec (decodeCmd 0x4#64) (at1 base)) (·.out) = some [.words 0 [0x41#64]] ∧
    after (exec (decodeCmd 0xF#64) closed1) (·.out) = some [.words 0 [0xF1#64]] := by decide +kernel

/-- V-ENC-21 to 24: ILLEGAL comes before BADSTATE, and an illegal CLOSE sets no TERM. -/
theorem test_illegal_rsv :
    after (exec (decodeCmd 0x11#64) closed1) (·.out) = some [.words 0 [0x11#64]] ∧
    after (exec (decodeCmd 0x0000000100000002#64) closed1) (·.out) = some [.words 0 [0x21#64]] ∧
    after (exec (decodeCmd 0x0000000100000003#64) closed1) (·.out) = some [.words 0 [0x31#64]] ∧
    after (exec (decodeCmd 0x0000000100000009#64) (at1 base)) (fun t => (t.out, t.inst.map (·.term))) =
      some ([.words 0 [0x91#64]], some false) := by decide +kernel

/-- P1 step 9: a byte of the returned span. -/
theorem test_bread_span :
    after (exec (.bread 4#32) (spec7 6580 fun n => { n with pend := 1316, buf := [(4, 0x01#8)] })) (·.out) =
      some [.byte 0 0x01#8] := by decide +kernel

/-- V-CMD-5, V-CMD-6. -/
theorem test_bread_refused :
    exec (.bread 6580#32) (spec7 6580 id) = .refused .breadOutOfRange ∧
    exec (.bread 0#32) closed1 = .refused .breadOutOfRange := ⟨rfl, rfl⟩

/-! ### The engine vectors (95, 2.2 to 2.5, 2.7) -/

/-- V-CL-10: CLASSIFY of an RTP datagram, here of a one-packet unit. -/
theorem test_classify_rtp :
    afterInst (exec .classify { at1 base with offer := some (.dgram 200#16 ([0#8, 0#8, 0x00#8, 0x64#8] ++ zeros 196)) })
      (fun n => (n.rxKind, n.rxSeq, n.rxUnit, n.phase)) = some (.rtp, 100#16, zeros 188, .seq) := by decide +kernel

/-- V-CL-3, V-CL-2, V-CL-1. -/
theorem test_classify_others :
    afterInst (exec .classify { at1 base with offer := some .idle }) (·.phase) = some .termchk ∧
    afterInst (exec .classify { at1 base with offer := some .rxerr }) (·.rxs) = some .dead ∧
    afterInst (exec .classify { at1 base with offer := some (.dgram 0#16 []) }) (·.rxs) = some .dead := by decide +kernel

/-- V-SEQ-3: 65535 then 0 is in order. -/
theorem test_seq_wrap :
    afterInst (exec .seqCheck (at1 { base with phase := .seq, seq := some 65535#16, rxSeq := 0#16, ct := [(0x100, 7#4)] }))
      (fun n => (n.seq, n.nerr, n.ct, n.rxIdx, n.phase)) = some (some 0#16, 0, [(0x100, 7#4)], 0, .cc) := by decide +kernel

/-- V-SEQ-6. -/
theorem test_seq_gap :
    afterInst (exec .seqCheck (at1 { base with phase := .seq, seq := some 100#16, rxSeq := 105#16, ct := [(0x100, 7#4)] }))
      (fun n => (n.seq, n.nerr, n.ct)) = some (some 105#16, 1, []) := by decide +kernel

/-- V-CC-5 through CC_CHECK: packet 1 of two, the last. -/
theorem test_ccCheck :
    afterInst (exec .ccCheck { atCc 1 (zeros 188 ++ [0x47#8, 0x01#8, 0x00#8, 0x14#8] ++ zeros 184) with
      cfg := { cfg1 with nTs := 2 } }) (fun n => (n.ct, n.terr, n.cerr, n.rxIdx, n.phase)) = some ([(0x100, 4#4)], 0, 1, 2, .pktcnt) := by decide +kernel

/-- V-CC-3 (wrap) and V-CC-13 (an error at 0x1FFE). -/
theorem test_tsData :
    afterInst (exec (decodeTs 0x47010010#32) (at1 { base with phase := .cc, ct := [(0x100, 15#4)] }))
      (fun n => (n.ct, n.cerr)) = some ([(0x100, 0#4)], 0) ∧
    afterInst (exec (decodeTs 0x471FFE19#32) (at1 { base with phase := .cc, ct := [(0x1FFE, 7#4)] }))
      (fun n => (n.ct, n.cerr)) = some ([(0x1FFE, 9#4)], 1) := by decide +kernel

/-- V-CC-7. -/
theorem test_tsTei :
    afterInst (exec (decodeTs 0x47810017#32) (at1 { base with phase := .cc, ct := [(0x100, 6#4)] }))
      (fun n => (n.ct, n.terr, n.cerr)) = some ([], 1, 0) := by decide +kernel

/-- V-CC-10. -/
theorem test_tsNull :
    afterInst (exec (decodeTs 0x479FFF13#32) (at1 { base with phase := .cc }))
      (fun n => (n.ct, n.terr, n.cerr, n.rxIdx)) = some ([], 0, 0, 1) := by decide +kernel

/-- V-RX-2, V-RX-3. -/
theorem test_pktCount :
    afterInst (exec .pktCount { spec7 6580 (fun n => { n with phase := .pktcnt, pkt := 4 }) with
      cfg := { Config.spec with pktCountMode := .perTs } }) (·.pkt) = some 11 ∧
    afterInst (exec .pktCount (spec7 6580 fun n => { n with phase := .pktcnt, pkt := 0xFFFFFFFF }))
      (fun n => (n.pkt, n.phase)) = some (0, .push) := by decide +kernel

/-- V-RING-P4: the write ends at the last byte and HEAD wraps. -/
theorem test_push_wraps :
    afterInst (exec .push (spec7 6580 fun n =>
      { n with phase := .push, head := 5264, tail := 1316, rxUnit := [0xAA#8, 0xBB#8] }))
      (fun n => (n.head, n.ovf, memRead n.buf 5264, memRead n.buf 5265)) =
      some (0, 0, some 0xAA#8, some 0xBB#8) := by decide +kernel

/-- V-RING-P10: a held span still counts, and a drop leaves BUF. -/
theorem test_push_held :
    afterInst (exec .push (spec7 6580 fun n => { n with phase := .push, head := 5264, pend := 5264, rxUnit := [1#8] }))
      (fun n => (n.head, n.ovf, n.buf, n.phase)) = some (5264, 1, [], .termchk) := by decide +kernel

/-- V-RX-4, V-RX-5. -/
theorem test_termCheck :
    afterInst (exec .termCheck (at1 { base with phase := .termchk })) (fun n => (n.rxs, n.phase)) =
      some (.listening, .wait) ∧
    afterInst (exec .termCheck (at1 { base with phase := .termchk, term := true })) (·.rxs) = some .terminating := by
  decide +kernel

/-- V-RX-6, V-RX-7. -/
theorem test_start :
    afterInst (exec (.start 0#3) (at1 { base with rxs := .starting })) (fun n => (n.rxs, n.phase)) =
      some (.listening, .wait) ∧
    afterInst (exec (.start 0#3) (at1 { base with rxs := .starting, term := true })) (·.rxs) = some .terminating := by
  decide +kernel

/-- V-RX-8. -/
theorem test_exit :
    afterInst (exec (.exit 5#3) (at1 { base with rxs := .terminating, phase := .termchk })) (·.rxs) = some .stopped := by
  decide +kernel

/-! ### Witnesses: for each statement with hypotheses, states and operands that meet them, clause by clause -/

/-- One unit of zeros pushed into cfg1's ring. -/
def pushed (n : Instance) : Instance :=
  ({ n with rxs := .listening, phase := .push, rxUnit := zeros 188 } : Instance).pushUnit cfg1

/-- Two units live. -/
def two : Instance := pushed (pushed base)

/-- The ring full: three units live. -/
def full : Instance := pushed two

/-- The second of three units held: TAIL = 188, PEND = 188, one unit live behind it. -/
def held : Instance := (full.consume cfg1 188).consume cfg1 188

/-- cfg1 under ARB_GRAN = UNIT, with an event to be taken. -/
def unitState : State :=
  { offering base (.dgram 188#16 (zeros 188)) with cfg := { cfg1 with arbGran := .unit }, sched := [.engine] }

/-- An outcome goes on. -/
def goesOn (o : Host.Outcome State Fault Refusal) : Bool :=
  match o with
  | .next _ => true
  | .fault _ => false
  | .refused _ => false

theorem exists_next {o : Host.Outcome State Fault Refusal} (h : goesOn o = true) : ∃ t, o = .next t := by
  cases o with
  | next t => exact ⟨t, rfl⟩
  | fault _ => cases h
  | refused _ => cases h

theorem base_inv (g : ArbGran) : base.Inv { cfg1 with arbGran := g } := by
  have hw : ({ cfg1 with arbGran := g } : Config).wf := by cases g <;> decide
  have hc : capLegal { cfg1 with arbGran := g } 564 := by cases g <;> decide
  have hu : (zeros 188).length = ({ cfg1 with arbGran := g } : Config).unitSize := by cases g <;> decide +kernel
  exact (freshInstance_inv 0 hw hc).setEngine .listening .wait .bare 0#16 (zeros 188) 0 hu (Nat.zero_le _) nofun nofun
    nofun nofun nofun

theorem listening_inv {n : Instance} (h : n.Inv cfg1) (p : Phase) (u : List Byte) (hu : u.length = cfg1.unitSize)
    (hp : p ≠ .seq) (hc : n.rxIdx < 1) :
    ({ n with rxs := .listening, phase := p, rxUnit := u } : Instance).Inv cfg1 :=
  h.setEngine .listening p n.rxKind n.rxSeq u n.rxIdx hu h.idx_le (fun _ _ => hc) nofun (fun _ e => absurd e hp) nofun
    nofun

theorem engineAt_inv {n : Instance} (h : n.Inv cfg1) (p : Phase) (hp : p ≠ .seq) (hc : n.rxIdx < 1) :
    (engineAt .listening p n).Inv cfg1 :=
  listening_inv h p n.rxUnit h.unit_len hp hc

theorem pushed_inv {n : Instance} (h : n.Inv cfg1) (hc : n.rxIdx < 1) : (pushed n).Inv cfg1 :=
  (listening_inv h .push (zeros 188) (by decide +kernel) nofun hc).pushUnit (by decide) rfl

theorem full_inv : full.Inv cfg1 :=
  pushed_inv (pushed_inv (pushed_inv (base_inv .micro) (by decide)) (by decide +kernel)) (by decide +kernel)

theorem held_inv : held.Inv cfg1 := (full_inv.consume 188).consume 188

theorem cfg1_wf : cfg1.wf := by decide

theorem at1_inv {n : Instance} (h : n.Inv cfg1) : (at1 n).Inv where
  cfg_wf := cfg1_wf
  outstanding_nodup := List.nodup_nil
  outstanding_lt := by rintro c (h | h) <;> cases h
  closing_term h := absurd rfl h
  closed_port := nofun
  offer_wf := nofun
  inst_inv := by rintro m ⟨⟩; exact h

theorem offering_inv {n : Instance} (h : n.Inv cfg1) {e : Event} (he : eventWf e = true) : (offering n e).Inv :=
  { at1_inv h with
    closed_port := nofun
    offer_wf := by rintro _ ⟨⟩; exact he }

theorem closingState_inv {n : Instance} (h : n.Inv cfg1) : (closingState n).Inv :=
  { offering_inv (n := { n with term := true }) { h with term_set := fun _ => rfl } (e := .idle) rfl with
    outstanding_nodup := show ([0, 1] : List Nat).Nodup by decide
    outstanding_lt := by
      rintro c (h | h)
      · exact (by decide : ∀ c ∈ [0, 1], c < 2) c h
      · cases h
    closing_term := fun _ => ⟨_, rfl, rfl⟩ }

/-- The ring states behind the witnesses are what their names say. -/
theorem witness_rings :
    (full.avail, full.head, full.tail, full.pend) = (564, 564, 0, 0) ∧
    (held.avail, held.head, held.tail, held.pend) = (376, 564, 188, 188) := by decide +kernel

theorem witness_DecodeOfEncode :
    (Instr.dgRtp ⟨1, 2, 3, 4⟩ (zeros 188)).wf cfg1 = true ∧ (Instr.dgBare (zeros 188)).wf cfg1 = true ∧
    (Instr.dgOther 201#16 (zeros 201)).wf cfg1 = true ∧ (Instr.illegalRsv 0x3#4 0#28 1#32).wf cfg1 = true ∧
    (Instr.tsNull (hdr 0x1FFF#13 1#1 3#4)).wf cfg1 = true ∧ (Instr.tsTei (hdr 0x1FFE#13 1#1 3#4)).wf cfg1 = true ∧
    (Instr.tsData (hdr 0#13 0#1 3#4)).wf cfg1 = true := by decide +kernel

theorem witness_EncodeOfDecode :
    decode cfg1 (.ingress18 200#18 (zeros 200)) = .ok (.dgRtp ⟨0, 0, 0, 0⟩ (zeros 188)) ∧
    decode cfg1 (.ingress18 0x2FFFF#18 []) = .ok (.idle 0xFFFF#16) ∧
    decode cfg1 (.step6 0x17#6) = .ok (.exit 7#3) := by decide +kernel

/-- Words on both sides of each bound of R73: the first word of each pair is illegal, the second is not. -/
theorem witness_IllegalWordsByTheirBits :
    decodeCmd 0x0#64 = .illegalOpc0 0#28 0#32 ∧ decodeCmd 0x1#64 = .recv 0#32 ∧
    decodeCmd 0x4#64 = .illegalOpc4 0#28 0#32 ∧ decodeCmd 0x3#64 = .getstats ∧
    decodeCmd 0x7#64 = .illegalOpc7 0#28 0#32 ∧ decodeCmd 0x8#64 = .openCmd 0#32 ∧
    decodeCmd 0xA#64 = .illegalOpcA 0#28 0#32 ∧ decodeCmd 0x9#64 = .close ∧
    decodeCmd 0xFFFFFFFFFFFFFFF1#64 = .illegalRsv 0x1#4 0xFFFFFFF#28 0xFFFFFFFF#32 ∧
    decodeCmd 0xFFFFFFFF00000001#64 = .recv 0xFFFFFFFF#32 ∧
    decodeCmd 0x8000000000000002#64 = .illegalRsv 0x2#4 0#28 0x80000000#32 ∧ decodeCmd 0x2#64 = .flush := by decide

theorem witness_StepRunsTheDecodedOperation :
    (let s := { closed1 with sched := [.command 1 0x1#64], closing := [0] }
     1 < s.cfg.nCons ∧ ¬ s.outstanding 1 ∧ decode s.cfg (.cmd64 0x1#64) = .ok (.recv 0#32)) ∧
    (let s := { at1 base with sched := [.bread 1 0#32] }
     1 < s.cfg.nCons ∧ decode s.cfg (.bread32 0#32) = .ok (.bread 0#32)) ∧
    (let s := { closed1 with sched := [.resume 0], closing := [0] }
     s.sched = [.resume 0] ∧ s.outstanding 0) ∧
    (let s := { at1 full with sched := [.engine] }
     s.cfg.arbGran = .micro ∧ decode s.cfg (.step6 (stepSelector full)) = .ok .termCheck) ∧
    (let s := { offering base (.dgram 1#16 [7#8]) with sched := [.engine] }
     s.cfg.arbGran = .micro ∧ base.rxs = .listening ∧ base.phase = .wait ∧
       decode s.cfg (eventFrame (.dgram 1#16 [7#8])) = .ok (.dgOther 1#16 [7#8])) ∧
    (let n := engineAt .listening .cc base
     tsWordAt n.rxUnit n.rxIdx = some 0#32 ∧ n.phase = .cc ∧ decode cfg1 (.tshdr32 0#32) = .ok (.tsData ⟨0, 0, 0, 0, 0, 0, 0, 0⟩)) := by
  decide +kernel

theorem witness_EventsAreTakenInWaitOnly :
    (eventWf .rxerr = true ∧ base.rxs ≠ .stopped ∧ base.rxs ≠ .dead) ∧ closed1.inst = none ∧
    (engineAt .dead .wait base).rxs = .dead ∧ (engineAt .stopped .termchk base).rxs = .stopped ∧
    ((at1 base).offer = none ∧ base.rxs = .listening ∧ base.phase = .wait) ∧
    (¬ (full.rxs = .listening ∧ full.phase = .wait) ∧ goesOn (engineTurn (offering full .idle)) = true) := by
  decide +kernel

/-- Clause by clause; the closed block meets the invariant. -/
theorem witness_EventsOfferedTooLateAreNeverTaken :
    (eventWf .idle = true ∧ closed1.inst = none ∧ (engineAt .dead .wait base).rxs = .dead ∧
      (engineAt .stopped .termchk base).rxs = .stopped) ∧
    (∃ t, exec .close (closingState (engineAt .dead .wait base)) = .next t ∧ t.inst = none) ∧
    closed1.Inv ∧ ∃ t, exec (.openCmd 564#32) closed1 = .next t :=
  ⟨by decide, ⟨_, rfl, rfl⟩,
    { cfg_wf := cfg1_wf
      outstanding_nodup := List.nodup_nil
      outstanding_lt := by rintro c (h | h) <;> cases h
      closing_term := fun h => absurd rfl h
      closed_port := fun _ => rfl
      offer_wf := nofun
      inst_inv := nofun }, _, rfl⟩

theorem witness_PortsRefuseWhatHasNoMove :
    (closed1.cfg.nCons ≤ 2 ∧ ¬ closed1.cfg.nCons ≤ 1) ∧ (closingState base).outstanding 1 ∧
    ({ closed1 with overtaken := [0] } : State).outstanding 0 ∧ ¬ ({ closed1 with overtaken := [0] } : State).outstanding 1 ∧ eventWf (.dgram 2#16 [1#8]) = false ∧
    eventWf (.dgram 1#16 [1#8]) = true ∧ closed1.sched = [] := by decide +kernel

theorem witness_UnitGranularityIsARunOfTurns :
    unitState.cfg.arbGran = .unit ∧ unitState.sched = [.engine] ∧ (∃ t, step unitState = .next t) ∧ unitState.Inv ∧
    unitState.inst = some base ∧ base.phase = .wait :=
  ⟨rfl, rfl, exists_next (by decide +kernel),
    { cfg_wf := by decide
      outstanding_nodup := List.nodup_nil
      outstanding_lt := by rintro c (h | h) <;> cases h
      closing_term := fun h => absurd rfl h
      closed_port := nofun
      offer_wf := by rintro _ ⟨⟩; decide +kernel
      inst_inv := by rintro m ⟨⟩; exact base_inv .unit }, rfl, rfl⟩

/-- An empty ring, a held span with more behind it, and one with nothing behind it. -/
theorem witness_RecvReturnsTheNextSpan :
    (at1 base).inst = some base ∧ (at1 held).inst = some held ∧ (held.tail + held.pend) % held.c = 376 ∧
    (at1 (held.consume cfg1 188)).inst = some (held.consume cfg1 188) := ⟨rfl, rfl, by decide +kernel, rfl⟩

/-- The hypothesis "open" of FlushResetsTheQuadruple and GetstatsSnapshotsTheCounters. -/
theorem witness_open : (at1 full).inst = some full := rfl

/-- CAP = 0 and the largest legal CAP; the first CAP that is too large, and one that is no multiple (R230, R231). -/
theorem witness_OpenCreatesTheInstance :
    State.reset.inst = none ∧
    (let legal := fun (a : BitVec 32) => a.toNat % 1316 = 0 ∧ a.toNat + 1316 ≤ 2 ^ 32
     Config.spec.unitSize = 1316 ∧ legal 0#32 ∧ legal 4294964716#32 ∧ ¬ legal 4294966032#32 ∧ ¬ legal 1315#32 ∧
       ¬ legal 1317#32) := by
  refine ⟨rfl, ?_⟩
  decide

theorem witness_CloseStopsWaitsAndDestroys :
    ¬ (at1 base).outstanding (at1 base).served ∧
    (let s := closingState base
     s.served ∈ s.closing ∧ s.served ∉ s.overtaken ∧ base.rxs ≠ .stopped ∧ base.rxs ≠ .dead) ∧
    (engineAt .stopped .termchk base).rxs = .stopped ∧ (engineAt .dead .wait base).rxs = .dead ∧
    (let s := { at1 base with overtaken := [0] }; s.served ∈ s.overtaken) ∧
    (let s := { closed1 with closing := [0] }; s.inst = none ∧ s.served ∈ s.closing) := by decide +kernel

theorem witness_OutOfStateCommandsAnswerBadState :
    closed1.inst = none ∧ ¬ closed1.outstanding closed1.served ∧ (at1 base).inst = some base := by decide +kernel

/-- TAIL, the last byte of the span; the bytes on either side of it, the last byte of BUF; C itself. -/
theorem witness_BreadReadsTheReturnedSpan :
    held.c = 752 ∧ (held.tail ≤ 188 ∧ 188 < held.tail + held.pend ∧ memRead held.buf 188 = some 0#8) ∧
    (held.tail ≤ 375 ∧ 375 < held.tail + held.pend ∧ memRead held.buf 375 = some 0#8) ∧
    (∀ a ∈ [0, 187, 376, 751], a < held.c ∧ ¬ (held.tail ≤ a ∧ a < held.tail + held.pend)) ∧ held.c ≤ 752 := by
  decide +kernel

theorem witness_BreadInsideTheSpanIsStored :
    (at1 held).Inv ∧ (at1 held).inst = some held ∧ held.tail ≤ (375#32).toNat ∧ (375#32).toNat < held.tail + held.pend :=
  ⟨at1_inv held_inv, rfl, by decide +kernel, by decide +kernel⟩

/-- A ring with room for one more unit, and the full one. -/
theorem witness_PushStoresOrDrops :
    (let n := engineAt .listening .push two
     n.rxs = .listening ∧ n.phase = .push ∧ (n.head + cfg1.unitSize) % n.c ≠ n.tail) ∧
    (let n := engineAt .listening .push full
     n.rxs = .listening ∧ n.phase = .push ∧ (n.head + cfg1.unitSize) % n.c = n.tail) := by decide +kernel

/-- Unknown, 65535 then 0, and on the two sides of "next". -/
theorem witness_SeqCheckTracksTheSequence :
    (let n := { engineAt .listening .seq base with rxKind := .rtp }
     n.rxs = .listening ∧ n.phase = .seq ∧ n.seq = none) ∧
    (0#16).toNat = ((65535#16).toNat + 1) % 65536 ∧ (65535#16).toNat ≠ ((65535#16).toNat + 1) % 65536 ∧
    (1#16).toNat ≠ ((65535#16).toNat + 1) % 65536 := by decide

/-- The first packet of a unit, the null packet, and TEI at the identifier next to it. -/
theorem witness_CcCheckValidatesThePacket :
    (let n := { engineAt .listening .cc base with rxUnit := [0x47#8, 0x1F#8, 0xFF#8, 0x10#8] ++ zeros 184 }
     n.rxs = .listening ∧ n.phase = .cc ∧ n.rxUnit[188 * n.rxIdx]? = some 0x47#8 ∧
       n.rxUnit[188 * n.rxIdx + 1]? = some 0x1F#8 ∧ n.rxUnit[188 * n.rxIdx + 2]? = some 0xFF#8 ∧
       n.rxUnit[188 * n.rxIdx + 3]? = some 0x10#8 ∧ (0x1F#8).toNat % 32 * 256 + (0xFF#8).toNat = 0x1FFF) ∧
    ((0x9F#8).toNat % 32 * 256 + (0xFE#8).toNat ≠ 0x1FFF ∧ (0x9F#8).toNat / 128 = 1) ∧
    ((0x1F#8).toNat % 32 * 256 + (0xFE#8).toNat ≠ 0x1FFF ∧ (0x1F#8).toNat / 128 = 0) := by decide +kernel

/-- CcCheckValidatesThePacket and PacketClassesValidate: the counters a known 15 accepts, and its neighbours. -/
theorem witness_continuity :
    ctGet [(0x100, 15#4)] 0x100 = some 15#4 ∧ (0#4).toNat = ((15#4).toNat + 1) % 16 ∧
    ((14#4).toNat ≠ ((15#4).toNat + 1) % 16 ∧ 14#4 ≠ 15#4) ∧ ((1#4).toNat ≠ ((15#4).toNat + 1) % 16 ∧ 1#4 ≠ 15#4) := by
  decide

theorem witness_PacketClassesValidate :
    (let n := engineAt .listening .cc base; n.rxs = .listening ∧ n.phase = .cc) ∧
    (Instr.tsNull (hdr 0x1FFF#13 0#1 0#4)).wf cfg1 = true ∧ (Instr.tsTei (hdr 0x1FFE#13 1#1 0#4)).wf cfg1 = true ∧
    (Instr.tsData (hdr 0x1FFE#13 0#1 0#4)).wf cfg1 = true := by decide +kernel

theorem witness_PktCountCountsTheUnit :
    (let n := engineAt .listening .pktcnt base; n.rxs = .listening ∧ n.phase = .pktcnt) ∧
    cfg1.pktCountMode = .perUnit ∧ { cfg1 with pktCountMode := .perTs }.pktCountMode = .perTs := by decide +kernel

theorem witness_EngineStartsChecksAndExits :
    (engineAt .starting .wait { base with term := true }).term = true ∧ (engineAt .starting .wait base).term = false ∧
    (engineAt .listening .termchk { base with term := true }).term = true ∧
    (engineAt .listening .termchk base).term = false ∧ (engineAt .terminating .termchk base).rxs = .terminating := by
  decide +kernel

theorem witness_IngressClassesSteerTheEngine :
    (at1 base).inst = some base ∧ base.rxs = .listening ∧ base.phase = .wait := by decide +kernel

/-- The lengths next to each bound: 0; U and L_RTP; one more and one less than each; the largest (R174). -/
theorem witness_ClassifyDecidesByLength :
    (zeros 0).length = (0#16).toNat ∧ ((zeros 188).length = (188#16).toNat ∧ (188#16).toNat = cfg1.unitSize) ∧
    ((zeros 200).length = (200#16).toNat ∧ (200#16).toNat = cfg1.unitSize + 12) ∧
    (∀ l ∈ [1, 187, 189, 199, 201, 65535], l ≠ 0 ∧ l ≠ cfg1.unitSize ∧ l ≠ cfg1.unitSize + 12) ∧
    (zeros 65535).length = (65535#16).toNat :=
  ⟨rfl, by decide +kernel, by decide +kernel, by decide +kernel, List.length_replicate⟩

/-- A closed block, a stopped and a dead engine, and an engine in another phase. -/
theorem witness_EngineStepsOnlyWhereSelected :
    closed1.inst = none ∧ (engineAt .stopped .wait base).rxs ≠ .listening ∧ (engineAt .dead .wait base).rxs ≠ .listening ∧
    (base.rxs ≠ .starting ∧ base.rxs ≠ .terminating) ∧ ¬ (full.rxs = .listening ∧ full.phase = .push) := by decide +kernel

/-- The hypothesis of ReadersLeaveTheBlockAlone, RecvFrame, FlushFrame and LifecycleFrame: the operation goes on, in a
block where it has something to change. -/
theorem witness_frames_commands :
    goesOn (exec .getstats (at1 held)) = true ∧ goesOn (exec (.bread 0#32) (at1 held)) = true ∧
    goesOn (exec (.illegalRsv 0x9#4 0#28 1#32) (at1 held)) = true ∧ goesOn (exec (.recv 188#32) (at1 held)) = true ∧
    goesOn (exec .flush (at1 held)) = true ∧ goesOn (exec (.openCmd 564#32) closed1) = true ∧
    goesOn (exec (.openCmd 565#32) closed1) = true ∧ goesOn (exec .close (at1 held)) = true := by decide +kernel

/-- The same for EngineControlFrame and ClassifyFrame. -/
theorem witness_frames_engine :
    goesOn (exec (.start 0#3) (at1 (engineAt .starting .wait held))) = true ∧ goesOn (exec .termCheck (at1 full)) = true ∧
    goesOn (exec (.exit 5#3) (at1 (engineAt .terminating .termchk held))) = true ∧
    goesOn (exec (.idle 0#16) (at1 base)) = true ∧ goesOn (exec .dgFatalL0 (at1 base)) = true ∧
    goesOn (exec (.dgFatalRxerr 0#16) (at1 base)) = true ∧ goesOn (exec (.dgOther 1#16 [0#8]) (at1 base)) = true ∧
    goesOn (exec .classify (offering base (.dgram 188#16 (zeros 188)))) = true ∧
    goesOn (exec (.dgRtp ⟨0, 0, 0, 0⟩ (zeros 188)) (at1 base)) = true ∧
    goesOn (exec (.dgBare (zeros 188)) (at1 base)) = true := by decide +kernel

/-- The same for SeqCheckFrame, CcCheckFrame, PktCountFrame and PushFrame (a PUSH that stores and one that drops). -/
theorem witness_frames_unit :
    goesOn (exec .seqCheck (at1 (engineAt .listening .seq held))) = true ∧
    (goesOn (exec .ccCheck (at1 (engineAt .listening .cc base))) = true ∧ tsWordAt base.rxUnit base.rxIdx = some 0#32) ∧
    goesOn (exec (.tsNull (hdr 0x1FFF#13 0#1 0#4)) (at1 (engineAt .listening .cc base))) = true ∧
    goesOn (exec (.tsTei (hdr 0x100#13 1#1 0#4)) (at1 (engineAt .listening .cc base))) = true ∧
    goesOn (exec (.tsData (hdr 0x100#13 0#1 0#4)) (at1 (engineAt .listening .cc base))) = true ∧
    goesOn (exec .pktCount (at1 (engineAt .listening .pktcnt held))) = true ∧
    goesOn (exec .push (at1 (engineAt .listening .push held))) = true ∧
    goesOn (exec .push (at1 (engineAt .listening .push full))) = true := by decide +kernel

/-- An operation in a block that stays open, one that opens it, and one that closes it. -/
theorem witness_EachElementHasItsWriters :
    (∃ t, exec .push (at1 (engineAt .listening .push two)) = .next t ∧ t.inst.isSome = true) ∧
    (∃ t, exec (.openCmd 564#32) closed1 = .next t ∧ closed1.inst = none ∧ t.inst.isSome = true) ∧
    (∃ t, exec .close (closingState (engineAt .dead .wait base)) = .next t ∧ t.inst = none) ∧
    engineOp .flush = false := ⟨⟨_, rfl, rfl⟩, ⟨_, rfl, rfl, rfl⟩, ⟨_, rfl, rfl⟩, rfl⟩

theorem witness_OnlyTheEngineMovesTheEngine :
    decodeCmd 0x000000BC00000001#64 = .recv 188#32 ∧
    ∃ t, exec (.recv 188#32) (at1 held) = .next t ∧ t.inst.isSome = true := ⟨by decide, _, rfl, rfl⟩

/-- Two blocks that differ in what no consumer sees, and only in that. -/
theorem witness_AnswersHideTheEngine :
    SameCursors held { engineAt .dead .wait held with term := true } ∧
    held.buf = { engineAt .dead .wait held with term := true }.buf ∧
    SameStats held { engineAt .dead .wait held with term := true } ∧
    ∃ t, exec (.recv 188#32) { at1 held with inst := some held } = .next t :=
  ⟨⟨rfl, rfl, rfl, rfl⟩, rfl, ⟨rfl, rfl, rfl, rfl, rfl⟩, _, rfl⟩

/-- Headers that differ in every field the block does not read. -/
theorem witness_UnreadFieldsDoNotMatter :
    (let h := hdr 0x100#13 0#1 3#4
     let k : TsHeader := ⟨0x00#8, 0#1, 1#1, 1#1, 0x100#13, 3#2, 2#2, 3#4⟩
     h.pid = k.pid ∧ h.tei = k.tei ∧ h.cc = k.cc ∧ h ≠ k) ∧
    (let h : RtpHeader := ⟨0, 7, 0, 0⟩
     let k : RtpHeader := ⟨1, 7, 2, 3⟩
     h.seq = k.seq ∧ h ≠ k) := by decide

/-- The full ring, and one with room. -/
theorem witness_OverflowIsAFullRing :
    cfg1.wf ∧ full.Inv cfg1 ∧ (full.head + cfg1.unitSize) % full.c = full.tail ∧ held.Inv cfg1 ∧
    (held.head + cfg1.unitSize) % held.c ≠ held.tail :=
  ⟨by decide, full_inv, by decide +kernel, held_inv, by decide +kernel⟩

/-- A block of two packets a unit after a gap at the numbers of R154; a packet of another substream comes first. -/
def afterGap : Instance :=
  { engineAt .listening .cc base with seq := some 105#16, rxSeq := 105#16, nerr := 1, rxUnit := zeros 376 }

theorem witness_SequenceGapForgivesEverySubstream :
    (let n := { engineAt .listening .seq base with seq := some 100#16, rxSeq := 105#16, ct := [(0x100, 7#4)] }
     n.rxs = .listening ∧ n.phase = .seq ∧ n.seq = some 100#16 ∧ n.rxSeq ≠ 100#16 + 1#16) ∧
    (let s := { at1 afterGap with cfg := { cfg1 with nTs := 2 } }
     ∃ v k, RunsWithoutDataOf 0x100#13 [.tsData (hdr 0x200#13 0#1 9#4)] s v ∧ v.inst = some k ∧ k.rxs = .listening ∧
       k.phase = .cc) ∧
    (tsWordAt (zeros 376) 1 = some 0#32 ∧ tsClass (TsHeader.ofWord 0#32) = .data) :=
  ⟨by decide +kernel,
    ⟨_, _, ⟨⟨by rintro h ⟨⟩; decide, nofun⟩, _, _, rfl, rfl, rfl, rfl, rfl⟩, rfl, rfl, rfl⟩, by decide +kernel⟩

theorem witness_FlushLeavesNothing : (at1 full).inst = some full ∧ full.head < full.c := ⟨rfl, by decide +kernel⟩

theorem witness_ReturnedSpanIsStable :
    let n := engineAt .listening .push held
    (at1 n).Inv ∧ (at1 n).inst = some n ∧ n.pend = 188 ∧ ∃ t, exec .push (at1 n) = .next t :=
  ⟨at1_inv (engineAt_inv held_inv .push (by decide) (by decide +kernel)), rfl, by decide +kernel, _, rfl⟩

theorem witness_LiveRegionIsAQueue :
    (let n := engineAt .listening .push full
     (at1 n).Inv ∧ ∃ t, exec .push (at1 n) = .next t ∧ t.inst.isSome = true) ∧
    (∃ t, exec (.recv 188#32) (at1 held) = .next t ∧ t.inst.isSome = true) ∧
    (∃ t, exec .flush (at1 held) = .next t ∧ t.inst.isSome = true) ∧
    (∃ t, exec .getstats (at1 held) = .next t ∧ t.inst.isSome = true) :=
  ⟨⟨at1_inv (engineAt_inv full_inv .push (by decide) (by decide +kernel)), _, rfl, rfl⟩, ⟨_, rfl, rfl⟩, ⟨_, rfl, rfl⟩,
    _, rfl, rfl⟩

/-- A request of exactly U bytes, with one unit behind the held one. -/
theorem witness_RecvMakesProgress :
    (at1 held).Inv ∧ (at1 held).cfg.unitSize ≤ (188#32).toNat ∧ held.pend < held.avail :=
  ⟨at1_inv held_inv, by decide, by decide +kernel⟩

/-- A step of the engine from a state with the invariant, live bytes and a held span; NoStepFaults and
EveryStepKeepsTheParameters have parts of the same hypotheses. -/
theorem witness_EveryStepKeepsTheInvariant :
    ({ at1 held with sched := [.engine] } : State).Inv ∧ ∃ t, step { at1 held with sched := [.engine] } = .next t :=
  ⟨{ at1_inv held_inv with }, exists_next (by decide +kernel)⟩

/-- A bare and an RTP datagram at a waiting engine. -/
theorem witness_UnitRunsToItsEnd :
    (offering base (.dgram 188#16 (zeros 188))).Inv ∧ (offering base (.dgram 200#16 (zeros 200))).Inv ∧
    base.rxs = .listening ∧ base.phase = .wait ∧ base.term = false ∧ (188#16).toNat = cfg1.unitSize ∧
    (200#16).toNat = cfg1.lRtp :=
  ⟨offering_inv (base_inv .micro) (by decide +kernel), offering_inv (base_inv .micro) (by decide +kernel), rfl, rfl, rfl,
    by decide, by decide⟩

theorem witness_CloseCompletes :
    (closingState held).Inv ∧ (closingState held).inst = some { held with term := true } ∧
    (closingState held).offer.isSome = true ∧ 0 ∈ (closingState held).closing ∧ 1 ∈ (closingState held).closing ∧
    1 ∈ ({ closed1 with overtaken := [1] } : State).overtaken :=
  ⟨closingState_inv held_inv, rfl, rfl, by decide +kernel, by decide +kernel, by decide⟩

/-- One unit more than the three the ring takes. -/
theorem witness_CapacityDropsExactly :
    (at1 base).Inv ∧ base.head = base.tail ∧ base.pend = 0 ∧
    (∀ u ∈ List.replicate 4 (zeros 188), u.length = cfg1.unitSize) ∧ (base.c - cfg1.unitSize) / cfg1.unitSize = 3 :=
  ⟨at1_inv (base_inv .micro), rfl, rfl, by decide +kernel, by decide +kernel⟩

/-- Exactly CAP bytes, and requests of exactly U bytes. -/
theorem witness_RoundTrip :
    (at1 base).Inv ∧ (∀ u ∈ List.replicate 3 (zeros 188), u.length = cfg1.unitSize) ∧
    3 * cfg1.unitSize ≤ base.c - cfg1.unitSize ∧ (∀ a ∈ List.replicate 3 188#32, cfg1.unitSize ≤ a.toNat) :=
  ⟨at1_inv (base_inv .micro), by decide +kernel, by decide, fun a h => by rw [List.eq_of_mem_replicate h]; decide⟩

end Sys2Proof.Tests
end

/-! ### O51: the parameters of the block (00_scope.md R6) -/

namespace Sys2Proof.Machine

/-- Everything running a frame can do: nothing, or the operation the frame decodes to. -/
theorem runFrame_cases {f : Frame} {s t : State} (h : runFrame f s = .next t) :
    t = s ∨ ∃ i, decode s.cfg f = .ok i ∧ exec i s = .next t := by
  unfold runFrame at h
  split at h
  · next i hi => exact .inr ⟨i, hi, h⟩
  · cases h; exact .inl rfl

/-- Everything a turn of the engine can do: nothing, or the operation its selector decodes to (R91). -/
theorem engineTurn_cases {s t : State} (h : engineTurn s = .next t) :
    t = s ∨ ∃ n i, s.inst = some n ∧ decode s.cfg (.step6 (stepSelector n)) = .ok i ∧ exec i s = .next t := by
  unfold engineTurn at h
  split at h
  · cases h; exact .inl rfl
  · next n hn => exact (runFrame_cases h).imp_right fun ⟨i, hd, he⟩ => ⟨n, i, hn, hd, he⟩

/-- What every turn of the engine keeps, its turns under UNIT keep (R59). -/
theorem engineUnit_keeps {P : State → Prop} (turn : ∀ s t, P s → engineTurn s = .next t → P t) (k : Nat)
    {s t : State} (hs : P s) (h : engineUnit k s = .next t) : P t := by
  induction k generalizing s with
  | zero => cases h; exact hs
  | succ k ih =>
    unfold engineUnit at h
    split at h
    · next u hu =>
      have hP : P u := turn s u hs hu
      split at h
      · exact ih hP h
      · cases h; exact hP
    · cases h
    · cases h

/-- What every turn of the engine keeps, serving the engine keeps, whatever ARB_GRAN is (R59). -/
theorem serveEngine_keeps {P : State → Prop} (turn : ∀ s t, P s → engineTurn s = .next t → P t)
    {s t : State} (hs : P s) (h : serveEngine s = .next t) : P t := by
  unfold serveEngine at h
  split at h
  · exact turn s t hs h
  · exact engineUnit_keeps turn _ hs h

theorem runFrame_cfg {f : Frame} {s t : State} (h : runFrame f s = .next t) : t.cfg = s.cfg := by
  obtain rfl | ⟨_, -, he⟩ := runFrame_cases h
  · rfl
  · exact exec_cfg he

theorem engineTurn_cfg {s t : State} (h : engineTurn s = .next t) : t.cfg = s.cfg := by
  obtain rfl | ⟨_, _, -, -, he⟩ := engineTurn_cases h
  · rfl
  · exact exec_cfg he

theorem serveEngine_cfg {s t : State} (h : serveEngine s = .next t) : t.cfg = s.cfg :=
  serveEngine_keeps (P := fun u => u.cfg = s.cfg) (fun _ _ hu ht => (engineTurn_cfg ht).trans hu) rfl h

theorem offerEvent_cfg (e : Event) (s : State) : (s.offerEvent e).cfg = s.cfg := by
  obtain ⟨he, -⟩ | ⟨he, -⟩ := offerEvent_cases e s <;> rw [he]

/-- Whoever the arbiter serves, the parameters stay (R6, R58). -/
theorem serve_cfg {r : Request} {s t : State} (h : serve r s = .next t) : t.cfg = s.cfg := by
  cases r with
  | command c w =>
    simp only [serve] at h
    split at h
    · cases h
    · split at h
      · cases h
      · exact runFrame_cfg (s := { s with served := c }) h
  | resume c =>
    simp only [serve] at h
    split at h
    · exact exec_cfg (s := { s with served := c }) h
    · cases h; rfl
  | bread c a =>
    simp only [serve] at h
    split at h
    · cases h
    · exact runFrame_cfg (s := { s with served := c }) h
  | offer e =>
    simp only [serve] at h
    split at h
    · cases h; exact offerEvent_cfg e s
    · cases h
  | engine => exact serveEngine_cfg h

/-- Settles O51: a step does nothing or serves the head of the schedule, and no request served changes the
parameters. -/
theorem everyStepKeepsTheParameters : Obligations.EveryStepKeepsTheParameters := by
  intro s t h
  cases hs : s.sched with
  | nil => rw [step_nil hs] at h; cases h; rfl
  | cons r rest =>
    rw [step_cons hs] at h
    exact serve_cfg (s := { s with sched := rest }) h

end Sys2Proof.Machine

/-! ### What the branching effects can write (10_state.md R39) -/

namespace Sys2Proof.Machine

/-- Everything the continuity check of a data packet can write: CERR and the table (R133 to R136). -/
theorem checkContinuity_writes (cfg : Config) (p : Pid) (c : Cc) (n : Instance) :
    ∃ e t, n.checkContinuity cfg p c = { n with cerr := e, ct := t } := by
  unfold Instance.checkContinuity
  split
  · exact ⟨_, _, rfl⟩
  · split_ifs <;> exact ⟨_, _, rfl⟩

/-- Everything SEQ_CHECK can write: SEQ, NERR, the table, RX_IDX and PHASE (R150 to R152). -/
theorem checkSeq_writes (cfg : Config) (n : Instance) :
    ∃ e t, n.checkSeq cfg = { n with seq := some n.rxSeq, rxIdx := 0, phase := .cc, nerr := e, ct := t } := by
  unfold Instance.checkSeq
  split
  · exact ⟨_, _, rfl⟩
  · dsimp only; split_ifs <;> exact ⟨_, _, rfl⟩

/-- Everything PKT_COUNT can write: PKT and PHASE (R180). -/
theorem countPacket_writes (cfg : Config) (n : Instance) :
    ∃ k, n.countPacket cfg = { n with pkt := k, phase := .push } := by
  unfold Instance.countPacket
  split <;> exact ⟨_, rfl⟩

/-- Everything PUSH can write: BUF, HEAD, OVF and PHASE (R101). -/
theorem pushUnit_writes (cfg : Config) (n : Instance) :
    ∃ b p o, n.pushUnit cfg = { n with buf := b, head := p, ovf := o, phase := .termchk } := by
  by_cases h : (n.head + cfg.unitSize) % n.c = n.tail
  · exact ⟨_, _, _, pushUnit_drop h⟩
  · exact ⟨_, _, _, pushUnit_accept h⟩

end Sys2Proof.Machine

/-! ### O50: the invariant of the block (10_state.md R29 to R36, 43_receiver.md R170) -/

namespace Sys2Proof.Machine

section
variable {cfg : Config} {n : Instance}

/-- Terminating with TERM = 1 keeps the invariant (R170). -/
theorem Instance.Inv.terminate (h : n.Inv cfg) (ht : n.term = true) :
    ({ n with rxs := .terminating } : Instance).Inv cfg :=
  { h with
    idx_lt := nofun, starting_wait := nofun, seq_rtp := nofun, term_set := fun _ => ht, dead_wait := nofun }

/-- START keeps the invariant: it terminates with TERM = 1 only (R171). -/
theorem Instance.Inv.start (h : n.Inv cfg) :
    (if n.term then { n with rxs := .terminating } else { n with rxs := .listening, phase := .wait } : Instance).Inv
      cfg := by
  split
  · next ht => exact h.terminate ht
  · exact { h with
      idx_lt := nofun, starting_wait := nofun, seq_rtp := nofun, term_set := by simp, dead_wait := nofun }

/-- TERM_CHECK keeps the invariant: it terminates with TERM = 1 only (R181). -/
theorem Instance.Inv.termCheck (h : n.Inv cfg) :
    (if n.term then { n with rxs := .terminating } else { n with phase := .wait } : Instance).Inv cfg := by
  split
  · next ht => exact h.terminate ht
  · exact { h with idx_lt := nofun, starting_wait := fun _ => rfl, seq_rtp := nofun, dead_wait := fun _ => rfl }

/-- EXIT keeps the invariant (R182). -/
theorem Instance.Inv.exit (h : n.Inv cfg) (hr : n.rxs = .terminating) :
    ({ n with rxs := .stopped } : Instance).Inv cfg :=
  { h with
    idx_lt := nofun, starting_wait := nofun, seq_rtp := nofun, term_set := fun _ => h.term_set (.inl hr),
    dead_wait := nofun }

/-- A fatal event keeps the invariant: the engine dies in WAIT only (R178). -/
theorem Instance.Inv.die (h : n.Inv cfg) (ha : n.isAt .wait = true) : ({ n with rxs := .dead } : Instance).Inv cfg :=
  { h with
    idx_lt := nofun, starting_wait := nofun, seq_rtp := nofun, term_set := by simp,
    dead_wait := fun _ => (isAt_iff.mp ha).2 }

/-- A listening engine may move to any PHASE whose own clauses hold (R35, R170). -/
theorem Instance.Inv.listenAt (h : n.Inv cfg) (hr : n.rxs = .listening) (p : Phase) (k : RxKind) (q : SeqNo)
    {u : List Byte} {x : Nat} (unit_len : u.length = cfg.unitSize) (idx_le : x ≤ cfg.nTs)
    (idx_lt : p = .cc → x < cfg.nTs) (seq_rtp : p = .seq → k = .rtp) :
    ({ n with phase := p, rxKind := k, rxSeq := q, rxUnit := u, rxIdx := x } : Instance).Inv cfg :=
  h.setEngine n.rxs p k q u x unit_len idx_le (fun _ => idx_lt) (by simp [hr]) (fun _ => seq_rtp) h.term_set
    (by simp [hr])

/-- An ignored event keeps the invariant (R173, R177). -/
theorem Instance.Inv.ignore (h : n.Inv cfg) (ha : n.isAt .wait = true) :
    ({ n with phase := .termchk } : Instance).Inv cfg :=
  h.listenAt (isAt_iff.mp ha).1 _ _ _ h.unit_len h.idx_le nofun nofun

/-- An accepted RTP-framed datagram keeps the invariant (R175). -/
theorem Instance.Inv.acceptRtp (h : n.Inv cfg) (ha : n.isAt .wait = true) (q : SeqNo) {u : List Byte}
    (hu : u.length = cfg.unitSize) :
    ({ n with rxKind := .rtp, rxSeq := q, rxUnit := u, phase := .seq } : Instance).Inv cfg :=
  h.listenAt (isAt_iff.mp ha).1 _ _ _ hu h.idx_le nofun fun _ => rfl

/-- An accepted bare datagram keeps the invariant (R176). -/
theorem Instance.Inv.acceptBare (h : n.Inv cfg) (hw : cfg.wf) (ha : n.isAt .wait = true) {u : List Byte}
    (hu : u.length = cfg.unitSize) :
    ({ n with rxKind := .bare, rxUnit := u, rxIdx := 0, phase := .cc } : Instance).Inv cfg :=
  h.listenAt (isAt_iff.mp ha).1 _ _ _ hu (Nat.zero_le _) (fun _ => hw.1) nofun

end

/-! #### Updates of the state -/

section
variable {s t : State}

theorem State.Inv.answer (h : s.Inv) (st : Status) (opc : BitVec 4) : (s.answer st opc).Inv := { h with }

theorem State.Inv.respond (h : s.Inv) (ws : List Word64) : (s.respond ws).Inv := { h with }

theorem State.Inv.closing_nil (h : s.Inv) (hn : s.inst = none) : s.closing = [] := by
  by_contra hc
  obtain ⟨n, hi, -⟩ := h.closing_term hc
  simp [hn] at hi

/-- New registers of the block keep the invariant where they meet its clauses, with TERM = 1 under a held CLOSE
(R233). -/
theorem State.Inv.setInst (h : s.Inv) {m : Instance} (hm : m.Inv s.cfg) (ht : s.closing ≠ [] → m.term = true) :
    (s.setInst m).Inv :=
  { h with
    closing_term := fun hc => ⟨m, rfl, ht hc⟩
    closed_port := nofun
    inst_inv := by rintro _ ⟨⟩; exact hm }

/-- An update of an open block that leaves TERM alone keeps the invariant where the new registers meet it. -/
theorem State.Inv.update (h : s.Inv) {n m : Instance} (hn : s.inst = some n) (hm : m.Inv s.cfg)
    (ht : m.term = n.term) : (s.setInst m).Inv := by
  refine h.setInst hm fun hc => ?_
  obtain ⟨n', hn', ht'⟩ := h.closing_term hc
  rw [hn] at hn'; cases hn'
  rw [ht, ht']

/-- Taking the event off the port keeps the invariant (R174). -/
theorem State.Inv.takeOffer (h : s.Inv) : ({ s with offer := none } : State).Inv :=
  { h with closed_port := fun _ => rfl, offer_wf := nofun }

/-- Offering an event that exists keeps the invariant (R77, R183). -/
theorem State.Inv.offerEvent (h : s.Inv) {e : Event} (he : eventWf e = true) : (s.offerEvent e).Inv := by
  obtain ⟨h', -⟩ | ⟨h', n, hn, -⟩ := offerEvent_cases e s <;> rw [h']
  · exact h
  · exact { h with closed_port := by simp [hn], offer_wf := by rintro _ ⟨⟩; exact he }

/-- Answering a held CLOSE keeps the invariant (R233). -/
theorem State.Inv.endClose (h : s.Inv) : s.endClose.Inv :=
  { h with
    outstanding_nodup := by
      rw [State.endClose_closing, State.endClose_overtaken, ← List.filter_append]
      exact h.outstanding_nodup.filter _
    outstanding_lt := fun c hc =>
      h.outstanding_lt c (hc.imp (fun h => (List.mem_filter.mp h).1) fun h => (List.mem_filter.mp h).1)
    closing_term := fun hc => h.closing_term fun e => hc (by rw [State.endClose_closing, e]; rfl) }

/-- Closing the block keeps the invariant: every held CLOSE is overtaken and the port is empty (R233). -/
theorem State.Inv.dropInst (h : s.Inv) : s.dropInst.Inv :=
  { h with
    outstanding_nodup := h.outstanding_nodup
    outstanding_lt := fun c hc => h.outstanding_lt c (by simpa [State.outstanding] using hc)
    closing_term := fun hc => absurd rfl hc
    closed_port := fun _ => rfl
    offer_wf := nofun
    inst_inv := nofun }

/-- Step 1 of a CLOSE keeps the invariant (R233, R200). -/
theorem State.Inv.holdClose (h : s.Inv) {n : Instance} (hn : s.inst = some n) (hs : s.served < s.cfg.nCons)
    (ho : ¬ s.outstanding s.served) :
    ({ s.setInst { n with term := true } with closing := s.served :: s.closing } : State).Inv :=
  { h with
    outstanding_nodup :=
      List.nodup_cons.mpr ⟨by simpa [State.outstanding, not_or] using ho, h.outstanding_nodup⟩
    outstanding_lt := by
      rintro c (hc | hc)
      · obtain rfl | hc := List.mem_cons.mp hc
        · exact hs
        · exact h.outstanding_lt c (.inl hc)
      · exact h.outstanding_lt c (.inr hc)
    closing_term := fun _ => ⟨_, rfl, rfl⟩
    closed_port := nofun
    inst_inv := by rintro _ ⟨⟩; exact { h.inst_inv n hn with term_set := fun _ => rfl } }

/-! #### Consumers -/

theorem close_keeps_inv (h : s.Inv) (hs : s.served < s.cfg.nCons) (he : execClose s = .next t) : t.Inv := by
  obtain ⟨-, rfl⟩ | ⟨-, -, rfl⟩ | ⟨n, hn, ho, ⟨hc, rfl⟩ | ⟨-, -, rfl⟩ | ⟨-, -, rfl⟩⟩ := close_cases he
  · exact h.endClose.answer _ _
  · exact h.answer _ _
  · exact h.holdClose hn hs (by rintro (hm | hm); exacts [hc hm, ho hm])
  · exact h.dropInst.endClose.answer _ _
  · exact h

theorem open_keeps_inv {arg : BitVec 32} (h : s.Inv) (he : execOpen arg s = .next t) : t.Inv := by
  obtain ⟨-, rfl⟩ | ⟨hn, hc, rfl⟩ | ⟨-, -, rfl⟩ := open_cases he
  · exact h.answer _ _
  · exact { h.setInst (freshInstance_inv s.draws h.cfg_wf hc) fun hne => absurd (h.closing_nil hn) hne with }
  · exact h.answer _ _

/-- Every operation of a consumer keeps the invariant, whichever consumer there is hands it over (R200, R204). -/
theorem consumerOp_keeps_inv {i : Instr} (hi : engineOp i = false) (h : s.Inv) (hs : s.served < s.cfg.nCons)
    (he : exec i s = .next t) : t.Inv := by
  have ill {o : BitVec 4} (e : answerIllegal o s = .next t) : t.Inv := by cases e; exact h.answer _ _
  cases i with
  | recv a =>
    obtain ⟨-, rfl⟩ | ⟨n, hn, rfl⟩ := withOpen_next.mp he
    · exact h.answer _ _
    · exact (h.update hn ((h.inst_inv n hn).consume _) rfl).respond _
  | flush =>
    obtain ⟨-, rfl⟩ | ⟨n, hn, rfl⟩ := withOpen_next.mp he
    · exact h.answer _ _
    · exact (h.update hn (h.inst_inv n hn).flushAll rfl).answer _ _
  | getstats =>
    obtain ⟨-, rfl⟩ | ⟨n, hn, rfl⟩ := withOpen_next.mp he
    · exact h.answer _ _
    · exact h.respond _
  | openCmd a => exact open_keeps_inv h he
  | close => exact close_keeps_inv h hs he
  | bread a => obtain ⟨n, -, -, ⟨b, -, -, rfl⟩ | rfl⟩ := bread_cases he <;> exact { h with }
  | illegalOpc0 _ _ | illegalOpc4 _ _ | illegalOpc5 _ _ | illegalOpc6 _ _ | illegalOpc7 _ _ | illegalOpcA _ _
  | illegalOpcB _ _ | illegalOpcC _ _ | illegalOpcD _ _ | illegalOpcE _ _ | illegalOpcF _ _ | illegalRsv _ _ _ =>
    exact ill he
  | _ => cases hi

/-! #### The engine -/

/-- An engine step keeps the invariant where its effect does and leaves TERM alone. -/
theorem engineStep_keeps_inv {sel : Instance → Bool} {f : Instance → Instance} (h : s.Inv)
    (he : engineStep s sel f = .next t) (inv : ∀ n, n.Inv s.cfg → sel n = true → (f n).Inv s.cfg)
    (term : ∀ n, (f n).term = n.term) : t.Inv := by
  obtain ⟨n, hn, hs, rfl⟩ := engineStep_next.mp he
  exact h.update hn (inv n (h.inst_inv n hn) hs) (term n)

theorem dgClass_rtp {cfg : Config} {l : Nat} (h : dgClass cfg l = .rtp) : l = cfg.lRtp := by
  unfold dgClass at h
  split_ifs at h with h0 hr
  exact hr

theorem dgClass_bare {cfg : Config} {l : Nat} (h : dgClass cfg l = .bare) : l = cfg.unitSize := by
  unfold dgClass at h
  split_ifs at h with h0 hr hb
  exact hb

/-- A datagram that exists keeps the invariant: the length of its class gives RX_UNIT its U bytes (R78, R81). -/
theorem classifyDatagram_keeps_inv {l : BitVec 16} {d : List Byte} (h : s.Inv) (hd : d.length = l.toNat)
    (he : classifyDatagram l d s = .next t) : t.Inv := by
  unfold classifyDatagram at he
  split at he
  · exact engineStep_keeps_inv h he (fun n hn ha => hn.die ha) fun _ => rfl
  · next hc =>
    have hu : (d.drop Config.rtpHdr).length = s.cfg.unitSize := by
      rw [List.length_drop, hd, dgClass_rtp hc, Config.lRtp, Nat.add_sub_cancel]
    split at he
    · exact engineStep_keeps_inv h he (fun n hn ha => hn.acceptRtp ha _ hu) fun _ => rfl
    · cases he
  · next hc =>
    exact engineStep_keeps_inv h he (fun n hn ha => hn.acceptBare h.cfg_wf ha (hd.trans (dgClass_bare hc))) fun _ => rfl
  · exact engineStep_keeps_inv h he (fun n hn ha => hn.ignore ha) fun _ => rfl

theorem classifyEvent_keeps_inv {e : Event} (h : s.Inv) (hw : eventWf e = true) (he : classifyEvent e s = .next t) :
    t.Inv := by
  cases e with
  | idle => exact engineStep_keeps_inv h he (fun n hn ha => hn.ignore ha) fun _ => rfl
  | rxerr => exact engineStep_keeps_inv h he (fun n hn ha => hn.die ha) fun _ => rfl
  | dgram l d => exact classifyDatagram_keeps_inv h (lengthIs_iff.mp hw) he

/-- An answered CLASSIFY waits at an empty port, or is that of the event it takes (R174). -/
theorem classify_takes {s t : State} (h : execClassify s = .next t) :
    t = s ∨ ∃ e, eventWf e = true ∧ classifyEvent e { s with offer := none } = .next t := by
  unfold execClassify at h
  split at h
  · cases h
  · split at h
    · split at h
      · cases h; exact .inl rfl
      · next e _ =>
        split at h
        · next hw => exact .inr ⟨e, hw, h⟩
        · cases h
    · cases h

theorem classify_keeps_inv (h : s.Inv) (he : execClassify s = .next t) : t.Inv := by
  obtain rfl | ⟨e, hw, he⟩ := classify_takes he
  · exact h
  · exact classifyEvent_keeps_inv h.takeOffer hw he

/-- A CC_CHECK that answers is that of its packet's class, and a data packet is not null (R130, R86). -/
theorem ccCheck_class {s t : State} (h : execCcCheck s = .next t) :
    ∃ k, execTsNull k s = .next t ∨ execTsTei k s = .next t ∨ k.pid ≠ Config.nullPid ∧ execTsData k s = .next t := by
  unfold execCcCheck at h
  split at h
  · cases h
  · split at h
    · split at h
      · cases h
      · next w _ =>
        refine ⟨TsHeader.ofWord w, ?_⟩
        dsimp only at h
        split at h
        · exact .inl h
        · exact .inr (.inl h)
        · next hc => exact .inr (.inr ⟨fun e => by simp [tsClass, e] at hc, h⟩)
    · cases h

theorem ccCheck_keeps_inv (h : s.Inv) (he : execCcCheck s = .next t) : t.Inv := by
  obtain ⟨k, he | he | ⟨hk, he⟩⟩ := ccCheck_class he
  · exact engineStep_keeps_inv h he (fun n hn ha => hn.nextPacket ha) fun _ => rfl
  · exact engineStep_keeps_inv h he (fun n hn ha => (hn.transportError _).nextPacket ha) fun _ => rfl
  · refine engineStep_keeps_inv h he (fun n hn ha => ?_) fun n => ?_
    · have hc := hn.checkContinuity hk k.cc
      obtain ⟨e, ct, hw⟩ := checkContinuity_writes s.cfg k.pid k.cc n
      rw [hw] at hc ⊢
      exact hc.nextPacket ha
    · obtain ⟨e, ct, hw⟩ := checkContinuity_writes s.cfg k.pid k.cc n
      rw [hw]; rfl

theorem seqCheck_keeps_inv (h : s.Inv) (he : execSeqCheck s = .next t) : t.Inv :=
  engineStep_keeps_inv h he (fun _ hn ha => hn.checkSeq h.cfg_wf ha) fun n => by
    obtain ⟨_, _, hw⟩ := checkSeq_writes s.cfg n; rw [hw]

theorem pktCount_keeps_inv (h : s.Inv) (he : execPktCount s = .next t) : t.Inv :=
  engineStep_keeps_inv h he (fun _ hn ha => hn.countPacket ha) fun n => by
    obtain ⟨_, hw⟩ := countPacket_writes s.cfg n; rw [hw]

theorem push_keeps_inv (h : s.Inv) (he : execPush s = .next t) : t.Inv :=
  engineStep_keeps_inv h he (fun _ hn ha => hn.pushUnit (unitSize_pos h.cfg_wf) ha) fun n => by
    obtain ⟨_, _, _, hw⟩ := pushUnit_writes s.cfg n; rw [hw]

theorem start_keeps_inv {p : BitVec 3} (h : s.Inv) (he : execStart p s = .next t) : t.Inv :=
  engineStep_keeps_inv h he (fun _ hn _ => hn.start) fun n => by split <;> rfl

theorem termCheck_keeps_inv (h : s.Inv) (he : execTermCheck s = .next t) : t.Inv :=
  engineStep_keeps_inv h he (fun _ hn _ => hn.termCheck) fun n => by split <;> rfl

theorem exit_keeps_inv {p : BitVec 3} (h : s.Inv) (he : execExit p s = .next t) : t.Inv :=
  engineStep_keeps_inv h he (fun _ hn hr => hn.exit (by simpa using hr)) fun _ => rfl

/-- Every turn of the engine keeps the invariant (R170, R179). -/
theorem engineTurn_keeps_inv (h : s.Inv) (he : engineTurn s = .next t) : t.Inv := by
  cases hn : s.inst with
  | none => rw [engineTurn_closed hn] at he; cases he; exact h
  | some n =>
    rw [engineTurn_eq hn] at he
    split at he
    · exact start_keeps_inv h he
    · exact classify_keeps_inv h he
    · exact seqCheck_keeps_inv h he
    · exact ccCheck_keeps_inv h he
    · exact pktCount_keeps_inv h he
    · exact push_keeps_inv h he
    · exact termCheck_keeps_inv h he
    · exact exit_keeps_inv h he
    · cases he; exact h
    · cases he; exact h

/-! #### One step -/

/-- No command word is an operation of the engine (R72, R73). -/
theorem engineOp_decodeCmd (w : Word64) : engineOp (decodeCmd w) = false := by
  apply decodeCmd_cases (P := fun i => engineOp i = false) w <;> intros <;> rfl

/-- Running a consumer's frame keeps the invariant. -/
theorem runFrame_keeps_inv {f : Frame} {i : Instr} (hd : decode s.cfg f = .ok i) (hi : engineOp i = false) (h : s.Inv)
    (hs : s.served < s.cfg.nCons) (he : runFrame f s = .next t) : t.Inv := by
  rw [runFrame, hd] at he
  exact consumerOp_keeps_inv hi h hs he

/-- Whoever the arbiter serves, the invariant stays (R58, R200, R235). -/
theorem serve_keeps_inv {r : Request} (h : s.Inv) (he : serve r s = .next t) : t.Inv := by
  have tag (c : Nat) : ({ s with served := c } : State).Inv := { h with }
  cases r with
  | command c w =>
    simp only [serve] at he
    split_ifs at he with hc ho
    exact runFrame_keeps_inv rfl (engineOp_decodeCmd w) (tag c) (Nat.not_le.mp hc) he
  | resume c =>
    simp only [serve] at he
    split_ifs at he with ho
    · exact consumerOp_keeps_inv rfl (tag c) (h.outstanding_lt c ho) he
    · cases he; exact h
  | bread c a =>
    simp only [serve] at he
    split_ifs at he with hc
    exact runFrame_keeps_inv rfl rfl (tag c) (Nat.not_le.mp hc) he
  | offer e =>
    simp only [serve] at he
    split_ifs at he with hw
    cases he; exact h.offerEvent hw
  | engine => exact serveEngine_keeps (P := State.Inv) (fun _ _ => engineTurn_keeps_inv) h he

end

/-- Settles O50: a step does nothing or serves the head of the schedule, and no request served breaks the invariant. -/
theorem everyStepKeepsTheInvariant : Obligations.EveryStepKeepsTheInvariant := by
  intro s t h he
  cases hs : s.sched with
  | nil => rw [step_nil hs] at he; cases he; exact h
  | cons r rest =>
    rw [step_cons hs] at he
    exact serve_keeps_inv (s := { s with sched := rest }) { h with } he

end Sys2Proof.Machine

/-! ### O39, O40: which operation writes which element (10_state.md R34 to R39) -/

namespace Sys2Proof.Machine

/-- The access matrix for one operation on an open block that stays open (R39): between `n` before and `m` after, an
element differs only where `i` is one of its writers. -/
structure WritesOwnElements (i : Instr) (n m : Instance) : Prop where
  c : m.c = n.c
  ring : i ≠ .push → m.head = n.head ∧ m.buf = n.buf
  span : i ≠ .flush → (∀ a, i ≠ .recv a) → m.tail = n.tail ∧ m.pend = n.pend
  seq : i ≠ .flush → i ≠ .seqCheck → m.seq = n.seq ∧ m.nerr = n.nerr
  pkt : i ≠ .flush → i ≠ .pktCount → m.pkt = n.pkt
  ovf : i ≠ .flush → i ≠ .push → m.ovf = n.ovf
  terr : i ≠ .flush → i ≠ .ccCheck → (∀ h, i ≠ .tsTei h) → m.terr = n.terr
  cerr : i ≠ .flush → i ≠ .ccCheck → (∀ h, i ≠ .tsData h) → m.cerr = n.cerr
  ct : i ≠ .flush → i ≠ .seqCheck → i ≠ .ccCheck → (∀ h, i ≠ .tsTei h) → (∀ h, i ≠ .tsData h) → m.ct = n.ct
  control : engineOp i = false → m.rxs = n.rxs ∧ m.phase = n.phase
  rxs : (∀ p, i ≠ .start p) → i ≠ .termCheck → (∀ p, i ≠ .exit p) → i ≠ .classify → i ≠ .dgFatalL0 →
    (∀ l, i ≠ .dgFatalRxerr l) → m.rxs = n.rxs
  rxSeq : i ≠ .classify → (∀ h d, i ≠ .dgRtp h d) → m.rxSeq = n.rxSeq
  rxUnit : i ≠ .classify → (∀ h d, i ≠ .dgRtp h d) → (∀ d, i ≠ .dgBare d) → m.rxKind = n.rxKind ∧ m.rxUnit = n.rxUnit
  rxIdx : i ≠ .classify → (∀ d, i ≠ .dgBare d) → i ≠ .seqCheck → i ≠ .ccCheck → (∀ h, i ≠ .tsNull h) →
    (∀ h, i ≠ .tsTei h) → (∀ h, i ≠ .tsData h) → m.rxIdx = n.rxIdx
  term : i ≠ .close → m.term = n.term
  term_stays : n.term = true → m.term = true

/-- Every effect keeps to the access matrix: what it writes, record update by record update. -/
theorem Effect.writesOwnElements {cfg : Config} {n m : Instance} {i : Instr} (h : Effect cfg n i m) :
    WritesOwnElements i n m := by
  cases h with
  | same => constructor <;> simp
  | recv => constructor <;> simp [Instance.consume, Instance.commit]
  | flush => constructor <;> simp [Instance.flushAll, Instance.ringFlush]
  | close => constructor <;> simp
  | push => obtain ⟨_, _, _, hw⟩ := pushUnit_writes cfg n; rw [hw]; constructor <;> simp [engineOp]
  | seqCheck => obtain ⟨_, _, hw⟩ := checkSeq_writes cfg n; rw [hw]; constructor <;> simp [engineOp]
  | pktCount => obtain ⟨_, hw⟩ := countPacket_writes cfg n; rw [hw]; constructor <;> simp [engineOp]
  | tsNull hi => obtain rfl | rfl := hi <;> constructor <;> simp [engineOp, Instance.nextPacket]
  | tsTei hi =>
    obtain rfl | rfl := hi <;> constructor <;> simp [engineOp, Instance.nextPacket, Instance.transportError]
  | @tsData _ k hi =>
    obtain ⟨_, _, hw⟩ := checkContinuity_writes cfg k.pid k.cc n
    obtain rfl | rfl := hi <;> rw [hw] <;> constructor <;> simp [engineOp, Instance.nextPacket]
  | rxs hi => obtain ⟨_, rfl⟩ | rfl | ⟨_, rfl⟩ | rfl | rfl | ⟨_, rfl⟩ := hi <;> constructor <;> simp [engineOp]
  | ignore hi => obtain rfl | ⟨_, rfl⟩ | ⟨_, _, rfl⟩ := hi <;> constructor <;> simp [engineOp]
  | rtp hi => obtain rfl | ⟨_, _, rfl⟩ := hi <;> constructor <;> simp [engineOp]
  | bare hi => obtain rfl | ⟨_, rfl⟩ := hi <;> constructor <;> simp [engineOp]

/-- Settles O39: only OPEN creates, only CLOSE destroys, and in between every effect keeps to the access matrix. -/
theorem eachElementHasItsWriters : Obligations.EachElementHasItsWriters := by
  intro s t i he
  refine ⟨inst_created he, fun hs ht => ?_, fun n m hn hm => ?_⟩
  · obtain ⟨n, hn⟩ := Option.isSome_iff_exists.mp hs
    by_contra hc
    obtain ⟨m, hm⟩ := inst_survives hn he hc
    simp [ht] at hm
  · have w := (effect_of_next he hn hm).writesOwnElements
    exact ⟨w.c, w.ring, w.span, w.seq, w.pkt, w.ovf, w.terr, w.cerr, w.ct, w.control, w.rxs, w.rxSeq, w.rxUnit, w.rxIdx,
      w.term, w.term_stays⟩

/-- Settles O40: no command word and no BREAD is an operation of the engine, and by the access matrix only those move
it. -/
theorem onlyTheEngineMovesTheEngine : Obligations.OnlyTheEngineMovesTheEngine := by
  intro s t w a i n m hi he hn hm
  have hop : engineOp i = false := by
    obtain rfl | rfl := hi
    · exact engineOp_decodeCmd w
    · rfl
  have ne {j : Instr} (hj : engineOp j = true) : i ≠ j := by rintro rfl; simp [hop] at hj
  have w := (effect_of_next he hn hm).writesOwnElements
  obtain ⟨hrxs, hphase⟩ := w.control hop
  obtain ⟨hkind, hunit⟩ := w.rxUnit (ne rfl) (fun _ _ => ne rfl) fun _ => ne rfl
  exact ⟨hrxs, hphase,
    { rxKind := hkind
      rxSeq := w.rxSeq (ne rfl) fun _ _ => ne rfl
      rxUnit := hunit
      rxIdx := w.rxIdx (ne rfl) (fun _ => ne rfl) (ne rfl) (ne rfl) (fun _ => ne rfl) (fun _ => ne rfl)
        fun _ => ne rfl }⟩

end Sys2Proof.Machine

/-! ### O41: what a consumer is answered (10_state.md R35, 60_exceptions.md R251) -/

namespace Sys2Proof.Machine

section
variable {n m : Instance}

theorem SameCursors.avail (h : SameCursors n m) : m.avail = n.avail := by
  simp only [Instance.avail, h.head, h.tail, h.c]

theorem SameCursors.commit (h : SameCursors n m) : SameCursors n.commit m.commit := by
  constructor <;> simp only [Instance.commit, h.c, h.head, h.tail, h.pend]

theorem SameCursors.spanSize (h : SameCursors n m) (cfg : Config) (k : Nat) : m.spanSize cfg k = n.spanSize cfg k := by
  simp only [Instance.spanSize, h.avail, h.c, h.tail]

/-- CONSUME moves equal cursors to equal cursors (R104 to R107). -/
theorem SameCursors.consume (h : SameCursors n m) (cfg : Config) (k : Nat) :
    SameCursors (n.consume cfg k) (m.consume cfg k) :=
  ⟨h.c, h.head, h.commit.tail, h.commit.spanSize cfg k⟩

theorem SameCursors.inSpan (h : SameCursors n m) (a : Nat) : m.inSpan a = n.inSpan a := by
  simp only [Instance.inSpan, h.tail, h.pend]

theorem SameStats.statsWords (h : SameStats n m) : statsWords m = statsWords n := by
  simp only [Machine.statsWords, h.pkt, h.terr, h.nerr, h.cerr, h.ovf]

/-- What a BREAD answers, by the cursors, BUF and the count of draws alone (R204, R52; log entry 5). -/
theorem bread_out_eq {s t : State} {a : BitVec 32} (hc : SameCursors n m) (hb : n.buf = m.buf)
    (h : execBread a { s with inst := some n } = .next t) :
    ∃ u, execBread a { s with inst := some m } = .next u ∧ u.out = t.out := by
  simp only [execBread, hc.c, hc.inSpan, ← hb] at h ⊢
  split at h
  · next ha =>
    rw [if_pos ha]
    split at h <;> cases h <;> exact ⟨_, rfl, rfl⟩
  · cases h

end

/-- Settles O41: the answers are made of the cursors, BUF, the counters and the count of draws, on which both agree. -/
theorem answersHideTheEngine : Obligations.AnswersHideTheEngine := by
  intro s n m i x a hc hb hs hi t he
  simp only [List.mem_cons, List.not_mem_nil, or_false] at hi
  obtain rfl | rfl | rfl | rfl | rfl := hi
  · refine ⟨_, rfl, ?_⟩
    have hk := hc.consume s.cfg x.toNat
    cases he
    simp only [State.respond_out, State.setInst_out, State.setInst_served, hk.tail, hk.pend]
  · cases he; exact ⟨_, rfl, rfl⟩
  · refine ⟨_, rfl, ?_⟩
    cases he
    simp only [State.respond_out, hs.statsWords]
  · exact bread_out_eq hc hb he
  · cases he; exact ⟨_, rfl, rfl⟩

end Sys2Proof.Machine

/-! ### O28: where the engine has no step (10_state.md R21, 43_receiver.md R170) -/

namespace Sys2Proof.Machine

section
variable {s : State}

theorem isAt_eq_false {n : Instance} {p : Phase} (h : ¬ (n.rxs = .listening ∧ n.phase = p)) : n.isAt p = false :=
  Bool.eq_false_iff.mpr fun e => h (isAt_iff.mp e)

theorem classify_stops (h : ∀ n, s.inst = some n → n.isAt .wait = false) : execClassify s = .fault .notEnabled := by
  unfold execClassify
  split
  · rfl
  · next n hn => simp [h n hn]

theorem ccCheck_stops (h : ∀ n, s.inst = some n → n.isAt .cc = false) : execCcCheck s = .fault .notEnabled := by
  unfold execCcCheck
  split
  · rfl
  · next n hn => simp [h n hn]

end

/-- Settles O28: where its selecting condition fails, or there is nothing to select it, each engine row stops. -/
theorem engineStepsOnlyWhereSelected : Obligations.EngineStepsOnlyWhereSelected := by
  intro s
  refine ⟨fun h p => ?_, fun h p => ?_, fun h i hi => ?_, fun h k d l i hi => ?_, fun h => ?_, fun h k i hi => ?_,
    fun h => ?_, fun h => ?_, fun h => ?_⟩
  · exact engineStep_stops fun n hn => by simpa using h n hn
  · exact engineStep_stops fun n hn => by simpa using h n hn
  · have hw n (hn : s.inst = some n) := isAt_eq_false (h n hn)
    simp only [List.mem_cons, List.not_mem_nil, or_false] at hi
    obtain rfl | rfl := hi
    · exact classify_stops hw
    · exact engineStep_stops hw
  · have hw n (hn : s.inst = some n) := isAt_eq_false (h n hn)
    simp only [List.mem_cons, List.not_mem_nil, or_false] at hi
    obtain rfl | rfl | rfl | rfl | rfl := hi <;> exact engineStep_stops hw
  · exact engineStep_stops fun n hn => isAt_eq_false (h n hn)
  · have hc n (hn : s.inst = some n) := isAt_eq_false (h n hn)
    simp only [List.mem_cons, List.not_mem_nil, or_false] at hi
    obtain rfl | hi := hi
    · exact ccCheck_stops hc
    · obtain rfl | rfl | rfl := hi <;> exact engineStep_stops hc
  · exact engineStep_stops fun n hn => isAt_eq_false (h n hn)
  · exact engineStep_stops fun n hn => isAt_eq_false (h n hn)
  · exact engineStep_stops fun n hn => isAt_eq_false (h n hn)

end Sys2Proof.Machine

/-! ### O30, O32, O35, O37: frames (10_state.md R39) -/

namespace Sys2Proof.Machine

/-- Replacing the registers of the block leaves the outside parties alone. -/
theorem SameParties.setInst (s : State) (n : Instance) : SameParties s (s.setInst n) :=
  ⟨rfl, rfl, rfl, rfl, rfl, rfl, rfl⟩

/-- Settles O30: CONSUME moves TAIL and PEND, and RECV answers once. -/
theorem recvFrame : Obligations.RecvFrame := by
  intro s t arg he
  obtain ⟨hn, rfl⟩ | ⟨n, hn, rfl⟩ := withOpen_next.mp he
  · exact ⟨⟨rfl, rfl, rfl, rfl, rfl, rfl, rfl⟩, ⟨_, rfl⟩, id, by simp [hn]⟩
  · refine ⟨⟨rfl, rfl, rfl, rfl, rfl, rfl, rfl⟩, ⟨_, rfl⟩, by simp [hn], fun n' hn' => ?_⟩
    rw [hn] at hn'; cases hn'
    exact ⟨_, rfl, rfl, rfl, fun _ => rfl, fun _ _ => rfl, rfl, ⟨rfl, rfl, rfl, rfl, rfl⟩, ⟨rfl, rfl, rfl⟩,
      ⟨rfl, rfl, rfl, rfl⟩⟩

/-- Ending one consumer's CLOSE leaves every other consumer's as it is (R233). -/
theorem outstanding_endClose {s : State} {c : Nat} (h : c ≠ s.served) : s.endClose.outstanding c ↔ s.outstanding c := by
  simp [State.outstanding, h]

/-- A CLOSE leaves a closed block, or one that differs in TERM at most (R233). -/
theorem close_inst {s t : State} (h : execClose s = .next t) :
    t.inst = none ∨ ∃ n b, s.inst = some n ∧ t.inst = some { n with term := b } := by
  have same (e : t.inst = s.inst) : t.inst = none ∨ ∃ n b, s.inst = some n ∧ t.inst = some { n with term := b } := by
    cases hs : s.inst with
    | none => exact .inl (e.trans hs)
    | some n => exact .inr ⟨n, n.term, rfl, e.trans hs⟩
  obtain ⟨-, rfl⟩ | ⟨-, -, rfl⟩ | ⟨n, hn, -, ⟨-, rfl⟩ | ⟨-, -, rfl⟩ | ⟨-, -, rfl⟩⟩ := close_cases h
  · exact same rfl
  · exact same rfl
  · exact .inr ⟨n, true, hn, rfl⟩
  · exact .inl rfl
  · exact same rfl

/-- What CLOSE may leave of the block, register by register (R233, R39). -/
theorem close_frame {s t : State} (h : execClose s = .next t) :
    t.inst = none ∨ ∃ n m, s.inst = some n ∧ t.inst = some m ∧ SameCursors n m ∧ SameBytes n m ∧ SameTable [] n m ∧
      m.seq = n.seq ∧ SameStats n m ∧ SameInFlight n m ∧ m.rxs = n.rxs ∧ m.phase = n.phase := by
  obtain ht | ⟨n, b, hn, ht⟩ := close_inst h
  · exact .inl ht
  · exact .inr ⟨n, _, hn, ht, ⟨rfl, rfl, rfl, rfl⟩, fun _ => rfl, fun _ _ => rfl, rfl, ⟨rfl, rfl, rfl, rfl, rfl⟩,
      ⟨rfl, rfl, rfl, rfl⟩, rfl, rfl⟩

/-- Settles O32: OPEN and CLOSE, by everything each of them can do. -/
theorem lifecycleFrame : Obligations.LifecycleFrame := by
  intro s t
  refine ⟨fun arg he => ?_, fun he => ?_⟩
  · obtain ⟨-, rfl⟩ | ⟨hn, hc, rfl⟩ | ⟨-, -, rfl⟩ := open_cases he
    · exact ⟨rfl, rfl, rfl, rfl, rfl, rfl, ⟨_, rfl⟩, fun _ => ⟨rfl, rfl⟩⟩
    · exact ⟨rfl, rfl, rfl, rfl, rfl, rfl, ⟨_, rfl⟩, fun h => (h.elim (by simp [hn]) fun hl => hl hc).elim⟩
    · exact ⟨rfl, rfl, rfl, rfl, rfl, rfl, ⟨_, rfl⟩, fun _ => ⟨rfl, rfl⟩⟩
  · have hf := close_frame he
    obtain ⟨-, rfl⟩ | ⟨-, -, rfl⟩ | ⟨n, hn, -, ⟨-, rfl⟩ | ⟨-, -, rfl⟩ | ⟨-, -, rfl⟩⟩ := close_cases he
    · exact ⟨rfl, rfl, rfl, rfl, .inl rfl, fun c hc => ⟨outstanding_endClose hc, fun _ => by simp [hc]⟩,
        .inr ⟨_, rfl⟩, hf⟩
    · exact ⟨rfl, rfl, rfl, rfl, .inl rfl, fun c _ => ⟨Iff.rfl, fun _ => Iff.rfl⟩, .inr ⟨_, rfl⟩, hf⟩
    · exact ⟨rfl, rfl, rfl, rfl, .inl rfl, fun c hc => by simp [State.outstanding, hc], .inl rfl, hf⟩
    · exact ⟨rfl, rfl, rfl, rfl, .inr ⟨by simp [hn], rfl⟩,
        fun c hc => ⟨(outstanding_endClose (s := s.dropInst) hc).trans (by simp [State.outstanding]), nofun⟩,
        .inr ⟨_, rfl⟩, hf⟩
    · exact ⟨rfl, rfl, rfl, rfl, .inl rfl, fun c _ => ⟨Iff.rfl, fun _ => Iff.rfl⟩, .inl rfl, hf⟩

/-- Settles O35: SEQ_CHECK is a step of the engine, whose effect writes SEQ, NERR, the table, RX_IDX and PHASE. -/
theorem seqCheckFrame : Obligations.SeqCheckFrame := by
  intro s t he
  obtain ⟨n, hn, -, rfl⟩ := engineStep_next.mp he
  obtain ⟨_, _, hw⟩ := checkSeq_writes s.cfg n
  refine ⟨SameParties.setInst s _, rfl, n, _, hn, rfl, ?_⟩
  rw [hw]
  exact ⟨⟨rfl, rfl, rfl, rfl⟩, fun _ => rfl, rfl, rfl, rfl, rfl, rfl, rfl, rfl, rfl, rfl⟩

/-- Settles O37: PKT_COUNT is a step of the engine, whose effect writes PKT and PHASE. -/
theorem pktCountFrame : Obligations.PktCountFrame := by
  intro s t he
  obtain ⟨n, hn, -, rfl⟩ := engineStep_next.mp he
  obtain ⟨_, hw⟩ := countPacket_writes s.cfg n
  refine ⟨SameParties.setInst s _, rfl, n, _, hn, rfl, ?_⟩
  rw [hw]
  exact ⟨⟨rfl, rfl, rfl, rfl⟩, fun _ => rfl, fun _ _ => rfl, rfl, rfl, rfl, rfl, rfl, rfl, rfl, ⟨rfl, rfl, rfl, rfl⟩⟩

end Sys2Proof.Machine

/-! ### O47: the live region as a queue (20_memory.md R61) -/

namespace Sys2Proof.Machine

section
variable {s t : State} {n : Instance}

/-- In an open block an answered engine step has its effect on the registers there are. -/
theorem engineStep_next_open {sel : Instance → Bool} {f : Instance → Instance} (hn : s.inst = some n)
    (h : engineStep s sel f = .next t) : t = s.setInst (f n) := by
  obtain ⟨n', hn', -, rfl⟩ := engineStep_next.mp h
  rw [hn] at hn'; cases hn'; rfl

/-- In an open block an answered command has its effect on the registers there are. -/
theorem withOpen_next_open {opc : BitVec 4} {f : Instance → State} (hn : s.inst = some n)
    (h : withOpen opc s f = .next t) : t = f n := by
  obtain ⟨hc, -⟩ | ⟨n', hn', rfl⟩ := withOpen_next.mp h
  · simp [hn] at hc
  · rw [hn] at hn'; cases hn'; rfl

end

/-- An empty ring has no live bytes (R30). -/
theorem avail_of_head_eq_tail {n : Instance} (h : n.head = n.tail) : n.avail = 0 := by
  simp [Instance.avail, subMod, h]

/-- The live bytes are those of BUF between the cursors, whatever the other registers hold (R30). -/
theorem SameCursors.liveBytes {n m : Instance} (h : SameCursors n m) (hb : SameBytes n m) :
    m.liveBytes = n.liveBytes := by
  unfold Instance.liveBytes
  simp only [h.avail, h.tail, h.c, hb _]

/-- An empty ring has an empty queue. -/
theorem liveBytes_of_head_eq_tail {n : Instance} (h : n.head = n.tail) : n.liveBytes = [] := by
  simp [Instance.liveBytes, avail_of_head_eq_tail h]

/-- A PUSH is counted as a drop and leaves the queue alone, or is not and appends its unit (R101, R103). -/
theorem Instance.Inv.push_queue {cfg : Config} {n : Instance} (h : n.Inv cfg) (hu : 0 < cfg.unitSize) :
    (n.pushUnit cfg).liveBytes = n.liveBytes ∧ (n.pushUnit cfg).ovf = inc cfg n.ovf ∨
      (n.pushUnit cfg).liveBytes = n.liveBytes ++ n.rxUnit.map some ∧ (n.pushUnit cfg).ovf = n.ovf := by
  by_cases hf : (n.head + cfg.unitSize) % n.c = n.tail
  · rw [pushUnit_drop hf]
    exact .inl ⟨SameCursors.liveBytes ⟨rfl, rfl, rfl, rfl⟩ fun _ => rfl, rfl⟩
  · exact .inr ⟨h.push_live hu hf, by rw [pushUnit_accept hf]⟩

/-- An operation that by the access matrix writes neither BUF nor a cursor leaves the queue alone (R39). -/
theorem WritesOwnElements.liveBytes {i : Instr} {n m : Instance} (w : WritesOwnElements i n m) (hp : i ≠ .push)
    (hr : ∀ a, i ≠ .recv a) (hf : i ≠ .flush) : m.liveBytes = n.liveBytes := by
  obtain ⟨hhead, hbuf⟩ := w.ring hp
  obtain ⟨htail, hpend⟩ := w.span hf hr
  exact SameCursors.liveBytes ⟨w.c, hhead, htail, hpend⟩ fun a => by rw [hbuf]

/-- Settles O47: PUSH, RECV and FLUSH by what each does to the queue, every other operation by the access matrix. -/
theorem liveRegionIsAQueue : Obligations.LiveRegionIsAQueue := by
  intro s t i n m h hn he hm
  have hi := h.inst_inv n hn
  refine ⟨?_, ?_, ?_, (effect_of_next he hn hm).writesOwnElements.liveBytes⟩
  · rintro rfl
    obtain rfl := engineStep_next_open hn he
    cases hm
    exact hi.push_queue (unitSize_pos h.cfg_wf)
  · rintro arg rfl
    obtain rfl := withOpen_next_open hn he
    cases hm
    exact ⟨hi.consume_live _, (hi.consume _).span_live⟩
  · rintro rfl
    obtain rfl := withOpen_next_open hn he
    cases hm
    exact liveBytes_of_head_eq_tail rfl

end Sys2Proof.Machine

/-! ### O18, O19: the buffer read port (20_memory.md R52, R53) -/

namespace Sys2Proof.Machine

section
variable {s : State} {n : Instance} {a : BitVec 32}

theorem inSpan_iff {a : Nat} : n.inSpan a = true ↔ n.tail ≤ a ∧ a < n.tail + n.pend := by
  simp [Instance.inSpan]

/-- A BREAD of a stored byte of the span answers it (R52). -/
theorem bread_stored {b : Byte} (hn : s.inst = some n) (hc : a.toNat < n.c)
    (ha : n.tail ≤ a.toNat ∧ a.toNat < n.tail + n.pend) (hb : memRead n.buf a.toNat = some b) :
    execBread a s = .next (s.respondByte b) := by
  simp only [execBread, hn, if_pos hc, if_pos (inSpan_iff.mpr ha), hb]

/-- A BREAD below C outside the span answers the free byte (R52). -/
theorem bread_free (hn : s.inst = some n) (hc : a.toNat < n.c)
    (ha : ¬ (n.tail ≤ a.toNat ∧ a.toNat < n.tail + n.pend)) :
    execBread a s = .next (s.respondByte (Config.freeByte s.draws)).countDraw := by
  simp only [execBread, hn, if_pos hc, if_neg (mt inSpan_iff.mp ha)]

/-- A BREAD beyond BUF, or with no BUF, has no meaning (R53). -/
theorem bread_refused (h : ∀ n, s.inst = some n → n.c ≤ a.toNat) : execBread a s = .refused .breadOutOfRange := by
  unfold execBread
  cases hn : s.inst with
  | none => rfl
  | some n => exact if_neg (Nat.not_lt.mpr (h n hn))

/-- Every address of the returned span holds a byte: the span is live, and live bytes have been pushed (R29, R30). -/
theorem Instance.Inv.span_stored {cfg : Config} (h : n.Inv cfg) {a : Nat} (ht : n.tail ≤ a)
    (ha : a < n.tail + n.pend) : ∃ b, memRead n.buf a = some b := by
  have hlive : a - n.tail < n.avail := by have := h.pend_le; omega
  have hpushed := h.live_pushed _ hlive
  rw [Nat.add_sub_cancel' ht, Nat.mod_eq_of_lt (Nat.lt_of_lt_of_le ha h.span_le)] at hpushed
  exact Option.isSome_iff_exists.mp hpushed

end

/-- Settles O18: BREAD by where its address lies. -/
theorem breadReadsTheReturnedSpan : Obligations.BreadReadsTheReturnedSpan := by
  intro s a
  refine ⟨fun n b hn hc ht ha hb => bread_stored hn hc ⟨ht, ha⟩ hb,
    fun n hn hc ha => ⟨_, _, bread_free hn hc ha⟩, fun h => bread_refused fun n hn => ?_⟩
  obtain h | ⟨n', hn', hc⟩ := h
  · simp [hn] at h
  · rw [hn] at hn'; cases hn'; exact hc

/-- Settles O19: by the invariant the span lies inside BUF and every address of it holds a byte. -/
theorem breadInsideTheSpanIsStored : Obligations.BreadInsideTheSpanIsStored := by
  intro s n a h hn ht ha
  have hi := h.inst_inv n hn
  obtain ⟨b, hb⟩ := hi.span_stored ht ha
  exact ⟨b, hb, bread_stored hn (Nat.lt_of_lt_of_le ha hi.span_le) ⟨ht, ha⟩ hb⟩

end Sys2Proof.Machine

/-! ### O6: a step runs the decoded operation (20_memory.md R58) -/

namespace Sys2Proof.Machine

section
variable {s : State} {i : Instr}

/-- A frame that decodes is executed (R91). -/
theorem runFrame_ok {f : Frame} (hd : decode s.cfg f = .ok i) : runFrame f s = exec i s := by
  rw [runFrame, hd]

/-- The turn of an engine is the operation its selector decodes to (R91, R170). -/
theorem engineTurn_ok {n : Instance} (hn : s.inst = some n) (hd : decode s.cfg (.step6 (stepSelector n)) = .ok i) :
    engineTurn s = exec i s := by
  rw [← runFrame_ok hd, engineTurn, hn]

/-- Only a datagram that exists decodes, and it is the operation of its length's class (R77, R78, R174). -/
theorem classifyDatagram_ok {l : BitVec 16} {d : List Byte} (hd : decode s.cfg (eventFrame (.dgram l d)) = .ok i) :
    eventWf (.dgram l d) = true ∧ classifyDatagram l d s = exec i s := by
  simp only [eventFrame, decode, decodeIngress, ingressWord_kind, ingressWord_len, if_true] at hd
  split_ifs at hd with hw
  refine ⟨hw, ?_⟩
  cases hc : dgClass s.cfg l.toNat with
  | rtp =>
    cases hh : RtpHeader.ofBytes d <;> simp only [hc, hh] at hd <;> cases hd
    simp only [classifyDatagram, hc, hh, exec]
  | fatal | bare | other =>
    simp only [hc] at hd; cases hd
    simp only [classifyDatagram, hc, exec]

/-- An event that decodes exists, and its meaning is the operation it decodes to (R174, R91). -/
theorem classifyEvent_ok {e : Event} (hd : decode s.cfg (eventFrame e) = .ok i) :
    eventWf e = true ∧ classifyEvent e s = exec i s := by
  cases e with
  | dgram l d => exact classifyDatagram_ok hd
  | rxerr => cases hd; exact ⟨rfl, rfl⟩
  | idle => cases hd; exact ⟨rfl, rfl⟩

/-- The turn of a waiting engine is the operation of the event offered, which it takes (R174). -/
theorem engineTurn_event {n : Instance} {e : Event} (hn : s.inst = some n) (hr : n.rxs = .listening)
    (hp : n.phase = .wait) (ho : s.offer = some e) (hd : decode s.cfg (eventFrame e) = .ok i) :
    engineTurn s = exec i { s with offer := none } := by
  obtain ⟨hw, hc⟩ := classifyEvent_ok (s := { s with offer := none }) hd
  calc engineTurn s = execClassify s := by rw [engineTurn_eq hn, hr, hp]
    _ = classifyEvent e { s with offer := none } := by
      simp only [execClassify, hn, if_pos (isAt_iff.mpr ⟨hr, hp⟩), ho, if_pos hw]
    _ = exec i { s with offer := none } := hc

/-- The turn of an engine at CC_CHECK is the operation of the packet's header (R130, R86). -/
theorem engineTurn_packet {n : Instance} {w : BitVec 32} (hn : s.inst = some n) (hr : n.rxs = .listening)
    (hp : n.phase = .cc) (hw : tsWordAt n.rxUnit n.rxIdx = some w) (hd : decode s.cfg (.tshdr32 w) = .ok i) :
    engineTurn s = exec i s := by
  obtain rfl : decodeTs w = i := Except.ok.inj hd
  calc engineTurn s = execCcCheck s := by rw [engineTurn_eq hn, hr, hp]
    _ = exec (decodeTs w) s := by
      simp only [execCcCheck, hn, if_pos (isAt_iff.mpr ⟨hr, hp⟩), hw, decodeTs]
      cases tsClass (TsHeader.ofWord w) <;> rfl

/-- Under MICRO a step that serves the engine is one turn of it (R59). -/
theorem step_micro {rest : List Request} (hs : s.sched = .engine :: rest) (hg : s.cfg.arbGran = .micro) :
    step s = engineTurn { s with sched := rest } := by
  rw [step_cons hs, serve, serveEngine, hg]

end

/-- Settles O6: each form of request, from its port to the operation. -/
theorem stepRunsTheDecodedOperation : Obligations.StepRunsTheDecodedOperation := by
  intro s rest i
  refine ⟨fun c w hs hc ho hd => ?_, fun c a hs hc hd => ?_, fun c hs ho => ?_, fun n hs hg hn hd => ?_,
    fun n e hs hg hn hr hp ho hd => ?_, fun n w hs hg hn hr hp hw hd => ?_⟩
  · rw [step_cons hs, serve, if_neg (Nat.not_le.mpr hc), if_neg ho]
    exact runFrame_ok hd
  · rw [step_cons hs, serve, if_neg (Nat.not_le.mpr hc)]
    exact runFrame_ok hd
  · rw [step_cons hs, serve, if_pos ho]
  · rw [step_micro hs hg]
    exact engineTurn_ok hn hd
  · rw [step_micro hs hg]
    exact engineTurn_event (s := { s with sched := rest }) hn hr hp ho hd
  · rw [step_micro hs hg]
    exact engineTurn_packet (s := { s with sched := rest }) hn hr hp hw hd

end Sys2Proof.Machine

/-! ### O10: what one engine operation holds under ARB_GRAN = UNIT (20_memory.md R59, 43_receiver.md R179) -/

namespace Sys2Proof.Machine

/-- Everything an engine operation of at least one turn can do: that turn, and the rest of the event if it is not
finished (R59). -/
theorem engineUnit_cases {k : Nat} {s t : State} (h : engineUnit (k + 1) s = .next t) :
    ∃ u, engineTurn s = .next u ∧ (u.midUnit = true ∧ engineUnit k u = .next t ∨ u.midUnit = false ∧ t = u) := by
  unfold engineUnit at h
  split at h
  · next u hu =>
    refine ⟨u, hu, ?_⟩
    split at h
    · next hmid => exact .inl ⟨hmid, h⟩
    · next hmid => cases h; exact .inr ⟨Bool.eq_false_iff.mpr hmid, rfl⟩
  · cases h
  · cases h

/-- An engine operation of at most k turns is a run of at most k single turns (R59). -/
theorem engineUnit_run {k : Nat} {s t : State} (h : engineUnit k s = .next t) : ∃ j ≤ k, engineTurns j s = .next t := by
  induction k generalizing s with
  | zero => exact ⟨0, Nat.le_refl _, h⟩
  | succ k ih =>
    obtain ⟨u, hu, ⟨-, h⟩ | ⟨-, rfl⟩⟩ := engineUnit_cases h
    · obtain ⟨j, hj, hrun⟩ := ih h
      exact ⟨j + 1, Nat.succ_le_succ hj, by simp only [engineTurns, hu, hrun]⟩
    · exact ⟨1, Nat.succ_le_succ (Nat.zero_le k), by simp only [engineTurns, hu]⟩

theorem midUnit_iff {s : State} : s.midUnit = true ↔ ∃ n, s.inst = some n ∧ n.rxs = .listening ∧ n.phase ≠ .wait := by
  unfold State.midUnit
  cases s.inst <;> simp

/-- How many turns are enough to finish the event (R179): from WAIT, SEQ_CHECK, one CC_CHECK for each packet left,
PKT_COUNT, PUSH and TERM_CHECK are still to come. -/
def Instance.turnsLeft (cfg : Config) (n : Instance) : Nat :=
  match n.phase with
  | .wait => cfg.nTs + 5
  | .seq => cfg.nTs + 4
  | .cc => cfg.nTs - n.rxIdx + 3
  | .pktcnt => 3
  | .push => 2
  | .termchk => 1

theorem turnsLeft_pos (cfg : Config) (n : Instance) : 0 < n.turnsLeft cfg := by
  unfold Instance.turnsLeft
  split <;> omega

/-- Every CC_CHECK brings the end of the event one turn nearer (R130). -/
theorem turnsLeft_nextPacket {cfg : Config} {n m : Instance} (hp : n.phase = .cc) (hi : n.rxIdx < cfg.nTs)
    (hm : m.rxIdx = n.rxIdx) : (m.nextPacket cfg).turnsLeft cfg < n.turnsLeft cfg := by
  simp only [Instance.turnsLeft, Instance.nextPacket, hp, hm]
  by_cases hl : n.rxIdx + 1 = cfg.nTs
  · simp only [if_pos hl]; omega
  · simp only [if_neg hl]; omega

/-- A CLASSIFY that enters the processing of an event leaves fewer turns to its end than WAIT (R173 to R178). -/
theorem classify_advances {s t : State} {n m : Instance} (he : execClassify s = .next t) (hn : s.inst = some n)
    (hm : t.inst = some m) (hr : m.rxs = .listening) (hp : m.phase ≠ .wait) :
    m.turnsLeft s.cfg < n.turnsLeft s.cfg := by
  obtain ⟨n', hn', ha, hcase⟩ := classify_cases he
  rw [hn] at hn'; cases hn'
  have hwait : n.phase = .wait := (isAt_iff.mp ha).2
  obtain ⟨-, rfl⟩ | ⟨m', rfl, hcase⟩ := hcase
  · rw [hn] at hm; cases hm
    exact absurd hwait hp
  · cases hm
    obtain rfl | rfl | ⟨_, _, rfl⟩ | ⟨_, rfl⟩ := hcase
    · simp [Instance.turnsLeft, hwait]
    · cases hr
    · simp [Instance.turnsLeft, hwait]
    · simp [Instance.turnsLeft, hwait]

/-- A turn that ends inside the processing of an event leaves fewer turns to its end: START, TERM_CHECK, EXIT and an
engine that has ended cannot end there, and each of the other steps of R170 goes on to a later phase or packet (R179). -/
theorem engineTurn_advances {s t : State} {n : Instance} (h : s.Inv) (hn : s.inst = some n)
    (he : engineTurn s = .next t) (ht : t.midUnit = true) :
    ∃ m, t.inst = some m ∧ m.turnsLeft s.cfg < n.turnsLeft s.cfg := by
  obtain ⟨m, hm, hr, hp⟩ := midUnit_iff.mp ht
  refine ⟨m, hm, ?_⟩
  have eff {sel f} (hs : engineStep s sel f = .next t) : m = f n := by
    obtain rfl := engineStep_next_open hn hs
    cases hm; rfl
  rw [engineTurn_eq hn] at he
  split at he
  · obtain rfl := eff he
    cases hterm : n.term <;> simp [hterm] at hr hp
  · exact classify_advances he hn hm hr hp
  · next hseq =>
    obtain rfl := eff he
    obtain ⟨_, _, hw⟩ := checkSeq_writes s.cfg n
    rw [hw]
    simp [Instance.turnsLeft, hseq]
  · next hrxs hcc =>
    have hi := (h.inst_inv n hn).idx_lt hrxs hcc
    obtain ⟨_, w, -, -, -, he | he | he⟩ := ccCheck_cases he
    · obtain rfl := eff he; exact turnsLeft_nextPacket hcc hi rfl
    · obtain rfl := eff he; exact turnsLeft_nextPacket hcc hi rfl
    · obtain rfl := eff he
      obtain ⟨_, _, hw⟩ := checkContinuity_writes s.cfg (TsHeader.ofWord w).pid (TsHeader.ofWord w).cc n
      exact turnsLeft_nextPacket hcc hi (by rw [hw])
  · next hcnt =>
    obtain rfl := eff he
    obtain ⟨_, hw⟩ := countPacket_writes s.cfg n
    rw [hw]
    simp [Instance.turnsLeft, hcnt]
  · next hpush =>
    obtain rfl := eff he
    obtain ⟨_, _, _, hw⟩ := pushUnit_writes s.cfg n
    rw [hw]
    simp [Instance.turnsLeft, hpush]
  · obtain rfl := eff he
    cases hterm : n.term <;> simp [hterm] at hr hp
  · obtain rfl := eff he; cases hr
  · next hend => cases he; rw [hn] at hm; cases hm; simp [hend] at hr
  · next hend => cases he; rw [hn] at hm; cases hm; simp [hend] at hr

/-- Enough turns finish the event (R59, R179). -/
theorem engineUnit_finishes {k : Nat} {s t : State} {n : Instance} (h : s.Inv) (hn : s.inst = some n)
    (hk : n.turnsLeft s.cfg ≤ k) (he : engineUnit k s = .next t) : t.midUnit = false := by
  induction k generalizing s n with
  | zero => exact absurd (turnsLeft_pos s.cfg n) (by omega)
  | succ k ih =>
    obtain ⟨u, hu, ⟨hmid, he⟩ | ⟨hmid, rfl⟩⟩ := engineUnit_cases he
    · obtain ⟨m, hm, hlt⟩ := engineTurn_advances h hn hu hmid
      exact ih (engineTurn_keeps_inv h hu) hm (by rw [engineTurn_cfg hu]; omega) he
    · exact hmid

/-- Settles O10: the engine's operation is a run of its turns, and from WAIT there are enough of them. -/
theorem unitGranularityIsARunOfTurns : Obligations.UnitGranularityIsARunOfTurns := by
  intro s t rest hg hs he
  rw [step_cons hs, serve, serveEngine, hg] at he
  refine ⟨engineUnit_run he, fun h n hn hp => ?_⟩
  refine engineUnit_finishes (s := { s with sched := rest }) { h with } hn ?_ he
  simp [Instance.turnsLeft, hp]

end Sys2Proof.Machine

/-! ### O4: the illegal command words (30_encoding.md R73, 44_consumer.md R205) -/

namespace Sys2Proof.Machine

section
variable {o : BitVec 4} {r : BitVec 28} {a : BitVec 32}

/-- The opcodes that R72 defines. -/
theorem definedOpc_iff : definedOpc o = true ↔ o = 0x1#4 ∨ o = 0x2#4 ∨ o = 0x3#4 ∨ o = 0x8#4 ∨ o = 0x9#4 := by
  simp [definedOpc, or_assoc]

/-- The opcodes that R72 reserves. -/
theorem definedOpc_eq_false_iff : definedOpc o = false ↔
    o = 0x0#4 ∨ o = 0x4#4 ∨ o = 0x5#4 ∨ o = 0x6#4 ∨ o = 0x7#4 ∨ o = 0xA#4 ∨ o = 0xB#4 ∨ o = 0xC#4 ∨ o = 0xD#4 ∨
      o = 0xE#4 ∨ o = 0xF#4 := by
  revert o; decide

/-- The reserved opcodes as numbers (R72). -/
theorem definedOpc_eq_false_iff_toNat :
    definedOpc o = false ↔ o.toNat = 0 ∨ 4 ≤ o.toNat ∧ o.toNat ≤ 7 ∨ 10 ≤ o.toNat := by
  revert o; decide

/-- The opcodes whose ARG must be 0 (R73). -/
theorem argMustBeZero_iff : argMustBeZero o = true ↔ o = 0x2#4 ∨ o = 0x3#4 ∨ o = 0x9#4 := by
  simp [argMustBeZero, or_assoc]

/-- The opcodes whose ARG must be 0, as numbers (R73). -/
theorem argMustBeZero_iff_toNat : argMustBeZero o = true ↔ o.toNat = 2 ∨ o.toNat = 3 ∨ o.toNat = 9 := by
  revert o; decide

/-- Word 0 of an ILLEGAL response as a number (R74). -/
theorem responseWord_illegal (o : BitVec 4) :
    responseWord .illegal o false = BitVec.ofNat 64 (o.toNat * 16 + 1) := by
  apply BitVec.eq_of_toNat_eq
  have := o.isLt
  simp only [responseWord, statusCode, toNat_append_eq, BitVec.toNat_ofNat, BitVec.toNat_ofBool, Bool.toNat_false]
  omega

/-- Every 64-bit word is the word of its fields (R71). -/
theorem exists_cmdWord (w : Word64) : ∃ o r a, w = cmdWord o r a := ⟨_, _, _, (cmdWord_fields w).symm⟩

/-- The fields of a word as numbers (R71). -/
theorem cmdWord_fields_toNat : (cmdWord o r a).toNat % 16 = o.toNat ∧ (cmdWord o r a).toNat / 16 % 2 ^ 28 = r.toNat ∧
    (cmdWord o r a).toNat / 2 ^ 32 = a.toNat := by
  have := o.isLt
  have := r.isLt
  rw [cmdWord_toNat]
  omega

/-- A word of a reserved opcode is answered ILLEGAL (R205). -/
theorem exec_decodeCmd_reserved (h : definedOpc o = false) (s : State) :
    exec (decodeCmd (cmdWord o r a)) s = answerIllegal o s := by
  obtain rfl | rfl | rfl | rfl | rfl | rfl | rfl | rfl | rfl | rfl | rfl := definedOpc_eq_false_iff.mp h <;>
    simp only [decodeCmd, cmdWord_opc] <;> rfl

/-- A word of a defined opcode with RSV or ARG set where it must be 0 is malformed (R73). -/
theorem decodeCmd_malformed (h : definedOpc o = true) (hm : r ≠ 0#28 ∨ argMustBeZero o = true ∧ a ≠ 0#32) :
    decodeCmd (cmdWord o r a) = .illegalRsv o r a := by
  by_cases hr : r = 0#28
  · obtain ⟨hz, ha⟩ := hm.resolve_left (not_not.mpr hr)
    obtain rfl | rfl | rfl := argMustBeZero_iff.mp hz <;>
      simp [decodeCmd, cmdWord_opc, cmdWord_rsv, cmdWord_arg, hr, ha]
  · obtain rfl | rfl | rfl | rfl | rfl := definedOpc_iff.mp h <;>
      simp [decodeCmd, cmdWord_opc, cmdWord_rsv, cmdWord_arg, hr]

/-- An illegal word is answered ILLEGAL with its opcode, whatever the state (R73, R205). -/
theorem exec_decodeCmd_illegal (h : definedOpc o = false ∨ r ≠ 0#28 ∨ argMustBeZero o = true ∧ a ≠ 0#32) (s : State) :
    exec (decodeCmd (cmdWord o r a)) s = answerIllegal o s := by
  cases hd : definedOpc o with
  | false => exact exec_decodeCmd_reserved hd s
  | true => rw [decodeCmd_malformed hd (by simpa [hd] using h)]; rfl

/-- RECV carries any ARG (R72). -/
theorem decodeCmd_recv (a : BitVec 32) : decodeCmd (cmdWord 0x1#4 0#28 a) = .recv a := by
  simp [decodeCmd, cmdWord_opc, cmdWord_rsv, cmdWord_arg]

/-- OPEN carries any ARG (R72). -/
theorem decodeCmd_openCmd (a : BitVec 32) : decodeCmd (cmdWord 0x8#4 0#28 a) = .openCmd a := by
  simp [decodeCmd, cmdWord_opc, cmdWord_rsv, cmdWord_arg]

end

/-- Settles O4: an illegal word's fields lead to an ILLEGAL row, and any other word is one of the five commands. -/
theorem illegalWordsByTheirBits : Obligations.IllegalWordsByTheirBits := by
  intro w
  obtain ⟨o, r, a, rfl⟩ := exists_cmdWord w
  obtain ⟨ho, hr, ha⟩ := cmdWord_fields_toNat (o := o) (r := r) (a := a)
  have zero {k : Nat} (x : BitVec k) : x.toNat = 0 ↔ x = 0#k := BitVec.toNat_inj (y := 0#k)
  simp only [ho, hr, ha, ← definedOpc_eq_false_iff_toNat, ← argMustBeZero_iff_toNat, BitVec.ofNat_toNat,
    BitVec.setWidth_eq, ne_eq, zero r, zero a]
  refine ⟨fun h s => ?_, fun h => ?_⟩
  · rw [exec_decodeCmd_illegal h, ← responseWord_illegal]; rfl
  · simp only [not_or, not_and, not_not, Bool.not_eq_false] at h
    obtain ⟨hd, rfl, hz⟩ := h
    obtain rfl | rfl | rfl | rfl | rfl := definedOpc_iff.mp hd
    · exact .inl ⟨rfl, decodeCmd_recv a⟩
    · obtain rfl := hz rfl
      exact .inr (.inl ⟨rfl, rfl⟩)
    · obtain rfl := hz rfl
      exact .inr (.inr (.inl ⟨rfl, rfl⟩))
    · exact .inr (.inr (.inr (.inl ⟨rfl, decodeCmd_openCmd a⟩)))
    · obtain rfl := hz rfl
      exact .inr (.inr (.inr (.inr ⟨rfl, rfl⟩)))

end Sys2Proof.Machine

/-! ### O1, O13, O42: known words, the counters, and the fields that are not read (30_encoding.md R71 to R91) -/

namespace Sys2Proof.Machine

/-- Settles O1: the decoder evaluates on each of the eight words. -/
theorem knownWordsDecode : Obligations.KnownWordsDecode := by
  unfold Obligations.KnownWordsDecode
  decide

/-- Settles O13: GETSTATS in an open block is its effect, an answer that only adds to what was delivered. -/
theorem getstatsSnapshotsTheCounters : Obligations.GetstatsSnapshotsTheCounters :=
  fun _ _ hn => withOpen_next.mpr (.inr ⟨_, hn, rfl⟩)

/-- Settles O42: the classes and the meanings of the packet and datagram rows read no other field. -/
theorem unreadFieldsDoNotMatter : Obligations.UnreadFieldsDoNotMatter := by
  refine ⟨fun s h k hp ht hc => ⟨?_, rfl, ?_, ?_⟩, fun s h k d hs => ?_⟩
  · simp only [tsClass, hp, ht]
  · simp only [exec, execTsTei, hp]
  · simp only [exec, execTsData, hp, hc]
  · simp only [exec, execDgRtp, hs]

end Sys2Proof.Machine

/-! ### O20, O38: PUSH (40_ring_buffer.md R101, R103) -/

namespace Sys2Proof.Machine

section
variable {s : State} {n : Instance}

/-- A selected PUSH has its effect on the registers there are (R101). -/
theorem push_selected (hn : s.inst = some n) (hr : n.rxs = .listening) (hp : n.phase = .push) :
    exec .push s = .next (s.setInst (n.pushUnit s.cfg)) :=
  engineStep_some hn (isAt_iff.mpr ⟨hr, hp⟩)

/-- A run of bytes reads back after it is written (R51, R55). -/
theorem memRead_memWrite_inside {m : Memory} {a k : Nat} {bs : List Byte} (h : k < bs.length) :
    memRead (memWrite m a bs) (a + k) = bs[k]? := by
  rw [memRead_memWrite, if_pos (by omega), Nat.add_sub_cancel_left]

end

/-- Settles O20: a selected PUSH drops or stores, and a stored unit reads back where it was written. -/
theorem pushStoresOrDrops : Obligations.PushStoresOrDrops := by
  intro s n hn hr hp
  dsimp only
  rw [push_selected hn hr hp]
  refine ⟨fun hfull => ?_, fun hroom => ⟨memWrite n.buf n.head n.rxUnit, ?_, fun k => memRead_memWrite_inside,
    fun a => memRead_memWrite_outside⟩⟩
  · rw [pushUnit_drop hfull]; rfl
  · rw [pushUnit_accept hroom]; rfl

/-- Settles O38: PUSH is a step of the engine, whose effect writes BUF, HEAD, OVF and PHASE; a drop leaves BUF and HEAD,
a store leaves OVF and the bytes outside the unit. -/
theorem pushFrame : Obligations.PushFrame := by
  intro s t he
  obtain ⟨n, hn, -, rfl⟩ := engineStep_next.mp he
  refine ⟨SameParties.setInst s _, rfl, n, _, hn, rfl, ?_⟩
  by_cases hfull : (n.head + s.cfg.unitSize) % n.c = n.tail
  · rw [pushUnit_drop hfull]
    exact ⟨rfl, rfl, rfl, fun _ _ => rfl, rfl, rfl, rfl, rfl, rfl, rfl, rfl, ⟨rfl, rfl, rfl, rfl⟩,
      fun _ => ⟨rfl, fun _ => rfl⟩, fun hroom => absurd hfull hroom⟩
  · rw [pushUnit_accept hfull]
    exact ⟨rfl, rfl, rfl, fun _ _ => rfl, rfl, rfl, rfl, rfl, rfl, rfl, rfl, ⟨rfl, rfl, rfl, rfl⟩,
      fun h => absurd h hfull, fun _ => ⟨rfl, fun _ => memRead_memWrite_outside⟩⟩

end Sys2Proof.Machine

/-! ### O43, O55: a full ring (40_ring_buffer.md R102, R109) -/

namespace Sys2Proof.Machine

section
variable {cfg : Config} {n : Instance}

/-- The new HEAD lies U bytes behind the live bytes, of which there are at most `C - U`: it meets TAIL where it comes
round to it, and nowhere sooner (R102). -/
theorem Instance.Inv.full_iff (h : n.Inv cfg) (hu : 0 < cfg.unitSize) :
    (n.head + cfg.unitSize) % n.c = n.tail ↔ n.avail = n.c - cfg.unitSize := by
  have hhead : (n.head + cfg.unitSize) % n.c = (n.tail + (n.avail + cfg.unitSize)) % n.c := by
    rw [head_of_avail h.head_lt h.tail_lt, Nat.mod_add_mod, Nat.add_assoc]
  have htail := h.tail_lt
  have hle := h.avail_le
  rw [hhead, mod_of_lt_two (by omega)]
  split <;> omega

/-- How many more units the ring takes (R109): the bytes between the live ones and the capacity, in units. -/
def Instance.freeUnits (cfg : Config) (n : Instance) : Nat := (n.c - cfg.unitSize - n.avail) / cfg.unitSize

/-- A full ring takes no unit (R102). -/
theorem freeUnits_full (h : n.avail = n.c - cfg.unitSize) : n.freeUnits cfg = 0 := by
  rw [Instance.freeUnits, h, Nat.sub_self, Nat.zero_div]

/-- An accepted PUSH takes one of the free units (R101). -/
theorem Instance.Inv.freeUnits_accept (h : n.Inv cfg) (hu : 0 < cfg.unitSize)
    (hroom : (n.head + cfg.unitSize) % n.c ≠ n.tail) :
    n.freeUnits cfg = (n.pushUnit cfg).freeUnits cfg + 1 := by
  have hle : n.avail + cfg.unitSize + cfg.unitSize ≤ n.c := by
    have hne := mt (h.full_iff hu).mpr hroom
    have := h.avail_le
    exact unit_gap (Nat.dvd_add h.avail_dvd (Nat.dvd_refl _)) h.c_dvd (by omega)
  have hc : (n.pushUnit cfg).c = n.c := by rw [pushUnit_accept hroom]
  rw [Instance.freeUnits, Instance.freeUnits, hc, h.push_avail hu hroom, ← Nat.add_div_right _ hu]
  congr 1
  omega

/-- An empty ring takes the units of its capacity (R109). -/
theorem freeUnits_of_head_eq_tail (h : n.head = n.tail) :
    n.freeUnits cfg = (n.c - cfg.unitSize) / cfg.unitSize := by
  rw [Instance.freeUnits, avail_of_head_eq_tail h, Nat.sub_zero]

/-- The engine about to push unit `u`, as `pushAll` places it (R109). -/
def Instance.holding (n : Instance) (u : List Byte) : Instance :=
  { n with rxs := .listening, phase := .push, rxUnit := u }

theorem Instance.Inv.holding (h : n.Inv cfg) {u : List Byte} (hl : u.length = cfg.unitSize) : (n.holding u).Inv cfg :=
  h.setEngine .listening .push n.rxKind n.rxSeq u n.rxIdx hl h.idx_le nofun nofun nofun (by simp) nofun

/-- PUSHes one after the other: the first one's effect, and the others from there (R109). -/
theorem pushAll_cons {s : State} (hn : s.inst = some n) (u : List Byte) (us : List (List Byte)) :
    pushAll (u :: us) s = pushAll us (s.setInst ((n.holding u).pushUnit s.cfg)) := by
  have hpush : exec .push (s.setInst { n with rxs := .listening, phase := .push, rxUnit := u }) =
      .next (s.setInst ((n.holding u).pushUnit s.cfg)) := push_selected rfl rfl rfl
  simp only [pushAll, hn, hpush]

/-- What PUSHes of `units` make of the ring: the free units are filled with the first of them, in order, and every
other one is counted as a drop (R101, R109). -/
structure Pushed (cfg : Config) (n : Instance) (units : List (List Byte)) (m : Instance) : Prop where
  pend : m.pend = n.pend
  live : m.liveBytes = n.liveBytes ++ (units.take (n.freeUnits cfg)).flatten.map some
  ovf : m.ovf = (n.ovf + (units.length - n.freeUnits cfg)) % cfg.cntMod

theorem Pushed.nil (h : n.Inv cfg) : Pushed cfg n [] n :=
  ⟨rfl, by simp, by simp [Nat.mod_eq_of_lt h.ovf_lt]⟩

/-- What the engine holds is no part of the ring. -/
theorem Pushed.of_holding {u : List Byte} {us : List (List Byte)} {m : Instance} (hp : Pushed cfg (n.holding u) us m) :
    Pushed cfg n us m :=
  ⟨hp.pend, hp.live, hp.ovf⟩

/-- A PUSH before other PUSHes: dropped by a full ring, which stays full, and else stored in front of the others. -/
theorem Pushed.cons (h : n.Inv cfg) (hu : 0 < cfg.unitSize) {us : List (List Byte)} {m : Instance}
    (hp : Pushed cfg (n.pushUnit cfg) us m) : Pushed cfg n (n.rxUnit :: us) m := by
  obtain ⟨hpend, hlive, hovf⟩ := hp
  by_cases hfull : (n.head + cfg.unitSize) % n.c = n.tail
  · have hz := freeUnits_full ((h.full_iff hu).mp hfull)
    have hz' : (n.pushUnit cfg).freeUnits cfg = 0 := by rw [pushUnit_drop hfull]; exact hz
    rw [hz'] at hlive hovf
    rw [pushUnit_drop hfull] at hpend hlive hovf
    refine ⟨hpend, ?_, ?_⟩
    · rw [hlive, hz]; rfl
    · rw [hovf, hz]
      simp only [inc, addCount, Nat.mod_add_mod, List.length_cons]
      congr 1; omega
  · have hfree := h.freeUnits_accept hu hfull
    rw [h.push_live hu hfull] at hlive
    obtain ⟨hpend', hovf'⟩ : (n.pushUnit cfg).pend = n.pend ∧ (n.pushUnit cfg).ovf = n.ovf := by
      rw [pushUnit_accept hfull]; exact ⟨rfl, rfl⟩
    refine ⟨hpend.trans hpend', ?_, ?_⟩
    · rw [hlive, hfree]; simp
    · rw [hovf, hovf', hfree, List.length_cons, Nat.add_sub_add_right]

end

/-- PUSHes of units of U bytes go on from every open state with the invariant, and keep it (R109). -/
theorem pushAll_pushed {s : State} {n : Instance} {units : List (List Byte)} (h : s.Inv) (hn : s.inst = some n)
    (hl : ∀ u ∈ units, u.length = s.cfg.unitSize) :
    ∃ t m, pushAll units s = .next t ∧ t.Inv ∧ t.cfg = s.cfg ∧ t.inst = some m ∧ Pushed s.cfg n units m := by
  induction units generalizing s n with
  | nil => exact ⟨s, n, rfl, h, rfl, hn, .nil (h.inst_inv n hn)⟩
  | cons u us ih =>
    have hu := unitSize_pos h.cfg_wf
    have hi := (h.inst_inv n hn).holding (hl u List.mem_cons_self)
    have hterm : ((n.holding u).pushUnit s.cfg).term = n.term := by
      obtain ⟨_, _, _, hw⟩ := pushUnit_writes s.cfg (n.holding u); rw [hw]; rfl
    obtain ⟨t, m, hrun, ht, hcfg, hm, hp⟩ :=
      ih (h.update hn (hi.pushUnit hu rfl) hterm) rfl fun v hv => hl v (List.mem_cons_of_mem u hv)
    exact ⟨t, m, (pushAll_cons hn u us).trans hrun, ht, hcfg, hm, (hp.cons hi hu).of_holding⟩

/-- Settles O43: the new HEAD meets TAIL where the live bytes fill the capacity. -/
theorem overflowIsAFullRing : Obligations.OverflowIsAFullRing :=
  fun _ _ hw h => h.full_iff (unitSize_pos hw)

/-- Settles O55: the free units of an empty ring are those of its capacity. -/
theorem capacityDropsExactly : Obligations.CapacityDropsExactly := by
  intro s n units h hn he _ hl
  obtain ⟨t, m, hrun, -, -, hm, hp⟩ := pushAll_pushed h hn hl
  have hcap := freeUnits_of_head_eq_tail (cfg := s.cfg) he
  refine ⟨t, m, hrun, hm, ?_, ?_⟩
  · rw [hp.live, hcap, liveBytes_of_head_eq_tail he, List.nil_append]
  · rw [hp.ovf, hcap]; rfl

end Sys2Proof.Machine

/-! ### O11, O12, O48, O56: what RECV returns and FLUSH forgets (40_ring_buffer.md R104 to R110) -/

namespace Sys2Proof.Machine

/-- Settles O11: RECV in an open block is CONSUME, and its answer evaluates to the words written out. -/
theorem recvReturnsTheNextSpan : Obligations.RecvReturnsTheNextSpan :=
  fun _ _ _ hn => withOpen_next.mpr (.inr ⟨_, hn, rfl⟩)

/-- Settles O12: FLUSH in an open block is RING_FLUSH, CT_CLEAR and the resets of SEQ and the counters. -/
theorem flushResetsTheQuadruple : Obligations.FlushResetsTheQuadruple :=
  fun _ _ hn => ⟨ctClear, ctGet_ctClear, withOpen_next.mpr (.inr ⟨_, hn, rfl⟩)⟩

/-- RECV goes on from every open state with the invariant, keeps it, and leaves what CONSUME leaves (R201). -/
theorem recv_open {s : State} {n : Instance} (h : s.Inv) (hn : s.inst = some n) (a : BitVec 32) :
    ∃ t, exec (.recv a) s = .next t ∧ t.Inv ∧ t.cfg = s.cfg ∧ t.inst = some (n.consume s.cfg a.toNat) :=
  ⟨_, withOpen_next.mpr (.inr ⟨n, hn, rfl⟩), (h.update hn ((h.inst_inv n hn).consume _) rfl).respond _, rfl, rfl⟩

section
variable {cfg : Config} {n : Instance}

/-- A RECV of a unit or more returns a unit or more where bytes are live behind the released span (R107). -/
theorem Instance.Inv.consume_pend_ge (h : n.Inv cfg) (hu : 0 < cfg.unitSize) {k : Nat} (hk : cfg.unitSize ≤ k)
    (hlive : n.pend < n.avail) : cfg.unitSize ≤ (n.consume cfg k).pend := by
  have havail : 0 < n.commit.avail := by rw [h.commit_avail]; omega
  have hend : n.commit.tail < n.commit.c := h.commit_tail_lt
  have hwhole := wholeUnits_pos hu hk
  refine Nat.le_of_dvd ?_ (h.consume k).pend_dvd
  show 0 < n.commit.spanSize cfg k
  rw [Instance.spanSize, if_neg havail.ne']
  omega

theorem liveBytes_length (n : Instance) : n.liveBytes.length = n.avail := by simp [Instance.liveBytes]

end

/-- Settles O48: the cursors CONSUME leaves are whole units, and it takes a span where there is one. -/
theorem recvMakesProgress : Obligations.RecvMakesProgress := by
  intro s n a h hn
  obtain ⟨t, ht, -, -, hm⟩ := recv_open h hn a
  have hi := h.inst_inv n hn
  have hc := hi.consume a.toNat
  exact ⟨t, _, ht, hm, hc.tail_dvd, hc.pend_dvd,
    (Nat.eq_zero_or_pos _).imp_right fun hpos => Nat.le_of_dvd hpos hc.pend_dvd,
    hi.consume_pend_ge (unitSize_pos h.cfg_wf)⟩

/-- Enough RECVs of a unit or more return every live byte behind the span held, in order: each returns the front of the
queue, a unit of it at least, and releases it to the next (R104 to R107, R110). -/
theorem drain_eq {s : State} {n : Instance} {args : List (BitVec 32)} (h : s.Inv) (hn : s.inst = some n)
    (ha : ∀ a ∈ args, s.cfg.unitSize ≤ a.toNat) (hlen : n.avail - n.pend ≤ args.length * s.cfg.unitSize) :
    drain args s = n.liveBytes.drop n.pend := by
  induction args generalizing s n with
  | nil =>
    rw [List.length_nil, Nat.zero_mul] at hlen
    rw [List.drop_of_length_le (by rw [liveBytes_length]; omega)]
    rfl
  | cons a rest ih =>
    obtain ⟨t, ht, hinv, hcfg, hm⟩ := recv_open h hn a
    have hi := h.inst_inv n hn
    have hleft : (n.consume s.cfg a.toNat).avail - (n.consume s.cfg a.toNat).pend ≤ rest.length * t.cfg.unitSize := by
      have hspan := hi.consume_pend_ge (unitSize_pos h.cfg_wf) (ha a List.mem_cons_self)
      rw [List.length_cons, Nat.succ_mul] at hlen
      rw [hi.consume_avail, hcfg]
      omega
    calc drain (a :: rest) s = readSpan t ++ drain rest t := by rw [drain, ht]
      _ = (n.consume s.cfg a.toNat).liveBytes.take (n.consume s.cfg a.toNat).pend ++
          (n.consume s.cfg a.toNat).liveBytes.drop (n.consume s.cfg a.toNat).pend := by
        rw [readSpan_eq hinv hm, (hi.consume _).span_live,
          ih hinv hm (fun b hb => hcfg ▸ ha b (List.mem_cons_of_mem a hb)) hleft]
      _ = n.liveBytes.drop n.pend := by rw [List.take_append_drop, hi.consume_live]

/-- Settles O56: the units all fit, so they are the queue, and as many RECVs as units return the whole of it. -/
theorem roundTrip : Obligations.RoundTrip := by
  intro s n units args h hn he hpend hl hfit ha hargs
  obtain ⟨t, m, hrun, ht, hcfg, hm, hp⟩ := pushAll_pushed h hn hl
  have hfree : units.length ≤ n.freeUnits s.cfg := by
    rw [freeUnits_of_head_eq_tail he]
    exact (Nat.le_div_iff_mul_le (unitSize_pos h.cfg_wf)).mpr hfit
  have hlive : m.liveBytes = units.flatten.map some := by
    rw [hp.live, liveBytes_of_head_eq_tail he, List.nil_append, List.take_of_length_le hfree]
  have havail : m.avail = units.length * s.cfg.unitSize := by
    rw [← liveBytes_length, hlive, List.length_map, List.length_flatten, List.map_congr_left hl]
    simp
  refine ⟨t, hrun, ?_⟩
  rw [drain_eq ht hm (hcfg ▸ ha) ?_, hp.pend, hpend, List.drop_zero, hlive]
  rw [hp.pend, hpend, Nat.sub_zero, havail, hcfg]
  exact Nat.mul_le_mul_right _ hargs

end Sys2Proof.Machine

/-! ### O22, O23, O36: the continuity-counter validator (41_continuity.md R130 to R139) -/

namespace Sys2Proof.Machine

section
variable {s t : State} {n : Instance} {h : TsHeader} {w : BitVec 32}

/-- The header of packet i is the four bytes from `188 * i` on (R81, R82). -/
theorem tsWordAt_eq_be32 {u : List Byte} {i : Nat} {h0 h1 h2 h3 : Byte} (e0 : u[188 * i]? = some h0)
    (e1 : u[188 * i + 1]? = some h1) (e2 : u[188 * i + 2]? = some h2) (e3 : u[188 * i + 3]? = some h3) :
    tsWordAt u i = some (be32 h0 h1 h2 h3) := by
  have drop_eq {k : Nat} {b : Byte} (e : u[k]? = some b) : u.drop k = b :: u.drop (k + 1) := by
    obtain ⟨hk, rfl⟩ := List.getElem?_eq_some_iff.mp e
    exact List.drop_eq_getElem_cons hk
  rw [tsWordAt, Config.tsPkt, drop_eq e0, drop_eq e1, drop_eq e2, drop_eq e3]

/-- A well-formed TS_NULL header holds the null identifier (R86). -/
theorem tsNull_wf_iff {cfg : Config} : (Instr.tsNull h).wf cfg = true ↔ h.pid.toNat = 0x1FFF := by
  simp [Instr.wf, ← BitVec.toNat_inj, Config.nullPid]

/-- A well-formed TS_TEI header holds another identifier, and TEI (R86). -/
theorem tsTei_wf_iff {cfg : Config} : (Instr.tsTei h).wf cfg = true ↔ h.pid.toNat ≠ 0x1FFF ∧ h.tei.toNat = 1 := by
  simp [Instr.wf, ← BitVec.toNat_inj, Config.nullPid]

/-- A well-formed TS_DATA header holds another identifier, and no TEI (R86). -/
theorem tsData_wf_iff {cfg : Config} : (Instr.tsData h).wf cfg = true ↔ h.pid.toNat ≠ 0x1FFF ∧ h.tei.toNat = 0 := by
  simp [Instr.wf, ← BitVec.toNat_inj, Config.nullPid]

/-- A header value decodes to the packet row that is well formed for its fields (R82, R86). -/
theorem decodeTs_of_wf {cfg : Config} {i : Instr} (hw : i.wf cfg = true)
    (hi : i = .tsNull (TsHeader.ofWord w) ∨ i = .tsTei (TsHeader.ofWord w) ∨ i = .tsData (TsHeader.ofWord w)) :
    decodeTs w = i := by
  obtain rfl | rfl | rfl := hi
  · have hnull : (TsHeader.ofWord w).pid = Config.nullPid := by simpa [Instr.wf] using hw
    simp [decodeTs, tsClass, hnull]
  · obtain ⟨hnull, htei⟩ : (TsHeader.ofWord w).pid ≠ Config.nullPid ∧ (TsHeader.ofWord w).tei = 1#1 := by
      simpa [Instr.wf] using hw
    simp [decodeTs, tsClass, hnull, htei]
  · obtain ⟨hnull, htei⟩ : (TsHeader.ofWord w).pid ≠ Config.nullPid ∧ (TsHeader.ofWord w).tei = 0#1 := by
      simpa [Instr.wf] using hw
    simp [decodeTs, tsClass, hnull, htei]

/-- A selected CC_CHECK is the class row of the packet it examines (R130). -/
theorem ccCheck_selected (hn : s.inst = some n) (hr : n.rxs = .listening) (hp : n.phase = .cc)
    (hw : tsWordAt n.rxUnit n.rxIdx = some w) : exec .ccCheck s = exec (decodeTs w) s :=
  calc exec .ccCheck s = engineTurn s := by rw [engineTurn_eq hn, hr, hp]; rfl
    _ = exec (decodeTs w) s := engineTurn_packet hn hr hp hw rfl

/-- A null packet is skipped (R131). -/
theorem tsNull_selected (hn : s.inst = some n) (hr : n.rxs = .listening) (hp : n.phase = .cc) :
    exec (.tsNull h) s = .next (s.setInst (n.nextPacket s.cfg)) :=
  engineStep_some hn (isAt_iff.mpr ⟨hr, hp⟩)

/-- A TEI packet is counted and its entry forgotten (R132). -/
theorem tsTei_selected (hn : s.inst = some n) (hr : n.rxs = .listening) (hp : n.phase = .cc) :
    exec (.tsTei h) s = .next (s.setInst ((n.transportError s.cfg h.pid).nextPacket s.cfg)) :=
  engineStep_some hn (isAt_iff.mpr ⟨hr, hp⟩)

/-- A data packet goes through the continuity check (R133 to R136). -/
theorem tsData_selected (hn : s.inst = some n) (hr : n.rxs = .listening) (hp : n.phase = .cc) :
    exec (.tsData h) s = .next (s.setInst ((n.checkContinuity s.cfg h.pid h.cc).nextPacket s.cfg)) :=
  engineStep_some hn (isAt_iff.mpr ⟨hr, hp⟩)

/-- A forgotten entry is unknown. -/
theorem ctGet_ctForget_same (t : ContinuityTable) (p : Nat) : ctGet (ctForget t p) p = none := by
  rw [ctGet_ctForget, if_pos rfl]

/-- Forgetting an entry leaves every other as it is. -/
theorem ctGet_ctForget_other {t : ContinuityTable} {p q : Nat} (hq : q ≠ p) : ctGet (ctForget t p) q = ctGet t q := by
  rw [ctGet_ctForget, if_neg hq.symm]

/-- The continuity check leaves the packet's counter in its entry, a duplicate's being there already, and every other
entry as it is (R133 to R136). -/
theorem ctGet_checkContinuity (cfg : Config) (p : Pid) (c : Cc) (n : Instance) (q : Nat) :
    ctGet (n.checkContinuity cfg p c).ct q = if p.toNat = q then some c else ctGet n.ct q := by
  unfold Instance.checkContinuity
  cases hprev : ctGet n.ct p.toNat with
  | none => exact ctGet_ctSet ..
  | some prev =>
    by_cases hsucc : c = prev + 1#4
    · simp only [if_pos hsucc]; exact ctGet_ctSet ..
    · by_cases hdup : c = prev
      · simp only [if_neg hsucc, if_pos hdup]
        split
        · next hq => rw [← hq, hprev, hdup]
        · rfl
      · simp only [if_neg hsucc, if_neg hdup]; exact ctGet_ctSet ..

/-- A first counter, the next one and a duplicate count nothing (R133 to R135). -/
theorem checkContinuity_accepts {cfg : Config} {p : Pid} {c : Cc}
    (hacc : ∀ prev, ctGet n.ct p.toNat = some prev → c.toNat = (prev.toNat + 1) % 16 ∨ c = prev) :
    n.checkContinuity cfg p c = { n with ct := (n.checkContinuity cfg p c).ct } := by
  unfold Instance.checkContinuity
  cases hprev : ctGet n.ct p.toNat with
  | none => rfl
  | some prev =>
    by_cases hsucc : c = prev + 1#4
    · simp only [if_pos hsucc]
    · have hdup : c = prev := (hacc prev hprev).resolve_left fun e => hsucc ((cc_succ c prev).mpr e)
      simp only [if_neg hsucc, if_pos hdup]

/-- Any other counter counts one error (R136). -/
theorem checkContinuity_counts {cfg : Config} {p : Pid} {c prev : Cc} (hprev : ctGet n.ct p.toNat = some prev)
    (hsucc : c.toNat ≠ (prev.toNat + 1) % 16) (hdup : c ≠ prev) :
    n.checkContinuity cfg p c = { n with cerr := inc cfg n.cerr, ct := (n.checkContinuity cfg p c).ct } := by
  simp only [Instance.checkContinuity, hprev, cc_succ, if_neg hsucc, if_neg hdup]

/-- Everything a packet row can write: TERR, CERR and its own entry, and then the next packet (R130 to R136). -/
theorem packetClass_writes {i : Instr} (hi : i ∈ ([.tsNull h, .tsTei h, .tsData h] : List Instr))
    (he : exec i s = .next t) :
    ∃ n a e ct, s.inst = some n ∧ (∀ q ≠ h.pid.toNat, ctGet ct q = ctGet n.ct q) ∧
      t = s.setInst (({ n with terr := a, cerr := e, ct := ct } : Instance).nextPacket s.cfg) := by
  simp only [List.mem_cons, List.not_mem_nil, or_false] at hi
  obtain rfl | rfl | rfl := hi <;> obtain ⟨n, hn, -, rfl⟩ := engineStep_next.mp he
  · exact ⟨n, n.terr, n.cerr, n.ct, hn, fun _ _ => rfl, rfl⟩
  · exact ⟨n, _, n.cerr, _, hn, fun _ => ctGet_ctForget_other, rfl⟩
  · obtain ⟨e, ct, hw⟩ := checkContinuity_writes s.cfg h.pid h.cc n
    refine ⟨n, n.terr, e, ct, hn, fun q hq => ?_, by rw [hw]⟩
    have hct := ctGet_checkContinuity s.cfg h.pid h.cc n q
    rwa [hw, if_neg hq.symm] at hct

end

/-- Settles O23: a null packet is skipped, TEI forgets the entry, and a data packet by whether its counter continues the
one known. -/
theorem packetClassesValidate : Obligations.PacketClassesValidate := by
  intro s n h hn hr hp
  refine ⟨fun _ => tsNull_selected hn hr hp, fun _ => ?_, fun _ => ?_⟩
  · exact ⟨ctForget n.ct h.pid.toNat, ctGet_ctForget_same .., fun _ => ctGet_ctForget_other, tsTei_selected hn hr hp⟩
  · refine ⟨(n.checkContinuity s.cfg h.pid h.cc).ct, ?_, fun q hq => ?_, ?_⟩
    · rw [ctGet_checkContinuity, if_pos rfl]
    · rw [ctGet_checkContinuity, if_neg hq.symm]
    · rw [tsData_selected hn hr hp]
      cases hprev : ctGet n.ct h.pid.toNat with
      | none => rw [checkContinuity_accepts (by simp [hprev])]; rfl
      | some prev =>
        by_cases hacc : h.cc.toNat = (prev.toNat + 1) % 16 ∨ h.cc = prev
        · rw [checkContinuity_accepts (by simpa [hprev] using hacc)]
          simp only [if_pos hacc]; rfl
        · obtain ⟨hsucc, hdup⟩ := not_or.mp hacc
          rw [checkContinuity_counts hprev hsucc hdup]
          simp only [if_neg hacc]; rfl

/-- Settles O22: CC_CHECK is the row of its packet's class, with the fields read from the header bytes. -/
theorem ccCheckValidatesThePacket : Obligations.CcCheckValidatesThePacket := by
  intro s n h0 h1 h2 h3 hn hr hp e0 e1 e2 e3
  dsimp only
  have hcc : (TsHeader.ofWord (be32 h0 h1 h2 h3)).cc = BitVec.ofNat 4 (h3.toNat % 16) :=
    BitVec.eq_of_toNat_eq (by simp [ofWord_be32_cc])
  rw [← ofWord_be32_pid h0 h1 h2 h3, ← ofWord_be32_tei h0 h1 h2 h3, ← hcc,
    ccCheck_selected hn hr hp (tsWordAt_eq_be32 e0 e1 e2 e3)]
  obtain ⟨null, tei, data⟩ := packetClassesValidate s n (TsHeader.ofWord (be32 h0 h1 h2 h3)) hn hr hp
  refine ⟨fun hpid => ?_, fun hpid htei => ?_, fun hpid htei => ?_⟩
  · have hwf := (tsNull_wf_iff (cfg := s.cfg)).mpr hpid
    rw [decodeTs_of_wf hwf (.inl rfl)]
    exact null hwf
  · have hwf := (tsTei_wf_iff (cfg := s.cfg)).mpr ⟨hpid, htei⟩
    rw [decodeTs_of_wf hwf (.inr (.inl rfl))]
    exact tei hwf
  · have hwf := (tsData_wf_iff (cfg := s.cfg)).mpr ⟨hpid, htei⟩
    obtain ⟨ct, hown, hrest, he⟩ := data hwf
    rw [decodeTs_of_wf hwf (.inr (.inr rfl)), he]
    refine ⟨ct, hown, hrest, fun prev hprev hsucc hdup => ?_, fun hacc => ?_⟩
    · simp only [hprev, if_neg (not_or.mpr ⟨hsucc, hdup⟩)]
    · cases hprev : ctGet n.ct (TsHeader.ofWord (be32 h0 h1 h2 h3)).pid.toNat with
      | none => rfl
      | some prev => simp only [if_pos (hacc prev hprev)]

/-- Settles O36: a CC_CHECK that goes on is the row of its packet's class, and those write TERR, CERR, the packet's own
entry, RX_IDX and PHASE. -/
theorem ccCheckFrame : Obligations.CcCheckFrame := by
  intro s t i h hi he
  obtain ⟨j, hj, he⟩ : ∃ j ∈ ([.tsNull h, .tsTei h, .tsData h] : List Instr), exec j s = .next t := by
    obtain hi | ⟨rfl, hh⟩ := hi
    · exact ⟨i, hi, he⟩
    · obtain ⟨n, w, hn, -, hw, he⟩ := ccCheck_cases he
      rw [← hh n w hn hw] at he
      obtain he | he | he := he
      · exact ⟨.tsNull h, by simp, he⟩
      · exact ⟨.tsTei h, by simp, he⟩
      · exact ⟨.tsData h, by simp, he⟩
  obtain ⟨n, _, _, _, hn, hct, rfl⟩ := packetClass_writes hj he
  exact ⟨SameParties.setInst s _, rfl, n, _, hn, rfl, ⟨rfl, rfl, rfl, rfl⟩, fun _ => rfl,
    fun q hq => hct q (by simpa using hq), rfl, rfl, rfl, rfl, rfl, rfl, rfl, rfl, rfl⟩

end Sys2Proof.Machine

/-! ### O21, O44: the sequence tracker and what a gap forgives (42_sequence.md R150 to R154) -/

namespace Sys2Proof.Machine

section
variable {cfg : Config} {s t : State} {n : Instance} {last : SeqNo} {p : Pid} {h : TsHeader} {w : BitVec 32}

/-! #### SEQ_CHECK -/

/-- The first number and the next one count nothing (R150, R151). -/
theorem checkSeq_accepts (hacc : ∀ last, n.seq = some last → n.rxSeq = last + 1#16) :
    n.checkSeq cfg = { n with seq := some n.rxSeq, rxIdx := 0, phase := .cc } := by
  unfold Instance.checkSeq
  cases hseq : n.seq with
  | none => rfl
  | some last => exact if_pos (hacc last hseq)

/-- Any other number counts one error and makes every entry unknown (R152). -/
theorem checkSeq_gap (hseq : n.seq = some last) (hgap : n.rxSeq ≠ last + 1#16) :
    n.checkSeq cfg =
      { n with seq := some n.rxSeq, nerr := inc cfg n.nerr, ct := ctClear, rxIdx := 0, phase := .cc } := by
  simp only [Instance.checkSeq, hseq, if_neg hgap]

/-- SEQ_CHECK makes no entry known (R150 to R152). -/
theorem checkSeq_keeps_unknown {q : Nat} (hq : ctGet n.ct q = none) : ctGet (n.checkSeq cfg).ct q = none := by
  by_cases hacc : ∀ last, n.seq = some last → n.rxSeq = last + 1#16
  · rw [checkSeq_accepts hacc]; exact hq
  · obtain ⟨last, hseq, hgap⟩ : ∃ last, n.seq = some last ∧ n.rxSeq ≠ last + 1#16 := by simpa using hacc
    rw [checkSeq_gap hseq hgap]; rfl

/-- A selected SEQ_CHECK has its effect on the registers there are (R150). -/
theorem seqCheck_selected (hn : s.inst = some n) (hr : n.rxs = .listening) (hp : n.phase = .seq) :
    exec .seqCheck s = .next (s.setInst (n.checkSeq s.cfg)) :=
  engineStep_some hn (isAt_iff.mpr ⟨hr, hp⟩)

/-! #### An unknown entry stays unknown until a data packet of its substream -/

/-- Substream `p` has no last-seen counter: its entry is unknown, or the block is closed and has no table (R31, R21). -/
def State.Unknown (p : Pid) (s : State) : Prop := ∀ n, s.inst = some n → ctGet n.ct p.toNat = none

theorem engineStep_keeps_unknown {sel : Instance → Bool} {f : Instance → Instance} (hu : s.Unknown p)
    (he : engineStep s sel f = .next t) (hf : ∀ n, ctGet n.ct p.toNat = none → ctGet (f n).ct p.toNat = none) :
    t.Unknown p := by
  obtain ⟨n, hn, -, rfl⟩ := engineStep_next.mp he
  rintro _ ⟨⟩
  exact hf n (hu n hn)

/-- A TEI packet only ever forgets an entry (R132). -/
theorem tsTei_keeps_unknown (hu : s.Unknown p) (he : exec (.tsTei h) s = .next t) : t.Unknown p :=
  engineStep_keeps_unknown hu he fun n hn => (ctGet_ctForget n.ct _ _).trans (by rw [hn, ite_self])

/-- A data packet of another substream writes another entry (R133 to R136). -/
theorem tsData_keeps_unknown (hu : s.Unknown p) (hpid : h.pid ≠ p) (he : exec (.tsData h) s = .next t) :
    t.Unknown p :=
  engineStep_keeps_unknown hu he fun n hn =>
    (ctGet_checkContinuity s.cfg h.pid h.cc n p.toNat).trans
      (by rw [if_neg fun e => hpid (BitVec.eq_of_toNat_eq e), hn])

/-- A header of the data class is a data packet's (R86). -/
theorem decodeTs_data (hc : tsClass (TsHeader.ofWord w) = .data) : decodeTs w = .tsData (TsHeader.ofWord w) := by
  simp only [decodeTs, hc]

/-- CC_CHECK is the row of its packet's class, and a data packet it finds is of another substream (R130). -/
theorem ccCheck_keeps_unknown (hu : s.Unknown p) (hd : NoDataOf p .ccCheck s) (he : exec .ccCheck s = .next t) :
    t.Unknown p := by
  obtain ⟨n, w, hn, ha, hw, -⟩ := ccCheck_cases he
  obtain ⟨hr, hp⟩ := isAt_iff.mp ha
  rw [ccCheck_selected hn hr hp hw] at he
  cases hc : tsClass (TsHeader.ofWord w) with
  | data =>
    rw [decodeTs_data hc] at he
    exact tsData_keeps_unknown hu (hd.2 rfl n w hn hw hc) he
  | tei =>
    simp only [decodeTs, hc] at he
    exact tsTei_keeps_unknown hu he
  | null =>
    simp only [decodeTs, hc] at he
    exact engineStep_keeps_unknown hu he fun _ => id

/-- A block just opened knows no entry (R38). -/
theorem open_keeps_unknown {a : BitVec 32} (hu : s.Unknown p) (he : exec (.openCmd a) s = .next t) : t.Unknown p := by
  obtain ⟨-, rfl⟩ | ⟨-, -, rfl⟩ | ⟨-, -, rfl⟩ := open_cases he
  · exact hu
  · rintro _ ⟨⟩; rfl
  · exact hu

/-- FLUSH clears the table (R202). -/
theorem flush_keeps_unknown (hu : s.Unknown p) (he : exec .flush s = .next t) : t.Unknown p := by
  obtain ⟨-, rfl⟩ | ⟨n, -, rfl⟩ := withOpen_next.mp he
  · exact hu
  · rintro _ ⟨⟩; rfl

/-- An operation that does not create the block and leaves the table of an open one alone keeps what is unknown. -/
theorem exec_keeps_unknown_of_ct {i : Instr} (hu : s.Unknown p) (he : exec i s = .next t) (ho : ∀ a, i ≠ .openCmd a)
    (hct : ∀ n m, WritesOwnElements i n m → m.ct = n.ct) : t.Unknown p := by
  intro m hm
  cases hn : s.inst with
  | none =>
    obtain ⟨a, hi⟩ := inst_created he hn (by rw [hm]; rfl)
    exact absurd hi (ho a)
  | some n => rw [hct n m (effect_of_next he hn hm).writesOwnElements, hu n hn]

/-- Every operation but the check of a data packet of `p` keeps the entry of `p` unknown: the writers of the table (R39)
and OPEN one by one, every other by the access matrix. -/
theorem exec_keeps_unknown {i : Instr} (hu : s.Unknown p) (hd : NoDataOf p i s) (he : exec i s = .next t) :
    t.Unknown p := by
  cases i with
  | openCmd _ => exact open_keeps_unknown hu he
  | flush => exact flush_keeps_unknown hu he
  | seqCheck => exact engineStep_keeps_unknown hu he fun _ => checkSeq_keeps_unknown
  | ccCheck => exact ccCheck_keeps_unknown hu hd he
  | tsTei _ => exact tsTei_keeps_unknown hu he
  | tsData k => exact tsData_keeps_unknown hu (hd.1 k rfl) he
  | _ => exact exec_keeps_unknown_of_ct hu he nofun fun _ _ w => w.ct nofun nofun nofun nofun nofun

/-- Whatever is done before the next data packet of `p`, its entry stays unknown, and the parameters stay (R154, R6). -/
theorem runsWithoutDataOf_keeps_unknown {is : List Instr} (hu : s.Unknown p) (hrun : RunsWithoutDataOf p is s t) :
    t.Unknown p ∧ t.cfg = s.cfg := by
  induction is generalizing s with
  | nil =>
    obtain ⟨hinst, hcfg⟩ := hrun
    exact ⟨fun n hn => hu n (hinst ▸ hn), hcfg⟩
  | cons i is ih =>
    obtain ⟨hd, u, v, he, hinst, hcfg, hrest⟩ := hrun
    have hv : v.Unknown p := fun n hn => exec_keeps_unknown hu hd he n (hinst ▸ hn)
    obtain ⟨ht, htcfg⟩ := ih hv hrest
    exact ⟨ht, htcfg.trans (hcfg.trans (exec_cfg he))⟩

/-! #### The next packet of a substream with no last-seen counter -/

/-- Its counter becomes the entry's, and CERR stays (R133). -/
theorem tsData_of_unknown (hn : s.inst = some n) (hr : n.rxs = .listening) (hp : n.phase = .cc) (hu : s.Unknown h.pid) :
    ∃ u l, exec (.tsData h) s = .next u ∧ u.inst = some l ∧ l.cerr = n.cerr ∧
      ctGet l.ct h.pid.toNat = some h.cc := by
  refine ⟨_, _, tsData_selected hn hr hp, rfl, ?_, ?_⟩
  · rw [checkContinuity_accepts (by simp [hu n hn])]; rfl
  · exact (ctGet_checkContinuity s.cfg h.pid h.cc n _).trans (if_pos rfl)

end

/-- Settles O21: SEQ_CHECK has its effect, which accepts or counts by whether the number is the next one. -/
theorem seqCheckTracksTheSequence : Obligations.SeqCheckTracksTheSequence := by
  intro s n hn hr hp
  rw [seqCheck_selected hn hr hp]
  refine ⟨fun hacc => ?_, fun last hseq hgap => ⟨ctClear, ctGet_ctClear, ?_⟩⟩
  · rw [checkSeq_accepts]
    · rfl
    · intro last hseq
      obtain hnone | ⟨last', hseq', hnext⟩ := hacc
      · simp [hseq] at hnone
      · rw [hseq] at hseq'; cases hseq'
        exact (seqNo_succ _ _).mpr hnext
  · rw [checkSeq_gap hseq (mt (seqNo_succ _ _).mp hgap)]; rfl

/-- Settles O44: the gap makes every entry unknown, that of `p` stays so until the next data packet of `p`, and a data
packet of a substream with no last-seen counter counts nothing. -/
theorem sequenceGapForgivesEverySubstream : Obligations.SequenceGapForgivesEverySubstream := by
  intro s n last hn hr hp hseq hgap
  refine ⟨_, _, seqCheck_selected hn hr hp, rfl, ?_, ?_, fun p is v k hrun hk hkr hkp => ?_⟩
  · rw [checkSeq_gap hseq hgap]; rfl
  · rw [checkSeq_gap hseq hgap]
  · have hgone : (s.setInst (n.checkSeq s.cfg)).Unknown p := by
      rintro _ ⟨⟩
      rw [checkSeq_gap hseq hgap]; rfl
    obtain ⟨hu, hcfg⟩ := runsWithoutDataOf_keeps_unknown hgone hrun
    refine ⟨fun h hpid => ⟨?_, ?_⟩, fun w hw hc hpid => ?_⟩
    · subst hpid
      exact tsData_of_unknown hk hkr hkp hu
    · refine ⟨_, _, tsTei_selected hk hkr hkp, rfl, rfl, ?_⟩
      rw [hcfg]; rfl
    · subst hpid
      rw [ccCheck_selected hk hkr hkp hw, decodeTs_data hc]
      exact tsData_of_unknown hk hkr hkp hu

end Sys2Proof.Machine

/-! ### O5, O24, O25, O26, O27: what each step of the engine does (43_receiver.md R170 to R182) -/

namespace Sys2Proof.Machine

section
variable {cfg : Config} {s : State} {n : Instance} {p : BitVec 3}

/-- A selected START tests the terminate flag (R171). -/
theorem start_selected (hn : s.inst = some n) (hr : n.rxs = .starting) :
    exec (.start p) s = .next (s.setInst
      (if n.term then { n with rxs := .terminating } else { n with rxs := .listening, phase := .wait })) :=
  engineStep_some hn (by simp [hr])

/-- A selected TERM_CHECK tests the terminate flag (R181). -/
theorem termCheck_selected (hn : s.inst = some n) (hr : n.rxs = .listening) (hp : n.phase = .termchk) :
    exec .termCheck s = .next (s.setInst
      (if n.term then { n with rxs := .terminating } else { n with phase := .wait })) :=
  engineStep_some hn (isAt_iff.mpr ⟨hr, hp⟩)

/-- A selected EXIT stops the engine (R182). -/
theorem exit_selected (hn : s.inst = some n) (hr : n.rxs = .terminating) :
    exec (.exit p) s = .next (s.setInst { n with rxs := .stopped }) :=
  engineStep_some hn (by simp [hr])

/-- A selected PKT_COUNT has its effect on the registers there are (R180). -/
theorem pktCount_selected (hn : s.inst = some n) (hr : n.rxs = .listening) (hp : n.phase = .pktcnt) :
    exec .pktCount s = .next (s.setInst (n.countPacket s.cfg)) :=
  engineStep_some hn (isAt_iff.mpr ⟨hr, hp⟩)

/-- Under PER_UNIT the unit counts once (R180). -/
theorem countPacket_perUnit (h : cfg.pktCountMode = .perUnit) :
    n.countPacket cfg = { n with pkt := inc cfg n.pkt, phase := .push } := by
  simp only [Instance.countPacket, h]

/-- Under PER_TS the unit counts once for each of its packets (R180). -/
theorem countPacket_perTs (h : cfg.pktCountMode = .perTs) :
    n.countPacket cfg = { n with pkt := addCount cfg cfg.nTs n.pkt, phase := .push } := by
  simp only [Instance.countPacket, h]

/-- A waiting engine with no event offered stays as it is (R172). -/
theorem classify_waits (hn : s.inst = some n) (hr : n.rxs = .listening) (hp : n.phase = .wait)
    (ho : s.offer = none) : exec .classify s = .next s := by
  simp only [exec, execClassify, hn, if_pos (isAt_iff.mpr ⟨hr, hp⟩), ho]

/-- A waiting engine takes an event that exists and does with it what its class says (R174). -/
theorem classify_event {e : Event} (hn : s.inst = some n) (hr : n.rxs = .listening) (hp : n.phase = .wait)
    (ho : s.offer = some e) (hw : eventWf e = true) :
    exec .classify s = classifyEvent e { s with offer := none } := by
  simp only [exec, execClassify, hn, if_pos (isAt_iff.mpr ⟨hr, hp⟩), ho, if_pos hw]

/-- Twelve bytes or more hold a header, whose number is `be16(d[2], d[3])` (R79). -/
theorem ofBytes_seq {d : List Byte} (h : Config.rtpHdr ≤ d.length) :
    ∃ x y k, d[2]? = some x ∧ d[3]? = some y ∧ RtpHeader.ofBytes d = some k ∧ k.seq = be16 x y := by
  match d, h with
  | _ :: _ :: x :: y :: _ :: _ :: _ :: _ :: _ :: _ :: _ :: _ :: _, _ => exact ⟨x, y, _, rfl, rfl, rfl, rfl⟩

theorem lRtp_eq (cfg : Config) : cfg.lRtp = cfg.unitSize + 12 := rfl

theorem dgClass_zero : dgClass cfg 0 = .fatal := rfl

theorem dgClass_lRtp : dgClass cfg (cfg.unitSize + 12) = .rtp := by
  rw [dgClass, lRtp_eq, if_neg (Nat.succ_ne_zero _), if_pos rfl]

theorem dgClass_unitSize (h0 : cfg.unitSize ≠ 0) : dgClass cfg cfg.unitSize = .bare := by
  rw [dgClass, lRtp_eq, if_neg h0, if_neg (by omega), if_pos rfl]

theorem dgClass_other {l : Nat} (h0 : l ≠ 0) (hu : l ≠ cfg.unitSize) (hr : l ≠ cfg.unitSize + 12) :
    dgClass cfg l = .other := by
  rw [dgClass, lRtp_eq, if_neg h0, if_neg hr, if_neg hu]

/-- Two bytes as a number (R8). -/
theorem be16_eq_ofNat (x y : Byte) : be16 x y = BitVec.ofNat 16 (x.toNat * 256 + y.toNat) := by
  rw [← be16_toNat, BitVec.ofNat_toNat, BitVec.setWidth_eq]

end

/-- Settles O5: LISTENING selects by PHASE, every other RXS alone. -/
theorem engineSelectorsSelect : Obligations.EngineSelectorsSelect := by
  intro cfg n
  simp only [decode, decodeStep, stepSelector, stepWord_rxs, stepWord_phase]
  cases n.rxs with
  | listening => cases n.phase <;> rfl
  | starting | terminating | stopped | dead => rfl

/-- Settles O24: a selected PKT_COUNT has the effect of its mode. -/
theorem pktCountCountsTheUnit : Obligations.PktCountCountsTheUnit := by
  intro s n hn hr hp
  rw [pktCount_selected hn hr hp]
  refine ⟨fun hm => ?_, fun hm => ?_⟩
  · rw [countPacket_perUnit hm]; rfl
  · rw [countPacket_perTs hm]; rfl

/-- Settles O25: each of the three steps where it is selected, START and TERM_CHECK by the terminate flag. -/
theorem engineStartsChecksAndExits : Obligations.EngineStartsChecksAndExits := by
  intro s n p hn
  refine ⟨fun hr ht => ?_, fun hr ht => ?_, fun hr hp ht => ?_, fun hr hp ht => ?_, exit_selected hn⟩
  · rw [start_selected hn hr, if_pos ht]; rfl
  · rw [start_selected hn hr, ht]; rfl
  · rw [termCheck_selected hn hr hp, if_pos ht]; rfl
  · rw [termCheck_selected hn hr hp, ht]; rfl

/-- Settles O26: each class row is a step of a waiting engine, with its own effect. -/
theorem ingressClassesSteerTheEngine : Obligations.IngressClassesSteerTheEngine := by
  intro s n hn hr hp
  have hwait : n.isAt .wait = true := isAt_iff.mpr ⟨hr, hp⟩
  exact ⟨fun _ => engineStep_some hn hwait, fun _ => engineStep_some hn hwait, engineStep_some hn hwait,
    fun _ _ => engineStep_some hn hwait, fun _ => engineStep_some hn hwait, fun _ _ => engineStep_some hn hwait⟩

/-- Settles O27: CLASSIFY is the row of the event it takes, and a datagram's row is that of its length's class. -/
theorem classifyDecidesByLength : Obligations.ClassifyDecidesByLength := by
  intro s n hn hr hp
  obtain ⟨idle, rxerr, fatal, rtp, bare, other⟩ := ingressClassesSteerTheEngine { s with offer := none } n hn hr hp
  refine ⟨classify_waits hn hr hp, fun ho => ?_, fun ho => ?_, fun l d ho hd => ?_⟩
  · rw [classify_event hn hr hp ho rfl]; exact idle 0#16
  · rw [classify_event hn hr hp ho rfl]; exact rxerr 0#16
  · rw [classify_event hn hr hp ho (lengthIs_iff.mpr hd)]
    simp only [classifyEvent, classifyDatagram]
    refine ⟨fun h0 => ?_, fun hl => ?_, fun h0 hl => ?_, fun h0 hu hl => ?_⟩
    · rw [h0, dgClass_zero]; exact fatal
    · obtain ⟨x, y, k, hx, hy, hk, hseq⟩ := ofBytes_seq (d := d) (by rw [hd, hl]; exact Nat.le_add_left _ _)
      refine ⟨x, y, hx, hy, ?_⟩
      rw [hl, dgClass_lRtp, hk, ← be16_eq_ofNat, ← hseq]
      exact rtp k (d.drop 12)
    · rw [hl, dgClass_unitSize (hl ▸ h0)]; exact bare d
    · rw [dgClass_other h0 hu hl]; exact other l d

end Sys2Proof.Machine

/-! ### O7, O8: when an event is taken (43_receiver.md R172, R183, 45_lifecycle.md R237) -/

namespace Sys2Proof.Machine

section
variable {s t : State} {n : Instance} {e : Event} {rest : List Request}

/-! #### The ingress port -/

theorem offerEvent_lost (h : s.inst = none ∨ ∃ n, s.inst = some n ∧ (n.rxs = .stopped ∨ n.rxs = .dead)) :
    s.offerEvent e = s := by
  obtain ⟨he, -⟩ | ⟨-, n, hn, hrun⟩ := offerEvent_cases e s
  · exact he
  · obtain h | ⟨n', hn', hend⟩ := h
    · simp [hn] at h
    · rw [hn] at hn'; cases hn'; exact absurd hend hrun

theorem offerEvent_kept (hn : s.inst = some n) (hrun : ¬ (n.rxs = .stopped ∨ n.rxs = .dead)) :
    s.offerEvent e = { s with offer := some e } := by
  simp only [State.offerEvent, hn, if_neg hrun]

/-- A step that serves the environment offers its event (R185). -/
theorem step_offer (hs : s.sched = .offer e :: rest) (hw : eventWf e = true) :
    step s = .next (({ s with sched := rest } : State).offerEvent e) := by
  rw [step_cons hs, serve, if_pos hw]

/-! #### An engine with nothing to do -/

/-- An engine that has ended has no step (R170, R183). -/
theorem engineTurn_ended (hn : s.inst = some n) (hend : n.rxs = .stopped ∨ n.rxs = .dead) :
    engineTurn s = .next s := by
  rw [engineTurn_eq hn]
  obtain h | h := hend <;> rw [h]

/-- An engine that waits with no event has none to take (R172). -/
theorem engineTurn_waits (hn : s.inst = some n) (hr : n.rxs = .listening) (hp : n.phase = .wait)
    (ho : s.offer = none) : engineTurn s = .next s := by
  rw [engineTurn_eq hn, hr, hp]
  exact classify_waits hn hr hp ho

theorem engineTurns_ended (hn : s.inst = some n) (hend : n.rxs = .stopped ∨ n.rxs = .dead) (k : Nat) :
    engineTurns k s = .next s := by
  induction k with
  | zero => rfl
  | succ k ih => simp only [engineTurns, engineTurn_ended hn hend, ih]

/-- Outside the processing of an event, an engine whose turn changes nothing is served with no change, under either
granularity (R59). -/
theorem serveEngine_rests (ht : engineTurn s = .next s) (hm : s.midUnit = false) : serveEngine s = .next s := by
  unfold serveEngine
  split
  · exact ht
  · rw [engineUnit, ht]; simp only [hm]; rfl

/-- Serving an engine that does not exist, has ended, or waits with no event changes nothing (R170, R172). -/
theorem serveEngine_idle (h : s.inst = none ∨ (∃ n, s.inst = some n ∧ (n.rxs = .stopped ∨ n.rxs = .dead)) ∨
    ∃ n, s.inst = some n ∧ n.rxs = .listening ∧ n.phase = .wait ∧ s.offer = none) : serveEngine s = .next s := by
  obtain hn | ⟨n, hn, hend⟩ | ⟨n, hn, hr, hp, ho⟩ := h
  · exact serveEngine_rests (engineTurn_closed hn) (by simp [State.midUnit, hn])
  · exact serveEngine_rests (engineTurn_ended hn hend) (by obtain h | h := hend <;> simp [State.midUnit, hn, h])
  · exact serveEngine_rests (engineTurn_waits hn hr hp ho) (by simp [State.midUnit, hn, hp])

/-! #### What a turn changes of the state -/

theorem setInst_self (hn : s.inst = some n) : s.setInst n = s := by
  obtain ⟨⟩ := s; cases hn; rfl

/-- Everything a turn of an engine can change: the registers, and in WAIT the port, which it empties (R170, R172). -/
theorem engineTurn_writes (hn : s.inst = some n) (he : engineTurn s = .next t) :
    ∃ m, t = s.setInst m ∨
      (n.rxs = .listening ∧ n.phase = .wait) ∧ t = ({ s with offer := none } : State).setInst m := by
  have eff {sel f} (hs : engineStep s sel f = .next t) : ∃ m, t = s.setInst m ∨
      (n.rxs = .listening ∧ n.phase = .wait) ∧ t = ({ s with offer := none } : State).setInst m :=
    ⟨f n, .inl (engineStep_next_open hn hs)⟩
  rw [engineTurn_eq hn] at he
  split at he
  · exact eff he
  · next hr hp =>
    obtain ⟨_, -, -, ⟨-, rfl⟩ | ⟨m, rfl, -⟩⟩ := classify_cases he
    · exact ⟨n, .inl (setInst_self hn).symm⟩
    · exact ⟨m, .inr ⟨⟨hr, hp⟩, rfl⟩⟩
  · exact eff he
  · obtain ⟨_, _, -, -, -, he | he | he⟩ := ccCheck_cases he <;> exact eff he
  · exact eff he
  · exact eff he
  · exact eff he
  · exact eff he
  · cases he; exact ⟨n, .inl (setInst_self hn).symm⟩
  · cases he; exact ⟨n, .inl (setInst_self hn).symm⟩

end

/-- Settles O7: an offer is kept, an engine with nothing to do rests, and no turn but that of a waiting engine reaches
the port. -/
theorem eventsAreTakenInWaitOnly : Obligations.EventsAreTakenInWaitOnly := by
  intro s rest
  refine ⟨fun n e hs hw hn hstop hdead => ?_, fun hs h => ?_, fun n t hn hw he => ?_⟩
  · rw [step_offer hs hw, offerEvent_kept (s := { s with sched := rest }) hn (not_or.mpr ⟨hstop, hdead⟩)]
  · rw [step_cons hs, serve]
    exact serveEngine_idle (s := { s with sched := rest }) h
  · obtain ⟨m, rfl | ⟨hwait, -⟩⟩ := engineTurn_writes hn he
    · rfl
    · exact absurd hwait hw

/-- Settles O8: an event offered too late is lost, an engine that has ended has no step, closing empties the port, and
the port of a closed block is empty. -/
theorem eventsOfferedTooLateAreNeverTaken : Obligations.EventsOfferedTooLateAreNeverTaken := by
  refine ⟨fun s rest e hs hw h => ?_, fun s n k hn hend => engineTurns_ended hn hend k, fun s t he hs ht => ?_,
    fun s t arg h hn he => ?_⟩
  · rw [step_offer hs hw, offerEvent_lost (s := { s with sched := rest }) h]
  · obtain ⟨n, hn⟩ := Option.isSome_iff_exists.mp hs
    obtain ⟨-, rfl⟩ | ⟨hc, -⟩ | ⟨_, -, -, ⟨-, rfl⟩ | ⟨-, -, rfl⟩ | ⟨-, -, rfl⟩⟩ := close_cases he
    · simp [hn] at ht
    · simp [hn] at hc
    · cases ht
    · rfl
    · simp [hn] at ht
  · obtain ⟨-, rfl⟩ | ⟨-, -, rfl⟩ | ⟨-, -, rfl⟩ := open_cases he <;> exact h.closed_port hn

end Sys2Proof.Machine

/-! ### O33, O34: what the steering steps write (10_state.md R39) -/

namespace Sys2Proof.Machine

section
variable {s t : State}

/-- START, TERM_CHECK, EXIT and the classes that are not accepted write RXS and PHASE (R171, R173, R177 to R182). -/
theorem steeringOp_writes {i : Instr} {p : BitVec 3} {l : BitVec 16} {d : List Byte}
    (hi : i ∈ ([.start p, .termCheck, .exit p, .idle l, .dgFatalL0, .dgFatalRxerr l, .dgOther l d] : List Instr))
    (he : exec i s = .next t) :
    ∃ n r q, s.inst = some n ∧ t = s.setInst { n with rxs := r, phase := q } := by
  simp only [List.mem_cons, List.not_mem_nil, or_false] at hi
  obtain rfl | rfl | rfl | rfl | rfl | rfl | rfl := hi <;> obtain ⟨n, hn, -, rfl⟩ := engineStep_next.mp he
  · split <;> exact ⟨n, _, _, hn, rfl⟩
  · split <;> exact ⟨n, _, _, hn, rfl⟩
  all_goals exact ⟨n, _, _, hn, rfl⟩

/-- Only registers of the engine differ: the ring, BUF, the table, SEQ, the counters and TERM are as before. -/
structure EngineOnly (n m : Instance) : Prop where
  cursors : SameCursors n m
  bytes : SameBytes n m
  table : SameTable [] n m
  seq : m.seq = n.seq
  stats : SameStats n m
  term : m.term = n.term

theorem EngineOnly.set (n : Instance) (r : Rxs) (q : Phase) (k : RxKind) (v : SeqNo) (u : List Byte) (x : Nat) :
    EngineOnly n { n with rxs := r, phase := q, rxKind := k, rxSeq := v, rxUnit := u, rxIdx := x } :=
  ⟨⟨rfl, rfl, rfl, rfl⟩, fun _ => rfl, fun _ _ => rfl, rfl, ⟨rfl, rfl, rfl, rfl, rfl⟩, rfl⟩

/-- CLASSIFY and the accepted classes write the engine's registers, RX_IDX to 0 if at all, and CLASSIFY alone the port,
which it empties (R174 to R176). -/
theorem acceptingOp_writes {i : Instr} {h : RtpHeader} {d : List Byte}
    (hi : i ∈ ([.classify, .dgRtp h d, .dgBare d] : List Instr)) (he : exec i s = .next t) :
    ∃ n m o, s.inst = some n ∧ t = ({ s with offer := o } : State).setInst m ∧
      (i ≠ .classify → o = s.offer) ∧ (o = s.offer ∨ o = none) ∧
      EngineOnly n m ∧ (m.rxIdx = n.rxIdx ∨ m.rxIdx = 0) := by
  simp only [List.mem_cons, List.not_mem_nil, or_false] at hi
  obtain rfl | rfl | rfl := hi
  · obtain ⟨n, hn, -, ⟨-, rfl⟩ | ⟨m, rfl, hm⟩⟩ := classify_cases he
    · exact ⟨n, n, t.offer, hn, (setInst_self hn).symm, fun _ => rfl, .inl rfl, .set n .., .inl rfl⟩
    · refine ⟨n, m, none, hn, rfl, fun hc => absurd rfl hc, .inr rfl, ?_⟩
      obtain rfl | rfl | ⟨_, _, rfl⟩ | ⟨_, rfl⟩ := hm
      · exact ⟨.set n .., .inl rfl⟩
      · exact ⟨.set n .., .inl rfl⟩
      · exact ⟨.set n .., .inl rfl⟩
      · exact ⟨.set n .., .inr rfl⟩
  · obtain ⟨n, hn, -, rfl⟩ := engineStep_next.mp he
    exact ⟨n, _, s.offer, hn, rfl, fun _ => rfl, .inl rfl, .set n .., .inl rfl⟩
  · obtain ⟨n, hn, -, rfl⟩ := engineStep_next.mp he
    exact ⟨n, _, s.offer, hn, rfl, fun _ => rfl, .inl rfl, .set n .., .inr rfl⟩

end

/-- Settles O33: each of the seven writes RXS and PHASE. -/
theorem engineControlFrame : Obligations.EngineControlFrame := by
  intro s t i p l d hi he
  obtain ⟨n, _, _, hn, rfl⟩ := steeringOp_writes hi he
  exact ⟨SameParties.setInst s _, rfl, n, _, hn, rfl, ⟨rfl, rfl, rfl, rfl⟩, fun _ => rfl, fun _ _ => rfl, rfl,
    ⟨rfl, rfl, rfl, rfl, rfl⟩, ⟨rfl, rfl, rfl, rfl⟩, rfl⟩

/-- Settles O34: each of the three writes the engine's registers, and CLASSIFY the port. -/
theorem classifyFrame : Obligations.ClassifyFrame := by
  intro s t i h d hi he
  obtain ⟨n, m, _, hn, rfl, hkept, ho, hm, hidx⟩ := acceptingOp_writes hi he
  exact ⟨rfl, rfl, rfl, rfl, rfl, rfl, rfl, hkept, ho, n, m, hn, rfl, hm.cursors, hm.bytes, hm.table, hm.seq, hm.stats,
    hm.term, hidx⟩

end Sys2Proof.Machine

/-! ### O53: an accepted datagram runs to its end (43_receiver.md R179, 41_continuity.md R138, 42_sequence.md R153) -/

namespace Sys2Proof.Machine

section
variable {cfg : Config} {s t : State} {n m : Instance} {k : Nat}

/-! #### Single turns -/

theorem engineTurns_succ (h : engineTurn s = .next t) : engineTurns (k + 1) s = engineTurns k t := by
  simp only [engineTurns, h]

theorem engineTurns_keeps_inv (h : s.Inv) (he : engineTurns k s = .next t) : t.Inv := by
  induction k generalizing s with
  | zero => cases he; exact h
  | succ k ih =>
    unfold engineTurns at he
    split at he
    · next u hu => exact ih (engineTurn_keeps_inv h hu) he
    · cases he
    · cases he

/-- The micro-operation that a PHASE selects in LISTENING (R170). -/
def Phase.op : Phase → Instr
  | .wait => .classify
  | .seq => .seqCheck
  | .cc => .ccCheck
  | .pktcnt => .pktCount
  | .push => .push
  | .termchk => .termCheck

/-- The turn of a listening engine is the micro-operation of its PHASE (R91). -/
theorem engineTurn_op {p : Phase} (hn : s.inst = some n) (hr : n.rxs = .listening) (hp : n.phase = p) :
    engineTurn s = exec p.op s := by
  rw [engineTurn_eq hn, hr, hp]
  cases p <;> rfl

/-- The turn of an engine at CC_CHECK finds its packet, writes what its class may, and goes on to the next packet, or to
PKT_COUNT after the last (R130). -/
theorem engineTurn_ccCheck (h : s.Inv) (hn : s.inst = some n) (hr : n.rxs = .listening) (hp : n.phase = .cc) :
    ∃ a e ct, engineTurn s = .next (s.setInst { n with
      terr := a, cerr := e, ct := ct, rxIdx := n.rxIdx + 1,
      phase := if n.rxIdx + 1 = s.cfg.nTs then .pktcnt else .cc }) := by
  have hi := h.inst_inv n hn
  obtain ⟨w, hw⟩ := hi.tsWordAt_some (hi.idx_lt hr hp)
  rw [engineTurn_packet hn hr hp hw rfl, decodeTs]
  split
  · exact ⟨_, _, _, tsNull_selected hn hr hp⟩
  · exact ⟨_, _, _, tsTei_selected hn hr hp⟩
  · obtain ⟨e, ct, hwr⟩ := checkContinuity_writes s.cfg (TsHeader.ofWord w).pid (TsHeader.ofWord w).cc n
    exact ⟨_, e, ct, by rw [tsData_selected hn hr hp, hwr]; rfl⟩

/-- One turn for each packet left takes the engine from CC_CHECK to PKT_COUNT, whatever the checks find (R138). -/
theorem engineTurns_checks (h : s.Inv) (hn : s.inst = some n) (hr : n.rxs = .listening) (hp : n.phase = .cc)
    (hk : n.rxIdx + k = s.cfg.nTs) :
    ∃ a e ct x, engineTurns k s =
      .next (s.setInst { n with terr := a, cerr := e, ct := ct, rxIdx := x, phase := .pktcnt }) := by
  induction k generalizing s n with
  | zero => exact absurd ((h.inst_inv n hn).idx_lt hr hp) (by omega)
  | succ k ih =>
    obtain ⟨a, e, ct, hturn⟩ := engineTurn_ccCheck h hn hr hp
    have hi := engineTurn_keeps_inv h hturn
    rw [engineTurns_succ hturn]
    by_cases hlast : n.rxIdx + 1 = s.cfg.nTs
    · obtain rfl : k = 0 := by omega
      rw [if_pos hlast]
      exact ⟨a, e, ct, _, rfl⟩
    · rw [if_neg hlast] at hi ⊢
      have hnext : n.rxIdx + 1 + k = s.cfg.nTs := by omega
      have hrest := ih hi rfl hr rfl hnext
      exact hrest

/-! #### From the checks to WAIT -/

/-- A unit whose checks begin in `n` has run to its end in `m`: the engine waits again, SEQ and NERR are as before, the
unit is counted once under PER_UNIT, and it is dropped and counted or appended to the queue (R179). -/
structure UnitDone (cfg : Config) (n m : Instance) : Prop where
  rxs : m.rxs = .listening
  phase : m.phase = .wait
  seq : m.seq = n.seq
  nerr : m.nerr = n.nerr
  pkt : cfg.pktCountMode = .perUnit → m.pkt = inc cfg n.pkt
  ring : m.ovf = inc cfg n.ovf ∧ m.liveBytes = n.liveBytes ∨
    m.ovf = n.ovf ∧ m.liveBytes = n.liveBytes ++ n.rxUnit.map some

/-- What the checks write is none of it. -/
theorem UnitDone.of_checked {a e x : Nat} {ct : ContinuityTable} {p : Phase}
    (h : UnitDone cfg { n with terr := a, cerr := e, ct := ct, rxIdx := x, phase := p } m) : UnitDone cfg n m :=
  ⟨h.rxs, h.phase, h.seq, h.nerr, h.pkt, h.ring⟩

/-- PKT_COUNT, PUSH and the TERM_CHECK of an engine that is not to terminate end a unit (R179). -/
theorem UnitDone.of_pktCount (h : n.Inv cfg) (hu : 0 < cfg.unitSize) (ha : n.isAt .pktcnt = true) :
    UnitDone cfg n { (n.countPacket cfg).pushUnit cfg with phase := .wait } := by
  obtain ⟨hr, -⟩ := isAt_iff.mp ha
  have hqueue := (h.countPacket ha).push_queue hu
  obtain ⟨k, hcount⟩ := countPacket_writes cfg n
  have hpkt : cfg.pktCountMode = .perUnit → k = inc cfg n.pkt := fun hm => by
    rw [countPacket_perUnit hm] at hcount
    exact (congrArg Instance.pkt hcount).symm
  rw [hcount] at hqueue ⊢
  obtain ⟨_, _, _, hpush⟩ := pushUnit_writes cfg { n with pkt := k, phase := .push }
  rw [hpush] at hqueue ⊢
  exact ⟨hr, rfl, rfl, rfl, hpkt, hqueue.imp And.symm And.symm⟩

theorem countPacket_control (cfg : Config) (n : Instance) :
    (n.countPacket cfg).rxs = n.rxs ∧ (n.countPacket cfg).phase = .push ∧ (n.countPacket cfg).term = n.term := by
  obtain ⟨_, hw⟩ := countPacket_writes cfg n
  rw [hw]; exact ⟨rfl, rfl, rfl⟩

theorem pushUnit_control (cfg : Config) (n : Instance) :
    (n.pushUnit cfg).rxs = n.rxs ∧ (n.pushUnit cfg).phase = .termchk ∧ (n.pushUnit cfg).term = n.term := by
  obtain ⟨_, _, _, hw⟩ := pushUnit_writes cfg n
  rw [hw]; exact ⟨rfl, rfl, rfl⟩

/-- PKT_COUNT, PUSH and TERM_CHECK, one turn each (R179). -/
theorem engineTurns_finish (hn : s.inst = some n) (hr : n.rxs = .listening) (hp : n.phase = .pktcnt)
    (ht : n.term = false) :
    engineTurns 3 s = .next (s.setInst { (n.countPacket s.cfg).pushUnit s.cfg with phase := .wait }) := by
  obtain ⟨hr1, hp1, ht1⟩ := countPacket_control s.cfg n
  obtain ⟨hr2, hp2, ht2⟩ := pushUnit_control s.cfg (n.countPacket s.cfg)
  rw [hr] at hr1
  rw [hr1] at hr2
  have hcount := (engineTurn_op hn hr hp).trans (pktCount_selected hn hr hp)
  have hpush := (engineTurn_op (s := s.setInst (n.countPacket s.cfg)) rfl hr1 hp1).trans (push_selected rfl hr1 hp1)
  have hcheck := (engineTurn_op (s := s.setInst ((n.countPacket s.cfg).pushUnit s.cfg)) rfl hr2 hp2).trans
    (termCheck_selected rfl hr2 hp2)
  rw [if_neg (by simp [ht2, ht1, ht])] at hcheck
  rw [engineTurns_succ hcount, engineTurns_succ hpush]
  exact engineTurns_succ hcheck

/-- From its first CC_CHECK a unit takes `N_TS + 3` turns to its end (R179). -/
theorem engineTurns_unit (h : s.Inv) (hn : s.inst = some n) (hr : n.rxs = .listening) (hp : n.phase = .cc)
    (h0 : n.rxIdx = 0) (ht : n.term = false) :
    ∃ m, engineTurns (s.cfg.nTs + 3) s = .next (s.setInst m) ∧ UnitDone s.cfg n m := by
  obtain ⟨a, e, ct, x, hrun⟩ := engineTurns_checks h hn hr hp (k := s.cfg.nTs) (by omega)
  have hi := (engineTurns_keeps_inv h hrun).inst_inv _ rfl
  rw [engineTurns_add, hrun]
  exact ⟨_, engineTurns_finish rfl hr rfl ht,
    (UnitDone.of_pktCount hi (unitSize_pos h.cfg_wf) (isAt_iff.mpr ⟨hr, rfl⟩)).of_checked⟩

/-- From its SEQ_CHECK, which keeps the number, an RTP unit takes one turn more (R179, R153). -/
theorem engineTurns_rtpUnit (h : s.Inv) (hn : s.inst = some n) (hr : n.rxs = .listening) (hp : n.phase = .seq)
    (ht : n.term = false) :
    ∃ m e ct, engineTurns (s.cfg.nTs + 4) s = .next (s.setInst m) ∧
      UnitDone s.cfg { n with seq := some n.rxSeq, rxIdx := 0, phase := .cc, nerr := e, ct := ct } m := by
  have hturn := (engineTurn_op hn hr hp).trans (seqCheck_selected hn hr hp)
  have hi := engineTurn_keeps_inv h hturn
  obtain ⟨e, ct, hw⟩ := checkSeq_writes s.cfg n
  rw [hw] at hi hturn
  obtain ⟨m, hrun, hd⟩ := engineTurns_unit hi rfl hr rfl rfl ht
  exact ⟨m, e, ct, (engineTurns_succ hturn).trans hrun, hd⟩

end

/-- Settles O53: CLASSIFY, for an RTP datagram SEQ_CHECK, and the turns of a unit from its first CC_CHECK on. -/
theorem unitRunsToItsEnd : Obligations.UnitRunsToItsEnd := by
  intro s n l d h hn hr hp ht ho
  obtain ⟨-, -, -, hclass⟩ := classifyDecidesByLength s n hn hr hp
  obtain ⟨-, rtp, bare, -⟩ := hclass l d ho (lengthIs_iff.mp (h.offer_wf _ ho))
  refine ⟨fun hl => ?_, fun hl => ?_⟩
  · have hclassify := (engineTurn_op hn hr hp).trans (bare (hl ▸ (unitSize_pos h.cfg_wf).ne') hl)
    obtain ⟨m, hrun, hd⟩ := engineTurns_unit (engineTurn_keeps_inv h hclassify) rfl hr rfl rfl ht
    exact ⟨_, m, (engineTurns_succ hclassify).trans hrun, rfl, hd.rxs, hd.phase, rfl, hd.seq, hd.nerr, hd.pkt, hd.ring⟩
  · obtain ⟨x, y, hx, hy, hc⟩ := rtp hl
    have hclassify := (engineTurn_op hn hr hp).trans hc
    obtain ⟨m, _, _, hrun, hd⟩ := engineTurns_rtpUnit (engineTurn_keeps_inv h hclassify) rfl hr rfl ht
    exact ⟨_, m, (engineTurns_succ hclassify).trans hrun, rfl, hd.rxs, hd.phase, rfl,
      ⟨x, y, hx, hy, be16_eq_ofNat x y ▸ hd.seq⟩, hd.pkt, hd.ring⟩

end Sys2Proof.Machine

/-! ### O54: a CLOSE completes (43_receiver.md R184, 45_lifecycle.md R233, R234) -/

namespace Sys2Proof.Machine

section
variable {cfg : Config} {s t : State} {n m : Instance} {k : Nat}

/-! #### One turn of an engine that is to terminate -/

/-- How many turns are enough to end an engine with TERM = 1 and, in WAIT, an event to take (R184): from LISTENING those
of the event's processing, and then EXIT. -/
def Instance.turnsToEnd (cfg : Config) (n : Instance) : Nat :=
  match n.rxs with
  | .starting => 2
  | .listening => n.turnsLeft cfg + 1
  | .terminating => 1
  | .stopped => 0
  | .dead => 0

theorem turnsToEnd_le (cfg : Config) (n : Instance) : n.turnsToEnd cfg ≤ cfg.nTs + 6 := by
  have hleft : n.turnsLeft cfg ≤ cfg.nTs + 5 := by
    unfold Instance.turnsLeft
    split <;> omega
  unfold Instance.turnsToEnd
  split <;> omega

theorem turnsToEnd_pos (hrun : ¬ (n.rxs = .stopped ∨ n.rxs = .dead)) : 0 < n.turnsToEnd cfg := by
  unfold Instance.turnsToEnd
  cases hr : n.rxs <;> simp [hr] at hrun ⊢

/-- The engine is inside the processing of an event, or it terminates, or it is dead: what a turn makes of a listening
engine that is to terminate. -/
def Instance.PastWait (n : Instance) : Prop :=
  n.rxs = .listening ∧ n.phase ≠ .wait ∨ n.rxs = .terminating ∨ n.rxs = .dead

/-- A waiting engine takes any event there is, and waits no longer (R173 to R178). -/
theorem classify_leaves_wait {e : Event} (h : s.Inv) (hn : s.inst = some n) (hr : n.rxs = .listening)
    (hp : n.phase = .wait) (ho : s.offer = some e) :
    ∃ t m, exec .classify s = .next t ∧ t.inst = some m ∧ m.PastWait := by
  obtain ⟨-, idle, rxerr, dgram⟩ := classifyDecidesByLength s n hn hr hp
  cases e with
  | idle => exact ⟨_, _, idle ho, rfl, .inl ⟨hr, nofun⟩⟩
  | rxerr => exact ⟨_, _, rxerr ho, rfl, .inr (.inr rfl)⟩
  | dgram l d =>
    obtain ⟨fatal, rtp, bare, other⟩ := dgram l d ho (lengthIs_iff.mp (h.offer_wf _ ho))
    by_cases h0 : l.toNat = 0
    · exact ⟨_, _, fatal h0, rfl, .inr (.inr rfl)⟩
    · by_cases hu : l.toNat = s.cfg.unitSize
      · exact ⟨_, _, bare h0 hu, rfl, .inl ⟨hr, nofun⟩⟩
      · by_cases hl : l.toNat = s.cfg.unitSize + 12
        · obtain ⟨_, _, -, -, hc⟩ := rtp hl
          exact ⟨_, _, hc, rfl, .inl ⟨hr, nofun⟩⟩
        · exact ⟨_, _, other h0 hu hl, rfl, .inl ⟨hr, nofun⟩⟩

/-- A listening engine with TERM = 1 goes on, and does not come back to WAIT (R170, R181). -/
theorem engineTurn_pastWait (h : s.Inv) (hn : s.inst = some n) (hr : n.rxs = .listening) (ht : n.term = true)
    (ho : n.phase = .wait → s.offer.isSome = true) :
    ∃ t m, engineTurn s = .next t ∧ t.inst = some m ∧ m.PastWait := by
  cases hp : n.phase with
  | wait =>
    obtain ⟨e, he⟩ := Option.isSome_iff_exists.mp (ho hp)
    rw [engineTurn_op hn hr hp]
    exact classify_leaves_wait h hn hr hp he
  | seq =>
    refine ⟨_, _, (engineTurn_op hn hr hp).trans (seqCheck_selected hn hr hp), rfl, ?_⟩
    obtain ⟨_, _, hw⟩ := checkSeq_writes s.cfg n
    rw [hw]
    exact .inl ⟨hr, nofun⟩
  | cc =>
    obtain ⟨_, _, _, hturn⟩ := engineTurn_ccCheck h hn hr hp
    refine ⟨_, _, hturn, rfl, .inl ⟨hr, ?_⟩⟩
    dsimp only
    split <;> nofun
  | pktcnt =>
    obtain ⟨hr', hp', -⟩ := countPacket_control s.cfg n
    exact ⟨_, _, (engineTurn_op hn hr hp).trans (pktCount_selected hn hr hp), rfl,
      .inl ⟨hr'.trans hr, by rw [hp']; nofun⟩⟩
  | push =>
    obtain ⟨hr', hp', -⟩ := pushUnit_control s.cfg n
    exact ⟨_, _, (engineTurn_op hn hr hp).trans (push_selected hn hr hp), rfl,
      .inl ⟨hr'.trans hr, by rw [hp']; nofun⟩⟩
  | termchk =>
    refine ⟨_, _, (engineTurn_op hn hr hp).trans (termCheck_selected hn hr hp), rfl, ?_⟩
    rw [if_pos ht]
    exact .inr (.inl rfl)

/-- Past WAIT, a turn of a listening engine has brought its end nearer (R179). -/
theorem turnsToEnd_advances (h : s.Inv) (hn : s.inst = some n) (hr : n.rxs = .listening) (he : engineTurn s = .next t)
    (hm : t.inst = some m) (hw : m.PastWait) : m.turnsToEnd s.cfg < n.turnsToEnd s.cfg := by
  have hpos := turnsLeft_pos s.cfg n
  obtain ⟨hmr, hmp⟩ | hmr | hmr := hw
  · obtain ⟨m', hm', hlt⟩ := engineTurn_advances h hn he (midUnit_iff.mpr ⟨m, hm, hmr, hmp⟩)
    rw [hm] at hm'; cases hm'
    simp only [Instance.turnsToEnd, hr, hmr]
    omega
  · simp only [Instance.turnsToEnd, hr, hmr]; omega
  · simp only [Instance.turnsToEnd, hr, hmr]; omega

/-- A turn leaves the outside parties alone but for the port, and answers nothing (R170). -/
theorem engineTurn_state (hn : s.inst = some n) (he : engineTurn s = .next t) (hm : t.inst = some m) :
    ∃ o, t = { s with inst := some m, offer := o } := by
  obtain ⟨_, rfl | ⟨-, rfl⟩⟩ := engineTurn_writes hn he <;> cases hm
  · exact ⟨s.offer, rfl⟩
  · exact ⟨none, rfl⟩

/-- Every turn of an engine that has not ended, has TERM = 1 and, in WAIT, an event to take brings its end nearer. -/
theorem engineTurn_toward_end (h : s.Inv) (hn : s.inst = some n) (ht : n.term = true)
    (hrun : ¬ (n.rxs = .stopped ∨ n.rxs = .dead)) (ho : n.rxs = .listening → n.phase = .wait → s.offer.isSome = true) :
    ∃ m o, engineTurn s = .next { s with inst := some m, offer := o } ∧ m.term = true ∧
      ¬ (m.rxs = .listening ∧ m.phase = .wait) ∧ m.turnsToEnd s.cfg < n.turnsToEnd s.cfg := by
  cases hr : n.rxs with
  | starting =>
    refine ⟨{ n with rxs := .terminating }, s.offer, ?_, ht, nofun, by simp [Instance.turnsToEnd, hr]⟩
    rw [engineTurn_eq hn, hr]
    exact (start_selected (p := phaseCode n.phase) hn hr).trans (by rw [if_pos ht]; rfl)
  | listening =>
    obtain ⟨t, m, he, hm, hw⟩ := engineTurn_pastWait h hn hr ht (ho hr)
    have hlt := turnsToEnd_advances h hn hr he hm hw
    have hterm := (effect_of_next ((engineTurn_op hn hr rfl).symm.trans he) hn hm).writesOwnElements.term_stays ht
    obtain ⟨o, rfl⟩ := engineTurn_state hn he hm
    refine ⟨m, o, he, hterm, ?_, hlt⟩
    rintro ⟨hmr, hmp⟩
    obtain ⟨-, hne⟩ | hmr' | hmr' := hw
    · exact hne hmp
    · simp [hmr] at hmr'
    · simp [hmr] at hmr'
  | terminating =>
    refine ⟨{ n with rxs := .stopped }, s.offer, ?_, ht, nofun, by simp [Instance.turnsToEnd, hr]⟩
    rw [engineTurn_eq hn, hr]
    exact exit_selected (p := phaseCode n.phase) hn hr
  | stopped => exact absurd (.inl hr) hrun
  | dead => exact absurd (.inr hr) hrun

/-! #### To the end -/

theorem engineTurns_zero (hn : s.inst = some n) :
    engineTurns 0 s = .next { s with inst := some n, offer := s.offer } :=
  congrArg _ (setInst_self hn).symm

/-- With TERM = 1 and, in WAIT, an event to take, enough turns end the engine; but for the registers and the port they
change nothing (R184). -/
theorem engineTurns_end (h : s.Inv) (hn : s.inst = some n) (ht : n.term = true)
    (ho : n.rxs = .listening → n.phase = .wait → s.offer.isSome = true) (hk : n.turnsToEnd s.cfg ≤ k) :
    ∃ j ≤ k, ∃ m o, engineTurns j s = .next { s with inst := some m, offer := o } ∧
      (m.rxs = .stopped ∨ m.rxs = .dead) := by
  induction k generalizing s n with
  | zero =>
    have hend : n.rxs = .stopped ∨ n.rxs = .dead := by
      by_contra hrun
      exact absurd (turnsToEnd_pos (cfg := s.cfg) hrun) (Nat.not_lt.mpr hk)
    exact ⟨0, Nat.le_refl 0, n, s.offer, engineTurns_zero hn, hend⟩
  | succ k ih =>
    by_cases hend : n.rxs = .stopped ∨ n.rxs = .dead
    · exact ⟨0, Nat.zero_le _, n, s.offer, engineTurns_zero hn, hend⟩
    · obtain ⟨m, o, he, hterm, hwait, hlt⟩ := engineTurn_toward_end h hn ht hend ho
      obtain ⟨j, hj, m', o', hrun, hend'⟩ := ih (engineTurn_keeps_inv h he) rfl hterm
        (fun hr hp => absurd ⟨hr, hp⟩ hwait) (Nat.le_of_lt_succ (Nat.lt_of_lt_of_le hlt hk))
      exact ⟨j + 1, Nat.succ_le_succ hj, m', o', (engineTurns_succ he).trans hrun, hend'⟩

/-! #### The held CLOSEs -/

/-- Step 2 of a CLOSE whose engine has ended closes the block (R233). -/
theorem close_ended (hn : s.inst = some n) (hend : n.rxs = .stopped ∨ n.rxs = .dead) (hc : s.served ∈ s.closing)
    (ho : s.served ∉ s.overtaken) : exec .close s = .next (s.dropInst.endClose.answer .ok 0x9#4) := by
  simp only [exec, execClose, if_neg ho, if_pos hc, closeEnd, hn, if_pos hend]

/-- A CLOSE that another one has overtaken is answered BADSTATE (R233 corner (d)). -/
theorem close_overtaken (ho : s.served ∈ s.overtaken) :
    exec .close s = .next (s.endClose.answer .badState 0x9#4) := by
  simp only [exec, execClose, if_pos ho, closeOvertaken]

/-- Under a held CLOSE TERM is 1 (R233). -/
theorem State.Inv.term_of_closing (h : s.Inv) (hn : s.inst = some n) (hc : s.closing ≠ []) : n.term = true := by
  obtain ⟨n', hn', ht⟩ := h.closing_term hc
  rw [hn] at hn'; cases hn'; exact ht

theorem not_outstanding_endClose (s : State) : ¬ s.endClose.outstanding s.served := by
  simp [State.outstanding]

end

/-- Settles O54: the engine ends, the CLOSE served then closes the block, and every other one held is overtaken by it. -/
theorem closeCompletes : Obligations.CloseCompletes := by
  intro s n h hn hc ho
  have ht : n.term = true := hc.elim id (h.term_of_closing hn)
  obtain ⟨k, hk, m, o, hrun, hend⟩ := engineTurns_end h hn ht (fun _ _ => ho) (turnsToEnd_le s.cfg n)
  refine ⟨k, hk, _, m, hrun, rfl, hend, rfl, fun c hc => ?_⟩
  have hnot : c ∉ s.overtaken := List.disjoint_of_nodup_append h.outstanding_nodup hc
  refine ⟨_, close_ended rfl hend hc hnot, rfl, rfl, fun d hd hdc => ⟨?_, ?_⟩⟩
  · simp [hd, hdc]
  · rintro v hv rfl
    exact ⟨_, close_overtaken hv, rfl, rfl, not_outstanding_endClose v⟩

end Sys2Proof.Machine

/-! ### O16, O17, O29, O45: out of state, illegal, reading, and right after a FLUSH (44_consumer.md R203 to R208) -/

namespace Sys2Proof.Machine

/-! #### Commands out of state -/

section
variable {s : State}

/-- A command that needs an open block is answered BADSTATE in a closed one (R206). -/
theorem withOpen_closed {opc : BitVec 4} {f : Instance → State} (h : s.inst = none) :
    withOpen opc s f = .next (s.answer .badState opc) :=
  withOpen_next.mpr (.inl ⟨h, rfl⟩)

/-- A new CLOSE is answered BADSTATE in a closed block (R206). -/
theorem close_closed (h : s.inst = none) (ho : ¬ s.outstanding s.served) :
    exec .close s = .next (s.answer .badState 0x9#4) := by
  obtain ⟨hc, hv⟩ := not_or.mp ho
  simp only [exec, execClose, if_neg hv, if_neg hc, closeBegin, h]

/-- An OPEN is answered BADSTATE in an open block (R206). -/
theorem open_open {n : Instance} {arg : BitVec 32} (h : s.inst = some n) :
    exec (.openCmd arg) s = .next (s.answer .badState 0x8#4) := by
  simp only [exec, execOpen, h]

end

/-- Settles O16: each of the five commands, by the rule for it where the block is in the other state. -/
theorem outOfStateCommandsAnswerBadState : Obligations.OutOfStateCommandsAnswerBadState :=
  fun _ => ⟨fun h => ⟨fun _ => withOpen_closed h, withOpen_closed h, withOpen_closed h, close_closed h⟩,
    fun _ _ h => open_open h⟩

/-! #### Illegal words -/

/-- Settles O17: every illegal row is `answerIllegal` of its opcode, and the word it answers evaluates to the one written
out; for a malformed word of any opcode that is the rule for word 0 of an ILLEGAL response. -/
theorem reservedOpcodesAnswerIllegal : Obligations.ReservedOpcodesAnswerIllegal :=
  fun _ _ _ => ⟨rfl, rfl, rfl, rfl, rfl, rfl, rfl, rfl, rfl, rfl, rfl, fun opc => by rw [← responseWord_illegal]; rfl⟩

/-! #### What reading leaves alone -/

section
variable {s t : State}

/-- Everything an answered GETSTATS can do: it responds (R203, R206). -/
theorem getstats_responds (h : exec .getstats s = .next t) : ∃ ws, t = s.respond ws := by
  obtain ⟨-, rfl⟩ | ⟨_, -, rfl⟩ := withOpen_next.mp h <;> exact ⟨_, rfl⟩

/-- Everything an answered illegal word can do: it responds (R205). -/
theorem illegal_responds {o : BitVec 4} (h : answerIllegal o s = .next t) : ∃ ws, t = s.respond ws := by
  cases h; exact ⟨_, rfl⟩

/-- A command that does nothing but respond leaves the block and the outside parties alone (R74). -/
theorem unchanged_of_responds (h : ∃ ws, t = s.respond ws) :
    SameParties s t ∧ t.inst = s.inst ∧ ∃ x, t.out = x :: s.out := by
  obtain ⟨_, rfl⟩ := h
  exact ⟨⟨rfl, rfl, rfl, rfl, rfl, rfl, rfl⟩, rfl, _, rfl⟩

end

/-- Settles O29: BREAD delivers a byte and may count a draw; every other one of these operations responds and does no
more. -/
theorem readersLeaveTheBlockAlone : Obligations.ReadersLeaveTheBlockAlone := by
  intro s t i r a o hi he
  by_cases hb : i = .bread a
  · subst hb
    obtain ⟨_, -, -, ⟨_, -, -, rfl⟩ | rfl⟩ := bread_cases he <;>
      exact ⟨rfl, ⟨_, rfl⟩, rfl, rfl, rfl, rfl, rfl, rfl, fun h => absurd rfl h⟩
  · have hresponds : ∃ ws, t = s.respond ws := by
      simp only [List.mem_cons, List.not_mem_nil, or_false, hb, false_or] at hi
      obtain rfl | hi := hi
      · exact getstats_responds he
      · obtain rfl | rfl | rfl | rfl | rfl | rfl | rfl | rfl | rfl | rfl | rfl | rfl := hi <;> exact illegal_responds he
    obtain ⟨hp, hinst, hout⟩ := unchanged_of_responds hresponds
    exact ⟨hinst, hout, hp.cfg, hp.closing, hp.overtaken, hp.offer, hp.sched, hp.served, fun _ => hp.draws⟩

/-! #### Right after a FLUSH -/

/-- A RECV right after a FLUSH finds the ring empty, since the cursors are equal and nothing is held (R104, R108). -/
theorem flushAll_consume_pend {n : Instance} (h : n.head < n.c) (cfg : Config) (k : Nat) :
    (n.flushAll.consume cfg k).pend = 0 := by
  have hempty : n.flushAll.commit.avail = 0 := avail_of_head_eq_tail (Nat.mod_eq_of_lt h).symm
  exact if_pos hempty

/-- RECV answers VALID, OFFSET and SIZE 0 where CONSUME returns nothing (R75, R201). -/
theorem recv_empty {s : State} {n : Instance} {arg : BitVec 32} (hn : s.inst = some n)
    (h : (n.consume s.cfg arg.toNat).pend = 0) :
    exec (.recv arg) s = .next ((s.setInst (n.consume s.cfg arg.toNat)).respond [0x10#64, 0#64]) := by
  refine withOpen_next.mpr (.inr ⟨n, hn, ?_⟩)
  simp only [h, if_true]
  rfl

/-- Settles O45: after a FLUSH the counters are 0 and the ring is empty, and GETSTATS and RECV answer just that. -/
theorem flushLeavesNothing : Obligations.FlushLeavesNothing := by
  intro s n arg hn
  have hflush : exec .flush s = .next ((s.setInst n.flushAll).answer .ok 0x2#4) :=
    withOpen_next.mpr (.inr ⟨n, hn, rfl⟩)
  refine ⟨_, hflush, ⟨_, rfl, rfl⟩, _, rfl, fun hlt => ?_⟩
  have hrecv := recv_empty (s := (s.setInst n.flushAll).answer .ok 0x2#4) rfl
    (flushAll_consume_pend hlt s.cfg arg.toNat)
  exact congrArg State.out (Host.Outcome.next.inj hrecv)

end Sys2Proof.Machine

/-! ### O9, O14, O15: what the ports refuse, OPEN and CLOSE (44_consumer.md R200, 45_lifecycle.md R231 to R235) -/

namespace Sys2Proof.Machine

section
variable {s : State} {n : Instance} {c : Nat} {rest : List Request}

/-! #### What has no move at a port -/

theorem step_command_noSuchConsumer {w : Word64} (hs : s.sched = .command c w :: rest) (hc : s.cfg.nCons ≤ c) :
    step s = .refused .noSuchConsumer := by
  rw [step_cons hs, serve, if_pos hc]

/-- A consumer waits for its answer before it hands over the next command word (R200). -/
theorem step_command_unanswered {w : Word64} (hs : s.sched = .command c w :: rest) (hc : c < s.cfg.nCons)
    (ho : s.outstanding c) : step s = .refused .previousUnanswered := by
  rw [step_cons hs, serve, if_neg hc.not_ge, if_pos ho]

theorem step_bread_noSuchConsumer {a : BitVec 32} (hs : s.sched = .bread c a :: rest) (hc : s.cfg.nCons ≤ c) :
    step s = .refused .noSuchConsumer := by
  rw [step_cons hs, serve, if_pos hc]

/-- A datagram has as many bytes as its length (R77). -/
theorem step_offer_noSuchEvent {e : Event} (hs : s.sched = .offer e :: rest) (he : eventWf e = false) :
    step s = .refused .noSuchEvent := by
  rw [step_cons hs, serve, if_neg (Bool.eq_false_iff.mp he)]

/-- There is no step 2 to serve of a consumer with no CLOSE outstanding (R233). -/
theorem step_resume_idle (hs : s.sched = .resume c :: rest) (ho : ¬ s.outstanding c) :
    step s = .next { s with sched := rest } := by
  rw [step_cons hs, serve, if_neg ho]

/-! #### OPEN in a closed block -/

/-- OPEN of a legal capacity creates the instance of R38, for which it draws (R230). -/
theorem open_legal {arg : BitVec 32} (h : s.inst = none) (hc : capLegal s.cfg arg.toNat) :
    exec (.openCmd arg) s =
      .next (((s.setInst (freshInstance s.cfg arg.toNat s.draws)).countDraw).answer .ok 0x8#4) := by
  simp only [exec, execOpen, h, if_pos hc]

/-- OPEN of an illegal capacity is answered CAPFAIL (R231). -/
theorem open_capFail {arg : BitVec 32} (h : s.inst = none) (hc : ¬ capLegal s.cfg arg.toNat) :
    exec (.openCmd arg) s = .next (s.answer .capFail 0x8#4) := by
  simp only [exec, execOpen, h, if_neg hc]

/-! #### The steps of CLOSE -/

/-- Step 1 sets the terminate flag and holds the consumer (R233). -/
theorem close_begins (hn : s.inst = some n) (ho : ¬ s.outstanding s.served) :
    exec .close s = .next { s.setInst { n with term := true } with closing := s.served :: s.closing } := by
  obtain ⟨hc, hv⟩ := not_or.mp ho
  simp only [exec, execClose, if_neg hv, if_neg hc, closeBegin, hn]

/-- Step 2 is held while the engine has not ended (R233, R234). -/
theorem close_held (hn : s.inst = some n) (hrun : ¬ (n.rxs = .stopped ∨ n.rxs = .dead)) (hc : s.served ∈ s.closing)
    (ho : s.served ∉ s.overtaken) : exec .close s = .next s := by
  simp only [exec, execClose, if_neg ho, if_pos hc, closeEnd, hn, if_neg hrun]

/-- Step 2 in a closed block finds nothing to close (R233 corner (d)). -/
theorem close_held_closed (hn : s.inst = none) (hc : s.served ∈ s.closing) :
    exec .close s = .next (s.endClose.answer .badState 0x9#4) := by
  by_cases ho : s.served ∈ s.overtaken
  · exact close_overtaken ho
  · simp only [exec, execClose, if_neg ho, if_pos hc, closeEnd, hn, closeOvertaken]

end

/-- Settles O9: each request that has no move, at its port, and the arbiter with no CLOSE or nothing at all to serve. -/
theorem portsRefuseWhatHasNoMove : Obligations.PortsRefuseWhatHasNoMove :=
  fun _ _ => ⟨fun _ _ => step_command_noSuchConsumer, fun _ _ => step_command_unanswered,
    fun _ _ => step_bread_noSuchConsumer, fun _ => step_offer_noSuchEvent, fun _ => step_resume_idle, step_nil⟩

/-- Settles O14: a legal capacity gives the fresh instance, whose registers are those of R38 by its definition, and the
table it starts with knows no entry. -/
theorem openCreatesTheInstance : Obligations.OpenCreatesTheInstance := by
  refine fun s arg hn => ⟨fun hc => ?_, open_capFail hn⟩
  exact ⟨freshInstance s.cfg arg.toNat s.draws, s.draws + 1, open_legal hn hc, rfl, rfl, rfl, rfl, ctGet_ctClear, rfl, rfl,
    rfl, rfl, rfl, rfl, rfl, rfl, rfl⟩

/-- Settles O15: step 1, step 2 while the engine runs and once it has ended, and a CLOSE whose instance is gone. -/
theorem closeStopsWaitsAndDestroys : Obligations.CloseStopsWaitsAndDestroys :=
  fun _ => ⟨fun _ => close_begins,
    fun _ hn hc ho hstop hdead => close_held hn (not_or.mpr ⟨hstop, hdead⟩) hc ho,
    fun _ hn hc ho hend => close_ended hn hend hc ho,
    fun h => h.elim close_overtaken fun ⟨hn, hc⟩ => close_held_closed hn hc⟩

end Sys2Proof.Machine

/-! ### O52: no step faults, and what is refused (60_exceptions.md R250, R254, 45_lifecycle.md R235) -/

namespace Sys2Proof.Machine

/-- The outcomes a step may have: it goes on, or it is refused as one of the four things no party may do (R53, R6, R77,
R200, R235). -/
inductive Permitted : Host.Outcome State Fault Refusal → Prop
  | next (t : State) : Permitted (.next t)
  | breadOutOfRange : Permitted (.refused .breadOutOfRange)
  | previousUnanswered : Permitted (.refused .previousUnanswered)
  | noSuchConsumer : Permitted (.refused .noSuchConsumer)
  | noSuchEvent : Permitted (.refused .noSuchEvent)

theorem Permitted.of_next {o : Host.Outcome State Fault Refusal} (h : ∃ t, o = .next t) : Permitted o := by
  obtain ⟨t, rfl⟩ := h
  exact .next t

section
variable {s : State}

/-! #### The engine -/

/-- The operation of a listening engine's PHASE is selected, takes only an event that exists, and finds its packet
(R170, R77, R81). -/
theorem engineTurn_listening_next {n : Instance} (h : s.Inv) (hn : s.inst = some n) (hr : n.rxs = .listening) :
    ∃ t, engineTurn s = .next t := by
  cases hp : n.phase with
  | wait =>
    cases ho : s.offer with
    | none => exact ⟨s, engineTurn_waits hn hr hp ho⟩
    | some e =>
      obtain ⟨t, _, he, -⟩ := classify_leaves_wait h hn hr hp ho
      exact ⟨t, (engineTurn_op hn hr hp).trans he⟩
  | seq => exact ⟨_, (engineTurn_op hn hr hp).trans (seqCheck_selected hn hr hp)⟩
  | cc =>
    obtain ⟨_, _, _, hturn⟩ := engineTurn_ccCheck h hn hr hp
    exact ⟨_, hturn⟩
  | pktcnt => exact ⟨_, (engineTurn_op hn hr hp).trans (pktCount_selected hn hr hp)⟩
  | push => exact ⟨_, (engineTurn_op hn hr hp).trans (push_selected hn hr hp)⟩
  | termchk => exact ⟨_, (engineTurn_op hn hr hp).trans (termCheck_selected hn hr hp)⟩

/-- Every turn of the engine goes on: RXS selects an operation, or the engine has no step and rests (R170, R183). -/
theorem engineTurn_next (h : s.Inv) : ∃ t, engineTurn s = .next t := by
  cases hn : s.inst with
  | none => exact ⟨s, engineTurn_closed hn⟩
  | some n =>
    cases hr : n.rxs with
    | starting =>
      rw [engineTurn_eq hn, hr]
      exact ⟨_, start_selected (p := phaseCode n.phase) hn hr⟩
    | listening => exact engineTurn_listening_next h hn hr
    | terminating =>
      rw [engineTurn_eq hn, hr]
      exact ⟨_, exit_selected (p := phaseCode n.phase) hn hr⟩
    | stopped => exact ⟨s, engineTurn_ended hn (.inl hr)⟩
    | dead => exact ⟨s, engineTurn_ended hn (.inr hr)⟩

theorem engineUnit_next (h : s.Inv) (k : Nat) : ∃ t, engineUnit k s = .next t := by
  induction k generalizing s with
  | zero => exact ⟨s, rfl⟩
  | succ k ih =>
    obtain ⟨t, ht⟩ := engineTurn_next h
    simp only [engineUnit, ht]
    split
    · exact ih (engineTurn_keeps_inv h ht)
    · exact ⟨t, rfl⟩

/-- Serving the engine goes on, under either granularity (R59). -/
theorem serveEngine_next (h : s.Inv) : ∃ t, serveEngine s = .next t := by
  unfold serveEngine
  split
  · exact engineTurn_next h
  · exact engineUnit_next h _

/-! #### Consumers -/

/-- A command that needs an open block is answered in either state of the block (R206). -/
theorem withOpen_answers (opc : BitVec 4) (f : Instance → State) : ∃ t, withOpen opc s f = .next t := by
  cases hn : s.inst with
  | none => exact ⟨_, withOpen_closed hn⟩
  | some n => exact ⟨_, withOpen_next.mpr (.inr ⟨n, hn, rfl⟩)⟩

/-- OPEN is answered in either state of the block, whatever its capacity (R230). -/
theorem open_answers (arg : BitVec 32) : ∃ t, exec (.openCmd arg) s = .next t := by
  cases hn : s.inst with
  | some n => exact ⟨_, open_open hn⟩
  | none =>
    by_cases hc : capLegal s.cfg arg.toNat
    · exact ⟨_, open_legal hn hc⟩
    · exact ⟨_, open_capFail hn hc⟩

/-- CLOSE goes on in both its steps: it is answered, begun or held (R233). -/
theorem close_next (s : State) : ∃ t, exec .close s = .next t := by
  by_cases ho : s.served ∈ s.overtaken
  · exact ⟨_, close_overtaken ho⟩
  · by_cases hc : s.served ∈ s.closing
    · cases hn : s.inst with
      | none => exact ⟨_, close_held_closed hn hc⟩
      | some n =>
        by_cases hend : n.rxs = .stopped ∨ n.rxs = .dead
        · exact ⟨_, close_ended hn hend hc ho⟩
        · exact ⟨_, close_held hn hend hc ho⟩
    · cases hn : s.inst with
      | none => exact ⟨_, close_closed hn (not_or.mpr ⟨hc, ho⟩)⟩
      | some n => exact ⟨_, close_begins hn (not_or.mpr ⟨hc, ho⟩)⟩

/-- Every command word goes on, an illegal one with its answer (R205, R250). -/
theorem runFrame_command_next (w : Word64) (s : State) : ∃ t, runFrame (.cmd64 w) s = .next t := by
  rw [runFrame_ok (i := decodeCmd w) rfl]
  apply decodeCmd_cases (P := fun i => ∃ t, exec i s = .next t) w
  case recv => exact fun _ => withOpen_answers _ _
  case flush => exact withOpen_answers _ _
  case getstats => exact withOpen_answers _ _
  case openCmd => exact open_answers
  case close => exact close_next s
  case rsv => exact fun _ _ _ => ⟨_, rfl⟩
  all_goals exact fun _ _ => ⟨_, rfl⟩

/-- BREAD delivers a byte, or is out of range (R53, R204). -/
theorem bread_permitted (a : BitVec 32) (s : State) : Permitted (exec (.bread a) s) := by
  simp only [exec, execBread]
  split
  · exact .breadOutOfRange
  · split
    · split
      · exact .next _
      · exact .next _
    · exact .breadOutOfRange

/-! #### One step -/

/-- Whoever the arbiter serves, only its port or a BREAD can refuse (R58, R235). -/
theorem serve_permitted (h : s.Inv) (r : Request) : Permitted (serve r s) := by
  cases r with
  | command c w =>
    simp only [serve]
    split_ifs
    · exact .noSuchConsumer
    · exact .previousUnanswered
    · exact .of_next (runFrame_command_next w _)
  | resume c =>
    simp only [serve]
    split_ifs
    · exact .of_next (close_next _)
    · exact .next s
  | bread c a =>
    simp only [serve]
    split_ifs
    · exact .noSuchConsumer
    · exact bread_permitted a _
  | offer e =>
    simp only [serve]
    split_ifs
    · exact .next _
    · exact .noSuchEvent
  | engine => exact .of_next (serveEngine_next h)

theorem step_permitted (h : s.Inv) : Permitted (step s) := by
  cases hs : s.sched with
  | nil => exact .of_next ⟨s, step_nil hs⟩
  | cons r rest =>
    rw [step_cons hs]
    exact serve_permitted (s := { s with sched := rest }) { h with } r

end

/-- Settles O52: the engine and the commands go on from the invariant, so only a port or a BREAD stops a step, with one
of the four refusals. -/
theorem noStepFaults : Obligations.NoStepFaults := by
  intro s h
  have hperm := step_permitted h
  refine ⟨fun r hr => ?_, fun r hr => ?_⟩
  · rw [hr] at hperm
    nomatch hperm
  · rw [hr] at hperm
    cases hperm with
    | breadOutOfRange => exact .inl rfl
    | previousUnanswered => exact .inr (.inl rfl)
    | noSuchConsumer => exact .inr (.inr (.inl rfl))
    | noSuchEvent => exact .inr (.inr (.inr rfl))

end Sys2Proof.Machine

/-! ### O2, O3: encoding and decoding agree (30_encoding.md 2, 4, 5, 6) -/

namespace Sys2Proof.Machine

section
variable {cfg : Config} {i : Instr}

/-! #### Command words -/

/-- A malformed word is of a defined opcode, with RSV or ARG set where it must be 0 (R73). -/
theorem illegalRsv_wf_iff {o : BitVec 4} {r : BitVec 28} {a : BitVec 32} : (Instr.illegalRsv o r a).wf cfg = true ↔
    definedOpc o = true ∧ (r ≠ 0#28 ∨ argMustBeZero o = true ∧ a ≠ 0#32) := by
  simp [Instr.wf]

/-- Every command word decodes to a well-formed row that encodes to it: a reserved opcode's, the malformed one, or one of
the five commands (R71 to R73). -/
theorem encode_decodeCmd (cfg : Config) (w : Word64) :
    (decodeCmd w).wf cfg = true ∧ encode (decodeCmd w) = .cmd64 w := by
  obtain ⟨o, r, a, rfl⟩ := exists_cmdWord w
  cases hd : definedOpc o with
  | false =>
    obtain rfl | rfl | rfl | rfl | rfl | rfl | rfl | rfl | rfl | rfl | rfl := definedOpc_eq_false_iff.mp hd <;>
      simp only [decodeCmd, cmdWord_opc, cmdWord_rsv, cmdWord_arg] <;> exact ⟨rfl, rfl⟩
  | true =>
    by_cases hm : r ≠ 0#28 ∨ argMustBeZero o = true ∧ a ≠ 0#32
    · rw [decodeCmd_malformed hd hm]
      exact ⟨illegalRsv_wf_iff.mpr ⟨hd, hm⟩, rfl⟩
    · simp only [not_or, not_and, not_not] at hm
      obtain ⟨rfl, hz⟩ := hm
      obtain rfl | rfl | rfl | rfl | rfl := definedOpc_iff.mp hd
      · rw [decodeCmd_recv]; exact ⟨rfl, rfl⟩
      · obtain rfl := hz rfl; exact ⟨rfl, rfl⟩
      · obtain rfl := hz rfl; exact ⟨rfl, rfl⟩
      · rw [decodeCmd_openCmd]; exact ⟨rfl, rfl⟩
      · obtain rfl := hz rfl; exact ⟨rfl, rfl⟩

/-! #### Packet headers -/

/-- The header of a well-formed packet row decodes to the row (R82, R86). -/
theorem decodeTs_toWord {h : TsHeader} (hw : i.wf cfg = true) (hi : i = .tsNull h ∨ i = .tsTei h ∨ i = .tsData h) :
    decodeTs h.toWord = i :=
  decodeTs_of_wf hw (by rwa [TsHeader.ofWord_toWord])

/-- Every header value decodes to a well-formed row that encodes to it, by PID and then by TEI (R82, R86). -/
theorem encode_decodeTs (cfg : Config) (w : BitVec 32) :
    (decodeTs w).wf cfg = true ∧ encode (decodeTs w) = .tshdr32 w := by
  have hw := TsHeader.toWord_ofWord w
  by_cases hnull : (TsHeader.ofWord w).pid = Config.nullPid
  · simp [decodeTs, tsClass, Instr.wf, encode, hnull, hw]
  · obtain htei | htei := BitVec.eq_zero_or_eq_one (TsHeader.ofWord w).tei <;>
      simp [decodeTs, tsClass, Instr.wf, encode, hnull, htei, hw]

/-! #### Engine selectors -/

/-- A selector that decodes selects a row that encodes to it (R91). -/
theorem encode_of_decodeStep {w : BitVec 6} (h : decodeStep w = .ok i) : i.wf cfg = true ∧ encode i = .step6 w := by
  obtain ⟨r, p, rfl⟩ : ∃ r p, w = stepWord r p := ⟨_, _, (stepWord_fields w).symm⟩
  simp only [decodeStep, stepWord_rxs, stepWord_phase] at h
  split_ifs at h <;> cases h <;> subst_vars <;> exact ⟨rfl, rfl⟩

/-! #### Ingress events -/

theorem dgClass_fatal {l : Nat} (h : dgClass cfg l = .fatal) : l = 0 := by
  unfold dgClass at h
  split_ifs at h with h0
  exact h0

/-- The length of an ignored datagram is none of the other classes' (R78). -/
theorem dgClass_other_ne {l : Nat} (h : dgClass cfg l = .other) : l ≠ 0 ∧ l ≠ cfg.unitSize ∧ l ≠ cfg.lRtp := by
  unfold dgClass at h
  split_ifs at h with h0 hr hu
  exact ⟨h0, hu, hr⟩

/-- A datagram that decodes has as many bytes as its length, and is encoded by the well-formed row of that length's class
(R77 to R79). -/
theorem encode_of_decodeIngress_dgram {l : BitVec 16} {d : List Byte}
    (h : decodeIngress cfg (ingressWord 0#2 l) d = .ok i) :
    i.wf cfg = true ∧ encode i = .ingress18 (ingressWord 0#2 l) d := by
  simp only [decodeIngress, ingressWord_kind, ingressWord_len, if_true] at h
  split_ifs at h with hd
  have hlen : d.length = l.toNat := lengthIs_iff.mp hd
  cases hc : dgClass cfg l.toNat with
  | fatal =>
    simp only [hc] at h; cases h
    have h0 := dgClass_fatal hc
    obtain rfl : l = 0#16 := BitVec.eq_of_toNat_eq h0
    obtain rfl : d = [] := List.eq_nil_of_length_eq_zero (hlen.trans h0)
    exact ⟨rfl, rfl⟩
  | rtp =>
    cases hh : RtpHeader.ofBytes d <;> simp only [hc, hh] at h <;> cases h
    have hr := dgClass_rtp hc
    have hu : (d.drop Config.rtpHdr).length = cfg.unitSize := by
      rw [List.length_drop, hlen, hr, Config.lRtp, Nat.add_sub_cancel]
    refine ⟨by simp [Instr.wf, hu, ← hr, l.isLt], ?_⟩
    rw [encode, hu, ← Config.lRtp, ← hr, BitVec.ofNat_toNat, BitVec.setWidth_eq, RtpHeader.toBytes_ofBytes hh]
  | bare =>
    simp only [hc] at h; cases h
    have hu := dgClass_bare hc
    have hpos : 0 < l.toNat := Nat.pos_of_ne_zero fun h0 => by simp [h0, dgClass_zero] at hc
    refine ⟨by simp [Instr.wf, hlen, ← hu, l.isLt, hpos], ?_⟩
    rw [encode, hlen, BitVec.ofNat_toNat, BitVec.setWidth_eq]
  | other =>
    simp only [hc] at h; cases h
    obtain ⟨h0, hu, hr⟩ := dgClass_other_ne hc
    exact ⟨by simp [Instr.wf, hlen, hu, hr, ← BitVec.toNat_inj, h0], rfl⟩

/-- An ingress frame that decodes is encoded by the well-formed row of its event (R77, R91). -/
theorem encode_of_decodeIngress {w : BitVec 18} {d : List Byte} (h : decodeIngress cfg w d = .ok i) :
    i.wf cfg = true ∧ encode i = .ingress18 w d := by
  obtain ⟨k, l, rfl⟩ : ∃ k l, w = ingressWord k l := ⟨_, _, (ingressWord_fields w).symm⟩
  by_cases hk : k = 0#2
  · subst hk; exact encode_of_decodeIngress_dgram h
  · simp only [decodeIngress, ingressWord_kind, ingressWord_len, hk, if_false, List.isEmpty_iff] at h
    split_ifs at h <;> cases h <;> subst_vars <;> exact ⟨rfl, rfl⟩

/-- An RTP-framed datagram's length is L_RTP, and its first 12 bytes are the header's (R78, R79). -/
theorem decode_encode_dgRtp {h : RtpHeader} {p : List Byte} (hw : (Instr.dgRtp h p).wf cfg = true) :
    decode cfg (encode (.dgRtp h p)) = .ok (.dgRtp h p) := by
  obtain ⟨hu, hlt⟩ : p.length = cfg.unitSize ∧ cfg.lRtp < 2 ^ 16 := by simpa [Instr.wf] using hw
  have hl : (BitVec.ofNat 16 (p.length + Config.rtpHdr)).toNat = cfg.unitSize + 12 := by
    rw [hu, BitVec.toNat_ofNat]; exact Nat.mod_eq_of_lt hlt
  have hlen : lengthIs (h.toBytes ++ p) (cfg.unitSize + 12) = true := by
    rw [lengthIs_iff, List.length_append, hu, RtpHeader.toBytes_length, Config.rtpHdr, Nat.add_comm]
  have hdrop : (h.toBytes ++ p).drop Config.rtpHdr = p := List.drop_left' h.toBytes_length
  simp only [encode, decode, decodeIngress, ingressWord_kind, ingressWord_len, hl, hlen, dgClass_lRtp,
    RtpHeader.ofBytes_toBytes, hdrop, if_true]

/-- A bare datagram's length is U (R78). -/
theorem decode_encode_dgBare {p : List Byte} (hw : (Instr.dgBare p).wf cfg = true) :
    decode cfg (encode (.dgBare p)) = .ok (.dgBare p) := by
  obtain ⟨⟨hu, hlt⟩, hpos⟩ : (p.length = cfg.unitSize ∧ cfg.unitSize < 2 ^ 16) ∧ 0 < cfg.unitSize := by
    simpa [Instr.wf] using hw
  have hl : (BitVec.ofNat 16 p.length).toNat = cfg.unitSize := by
    rw [hu, BitVec.toNat_ofNat]; exact Nat.mod_eq_of_lt hlt
  simp only [encode, decode, decodeIngress, ingressWord_kind, ingressWord_len, hl, lengthIs_iff.mpr hu,
    dgClass_unitSize hpos.ne', if_true]

/-- An ignored datagram keeps its length and its bytes (R77, R78). -/
theorem decode_encode_dgOther {l : BitVec 16} {d : List Byte} (hw : (Instr.dgOther l d).wf cfg = true) :
    decode cfg (encode (.dgOther l d)) = .ok (.dgOther l d) := by
  obtain ⟨⟨⟨hlen, h0⟩, hu⟩, hr⟩ :
      ((d.length = l.toNat ∧ l ≠ 0#16) ∧ l.toNat ≠ cfg.unitSize) ∧ l.toNat ≠ cfg.lRtp := by
    simpa [Instr.wf] using hw
  have hc : dgClass cfg l.toNat = .other := dgClass_other (fun e => h0 (BitVec.eq_of_toNat_eq e)) hu hr
  simp only [encode, decode, decodeIngress, ingressWord_kind, ingressWord_len, lengthIs_iff.mpr hlen, hc, if_true]

end

/-- Settles O2: row by row, the encoder's fields are read back, and the row's condition keeps it from every row above. -/
theorem decodeOfEncode : Obligations.DecodeOfEncode := by
  intro cfg i hw
  cases i with
  | recv a => exact congrArg Except.ok (decodeCmd_recv a)
  | openCmd a => exact congrArg Except.ok (decodeCmd_openCmd a)
  | illegalOpc0 r a | illegalOpc4 r a | illegalOpc5 r a | illegalOpc6 r a | illegalOpc7 r a | illegalOpcA r a
  | illegalOpcB r a | illegalOpcC r a | illegalOpcD r a | illegalOpcE r a | illegalOpcF r a =>
    simp only [encode, decode, decodeCmd, cmdWord_opc, cmdWord_rsv, cmdWord_arg]
    rfl
  | illegalRsv o r a =>
    obtain ⟨hd, hm⟩ := illegalRsv_wf_iff.mp hw
    exact congrArg Except.ok (decodeCmd_malformed hd hm)
  | dgFatalRxerr l | idle l =>
    simp only [encode, decode, decodeIngress, ingressWord_kind, ingressWord_len]
    rfl
  | dgRtp h p => exact decode_encode_dgRtp hw
  | dgBare p => exact decode_encode_dgBare hw
  | dgOther l d => exact decode_encode_dgOther hw
  | tsNull h => exact congrArg Except.ok (decodeTs_toWord hw (.inl rfl))
  | tsTei h => exact congrArg Except.ok (decodeTs_toWord hw (.inr (.inl rfl)))
  | tsData h => exact congrArg Except.ok (decodeTs_toWord hw (.inr (.inr rfl)))
  | start p | exit p =>
    simp only [encode, decode, decodeStep, stepWord_rxs, stepWord_phase]
    rfl
  | flush | getstats | close | bread _ | dgFatalL0 | classify | seqCheck | ccCheck | pktCount | push | termCheck => rfl

/-- Settles O3: format by format, a frame is the one its fields make, and what its fields decode to keeps them. -/
theorem encodeOfDecode : Obligations.EncodeOfDecode := by
  intro cfg f i h
  cases f with
  | cmd64 w => cases h; exact encode_decodeCmd cfg w
  | bread32 a => cases h; exact ⟨rfl, rfl⟩
  | ingress18 w d => exact encode_of_decodeIngress h
  | tshdr32 w => cases h; exact encode_decodeTs cfg w
  | step6 w => exact encode_of_decodeStep h

end Sys2Proof.Machine

/-! ### O31, O46, O49: FLUSH, the returned span, and power-on (70_reset_and_hazards.md R280 to R284) -/

namespace Sys2Proof.Machine

section
variable {cfg : Config} {n m : Instance}

/-- PUSH leaves the bytes of the returned span alone: they are the front of the queue, which it may only lengthen
(R101, R60). -/
theorem Instance.Inv.push_span (h : n.Inv cfg) (hu : 0 < cfg.unitSize) (ha : n.isAt .push = true) :
    (n.pushUnit cfg).spanBytes = n.spanBytes := by
  have hpend : (n.pushUnit cfg).pend = n.pend := by
    obtain ⟨_, _, _, hw⟩ := pushUnit_writes cfg n
    rw [hw]
  rw [(h.pushUnit hu ha).span_live, h.span_live, hpend]
  obtain ⟨hl, -⟩ | ⟨hl, -⟩ := h.push_queue hu <;> rw [hl]
  exact List.take_append_of_le_length (by rw [liveBytes_length]; exact h.pend_le)

/-- The bytes of the span are those of BUF from TAIL on, whatever the other registers hold (R30). -/
theorem spanBytes_congr (hb : m.buf = n.buf) (ht : m.tail = n.tail) (hp : m.pend = n.pend) :
    m.spanBytes = n.spanBytes := by
  simp only [Instance.spanBytes, hb, ht, hp]

end

/-- Settles O46: by the access matrix only RECV and FLUSH move the span and only PUSH writes BUF, outside the span. -/
theorem returnedSpanIsStable : Obligations.ReturnedSpanIsStable := by
  intro s t i n h hn he hrecv hflush hclose
  obtain ⟨m, hm⟩ := inst_survives hn he hclose
  have w := (effect_of_next he hn hm).writesOwnElements
  obtain ⟨htail, hpend⟩ := w.span hflush hrecv
  refine ⟨m, hm, htail, hpend, ?_⟩
  by_cases hp : i = .push
  · subst hp
    obtain ⟨n', hn', ha, rfl⟩ := engineStep_next.mp he
    rw [hn] at hn'; cases hn'; cases hm
    exact (h.inst_inv n hn).push_span (unitSize_pos h.cfg_wf) ha
  · exact spanBytes_congr (w.ring hp).2 htail hpend

/-- Settles O31: RING_FLUSH, CT_CLEAR and the resets write none of these elements, and FLUSH answers once. -/
theorem flushFrame : Obligations.FlushFrame := by
  intro s t he
  obtain ⟨hn, rfl⟩ | ⟨n, hn, rfl⟩ := withOpen_next.mp he
  · exact ⟨⟨rfl, rfl, rfl, rfl, rfl, rfl, rfl⟩, ⟨_, rfl⟩, id, by simp [hn]⟩
  · refine ⟨⟨rfl, rfl, rfl, rfl, rfl, rfl, rfl⟩, ⟨_, rfl⟩, by simp [hn], fun n' hn' => ?_⟩
    rw [hn] at hn'; cases hn'
    exact ⟨_, rfl, rfl, rfl, fun _ => rfl, ⟨rfl, rfl, rfl⟩, ⟨rfl, rfl, rfl, rfl⟩⟩

/-- Settles O49: the parameters of this spec are legal for any number of other consumers, and at power-on no block, no
CLOSE and no event is there. -/
theorem resetMeetsTheInvariant : Obligations.ResetMeetsTheInvariant where
  cfg_wf := ⟨by decide, by decide, by decide, Nat.le_add_left 1 _⟩
  outstanding_nodup := List.nodup_nil
  outstanding_lt := fun _ hc => by simp [State.reset] at hc
  closing_term := fun hc => absurd rfl hc
  closed_port := fun _ => rfl
  offer_wf := nofun
  inst_inv := nofun

end Sys2Proof.Machine
